-- ==== Sys2Proof/Word.lean ====
section
/-! DEFINITION. The plain data types of HUFFCORE: symbols, bits, node references, weights as exact ratios, entries, and
the records of the node store and of the code table.  Only types stand here; every operation on them stands under
`Sys2Proof/Machine/`. -/

namespace Sys2Proof

/-- One byte of a packed stream (R16, R55). -/
abbrev Byte := BitVec 8

/-- A symbol: "one byte value (0–255)" (R9). -/
abbrev Sym := BitVec 8

/-- An element of `{0, 1}` (R19); `true` is 1. -/
abbrev Bit := Bool

/-- A 9-bit node reference (R24); `Config.noneRef` is the null reference. -/
abbrev NodeRef := BitVec 9

/-- A 16-bit command word (R87). -/
abbrev CmdWord := BitVec 16

/-- A weight as plain data (R13 W3: it stands for a finite real number that is not negative): under exact and binary64
arithmetic the ratio itself, in lowest terms; under an unnamed instantiation the code of a value of its set `W` (DESIGN
CHOICE, log entry 12).  Which are values of `W` is `Machine.hasWeight`. -/
structure Weight where
  num : Nat
  den : Nat
  deriving DecidableEq, Repr, Inhabited

/-- An entry of the entry list: HUF's SymbolFrequency (R20, R85). -/
structure Entry where
  sym : Sym
  w : Weight
  deriving DecidableEq, Repr, Inhabited

/-- The `kind` bit of a node record (R24): 0 is Leaf, 1 is Internal. -/
inductive Kind where
  | leaf
  | internal
  deriving DecidableEq, Repr, Inhabited

/-- One record of the node store (R24). -/
structure NodeRec where
  kind : Kind
  sym : Sym
  w : Weight
  left : NodeRef
  right : NodeRef
  deriving DecidableEq, Repr, Inhabited

/-- The `len` and `code` of one code table record (R27); element 0 of `code` is the bit nearest the root. -/
structure CodeRec where
  len : BitVec 8
  code : List Bit
  deriving DecidableEq, Repr, Inhabited

end Sys2Proof
end

