-- ==== Sys2Proof/Syntax.lean ====
section
/-! DEFINITION. The six operations of HUFFCORE (R90), one constructor per row of the opcode table.  An immediate is an
unsigned number "with no extension, scaling or shift" (R88); operand streams are no part of a command word (R89) and
stand on the ports of the state. -/

namespace Sys2Proof

inductive Instr where
  /-- `TB_BUILD` (R110). -/
  | tbBuild
  /-- `TB_NODE idx`, `idx` 0 to 511 (R130). -/
  | tbNode (idx : Nat)
  /-- `CD_DERIVE` (R140). -/
  | cdDerive
  /-- `CD_LOOKUP sym`, `sym` 0 to 255 (R150). -/
  | cdLookup (sym : Nat)
  /-- `BP_PACK` (R160). -/
  | bpPack
  /-- `BU_UNPACK` (R180). -/
  | buUnpack
  deriving DecidableEq, Repr, Inhabited

end Sys2Proof
end

