-- ==== Sys2Proof/WellFormed.lean ====
section
/-! DEFINITION. Which instructions have a command word: the ranges of the two immediates (R88, R90). -/

namespace Sys2Proof

/-- The immediate fits its field: a `NodeRef` of 9 bits for `TB_NODE`, a `Sym` with `arg[8] = 0` for `CD_LOOKUP` (R88). -/
def Instr.wellFormed : Instr → Bool
  | .tbBuild => true
  | .tbNode idx => decide (idx < 512)
  | .cdDerive => true
  | .cdLookup sym => decide (sym < 256)
  | .bpPack => true
  | .buUnpack => true

end Sys2Proof
end

