-- ==== Sys2Proof/Decode.lean ====
section
/-! DEFINITION. The command word `op[15:12] z[11:9] arg[8:0]` (R87): the decoder, total on all 65536 words and rejecting
by name (R91), and after it the encoder (R90). -/

namespace Sys2Proof

/-- Why a command word is illegal (R91), in the order the decoder looks. -/
inductive DecodeError where
  /-- `op` is 0x0 or 0x7 to 0xF. -/
  | illegalOp
  /-- `z` is not 0. -/
  | zNotZero
  /-- The operation takes no immediate and `arg` is not 0. -/
  | argNotZero
  /-- `CD_LOOKUP` with `arg[8] = 1`. -/
  | lookupArgBit8
  deriving DecidableEq, Repr, Inhabited

/-- `op = cw[15:12]` (R87). -/
def cmdOp (cw : CmdWord) : BitVec 4 := cw.extractLsb' 12 4
/-- `z = cw[11:9]` (R87). -/
def cmdZ (cw : CmdWord) : BitVec 3 := cw.extractLsb' 9 3
/-- `arg = cw[8:0]` (R87). -/
def cmdArg (cw : CmdWord) : BitVec 9 := cw.extractLsb' 0 9

/-- An operation that requires `arg = 0` (R88). -/
def decodeNoArg (cw : CmdWord) (i : Instr) : Except DecodeError Instr :=
  if cmdArg cw = 0#9 then .ok i else .error .argNotZero

/-- Decoding (R87 to R91). -/
def decode (cw : CmdWord) : Except DecodeError Instr :=
  if cmdZ cw ≠ 0#3 then .error .zNotZero
  else
    match (cmdOp cw).toNat with
    | 1 => decodeNoArg cw .tbBuild
    | 2 => .ok (.tbNode (cmdArg cw).toNat)
    | 3 => decodeNoArg cw .cdDerive
    | 4 =>
      if (cmdArg cw).getLsbD 8 then .error .lookupArgBit8
      else .ok (.cdLookup ((cmdArg cw).extractLsb' 0 8).toNat)
    | 5 => decodeNoArg cw .bpPack
    | 6 => decodeNoArg cw .buUnpack
    | _ => .error .illegalOp

/-- A command word from its three fields (R87). -/
def cmdWord (op : BitVec 4) (z : BitVec 3) (arg : BitVec 9) : CmdWord := (op ++ z ++ arg).cast (by decide)

/-- The `op` field of an operation (R90). -/
def Instr.op : Instr → BitVec 4
  | .tbBuild => 0x1#4
  | .tbNode _ => 0x2#4
  | .cdDerive => 0x3#4
  | .cdLookup _ => 0x4#4
  | .bpPack => 0x5#4
  | .buUnpack => 0x6#4

/-- The `arg` field of an operation (R88). -/
def Instr.arg : Instr → BitVec 9
  | .tbBuild => 0#9
  | .tbNode idx => BitVec.ofNat 9 idx
  | .cdDerive => 0#9
  | .cdLookup sym => BitVec.ofNat 9 sym
  | .bpPack => 0#9
  | .buUnpack => 0#9

/-- The command word of a well-formed instruction (R90). -/
def encode (i : Instr) : CmdWord := cmdWord i.op 0#3 i.arg

/-- The decoder on a word numbered as the opcode table numbers it; a command word is one 16-bit word (R87), and a
number of more than 16 bits is none. -/
def decodeTableWord (nbits w : Nat) : Option Instr :=
  if w % 2 ^ nbits < 2 ^ 16 then (decode (BitVec.ofNat 16 (w % 2 ^ nbits))).toOption else none

end Sys2Proof
end

