-- ==== Sys2Proof/Machine/Bits.lean ====
section
/-! DEFINITION. Bits, bytes and bit sequences (R58, R59): most significant bit first, and the characters '0' and '1'
(R80). -/

namespace Sys2Proof.Machine

/-- `bits8(b)`: the bits of a byte, bit 7 first (R58). -/
def bits8 (b : Byte) : List Bit :=
  [b.getLsbD 7, b.getLsbD 6, b.getLsbD 5, b.getLsbD 4, b.getLsbD 3, b.getLsbD 2, b.getLsbD 1, b.getLsbD 0]

/-- The number a bit sequence stands for, first bit most significant. -/
def bitsValue (s : List Bit) : Nat := s.foldl (fun n b => 2 * n + b.toNat) 0

/-- `byte8(s)` of a bit sequence of length 8 (R58): `s[0]*128 + s[1]*64 + ... + s[7]`. -/
def byte8 (s : List Bit) : Byte := BitVec.ofNat 8 (bitsValue s)

/-- `unbits(bs)`: the bits of all bytes in order (R59). -/
def unbits : List Byte → List Bit
  | [] => []
  | b :: bs => bits8 b ++ unbits bs

/-- `tobytes(s)` of a bit sequence whose length is a multiple of 8 (R59). -/
def tobytes : List Bit → List Byte
  | a :: b :: c :: d :: e :: f :: g :: h :: s => byte8 [a, b, c, d, e, f, g, h] :: tobytes s
  | _ => []

/-- The character '0', code 0x30 (R80; PRESUMED, log entry 8). -/
def charZero : Byte := 0x30#8
/-- The character '1', code 0x31 (R80; PRESUMED, log entry 8). -/
def charOne : Byte := 0x31#8

/-- A character of a bitstring is '0' or '1' (R80). -/
def isBitChar (c : Byte) : Bool := c == charZero || c == charOne

/-- `bitof` (R80); used on '0' and '1' only. -/
def bitOf (c : Byte) : Bit := c == charOne

/-- `charof` (R80). -/
def charOf (b : Bit) : Byte := if b then charOne else charZero

/-- `padding = 8 - (L mod 8)` (R76, R165). -/
def padding (len : Nat) : Nat := 8 - len % 8

/-- The frame: `padding - 1` zero bits, a one bit, the payload (R75, R166). -/
def frame (p : List Bit) : List Bit := List.replicate (padding p.length - 1) false ++ [true] ++ p

/-- The payload of a packed stream's bits: what follows the first 1 among the first 8 bits, or, when there is none
there, what follows the first 8 bits (R183 to R186; the empty stream by decision D13, log entry 20). -/
def unframe (x : List Bit) : List Bit :=
  match (x.take 8).findIdx? id with
  | some p => x.drop (p + 1)
  | none => x.drop 8

end Sys2Proof.Machine
end

