-- ==== Sys2Proof/Machine/Ratio.lean ====
section
/-! DEFINITION. Weights as ratios in lowest terms, their order, their exact sum and quotient; the laws that every
`WeightArith` must meet (R13) and those that the host's quotient must meet (R202). -/

namespace Sys2Proof.Machine

/-- A ratio in lowest terms: what a `Weight` that stands for a number looks like. -/
def weightWf (a : Weight) : Bool := decide (a.den ≠ 0) && decide (Nat.gcd a.num a.den = 1)

/-- The ratio `n / d` in lowest terms (`d` not 0). -/
def ratio (n d : Nat) : Weight := { num := n / Nat.gcd n d, den := d / Nat.gcd n d }

/-- The sum of two ratios, exact. -/
def exactAdd (a b : Weight) : Weight := ratio (a.num * b.den + b.num * a.den) (a.den * b.den)

/-- The order of ratios. -/
def ratioLe (a b : Weight) : Bool := decide (a.num * b.den ≤ b.num * a.den)

/-- The weight 0. -/
def zeroWeight : Weight := { num := 0, den := 1 }

/-- The weight 1. -/
def oneWeight : Weight := { num := 1, den := 1 }

/-- W3: every value of `W` stands for a real number that is not negative, and `w_le` is the order of those numbers. -/
abbrev RealOrder (has : Weight → Bool) (le : Weight → Weight → Bool) (val : Weight → ℝ) : Prop :=
  ∀ a b, has a = true → has b = true → 0 ≤ val a ∧ (le a b = true ↔ val a ≤ val b)

/-- What R13 asks of the record `(W, w_le, w_add)`: `w_add : W -> W -> W` and the laws W1 to W4, and nothing else. -/
structure SumLaws (has : Weight → Bool) (le : Weight → Weight → Bool) (add : Weight → Weight → Weight) : Prop where
  closed : ∀ a b, has a = true → has b = true → has (add a b) = true
  /-- W1, in three parts. -/
  reflexive : ∀ a, has a = true → le a a = true
  transitive : ∀ a b c, has a = true → has b = true → has c = true → le a b = true → le b c = true → le a c = true
  total : ∀ a b, has a = true → has b = true → le a b = true ∨ le b a = true
  /-- W2. -/
  monotone : ∀ a a' b b', has a = true → has a' = true → has b = true → has b' = true →
    le a a' = true → le b b' = true → le (add a b) (add a' b') = true
  /-- W3. -/
  real : ∃ val, RealOrder has le val
  /-- W4, in two parts. -/
  leftLe : ∀ a b, has a = true → has b = true → le a (add a b) = true
  rightLe : ∀ a b, has a = true → has b = true → le b (add a b) = true

/-- What R202 asks of `q = w_ratio(_, total)` in every case, `val` the numbers the values of `W` stand for: values of `W`,
monotone in the count, 0 for no occurrence and 1 for all of the text (R204). -/
structure QuotLaws (has : Weight → Bool) (le : Weight → Weight → Bool) (val : Weight → ℝ) (total : Nat)
    (q : Nat → Weight) : Prop where
  inW : ∀ c, c ≤ total → has (q c) = true
  monotone : ∀ c c', c ≤ c' → c' ≤ total → le (q c) (q c') = true
  nothing : val (q 0) = 0
  whole : val (q total) = 1

/-- "Different weights for different counts" (R202). -/
abbrev Different (le : Weight → Weight → Bool) (total : Nat) (q : Nat → Weight) : Prop :=
  ∀ c c', c < c' → c' ≤ total → le (q c') (q c) = false

/-- `w` is the value of `W` that stands for the number `x`: `x` itself where it is in `W`, else `x` rounded, to the next
value below or the next above. -/
abbrev Rounds (has : Weight → Bool) (val : Weight → ℝ) (x : ℝ) (w : Weight) : Prop :=
  (val w ≤ x ∧ ∀ v, has v = true → val v ≤ x → val v ≤ val w) ∨
  (x ≤ val w ∧ ∀ v, has v = true → x ≤ val v → val w ≤ val v)

/-- `q` of every count is "the value of `W` that stands for" `count / total` (R202): the quotient itself where it is in
`W`, else "the rounded quotient". -/
abbrev RoundedQuot (has : Weight → Bool) (val : Weight → ℝ) (total : Nat) (q : Nat → Weight) : Prop :=
  ∀ c, c ≤ total → Rounds has val ((c : ℝ) / total) (q c)

end Sys2Proof.Machine
end

