-- ==== Sys2Proof/Config.lean ====
section
/-! DEFINITION. The implementation parameters (R9 to R15) and the free values: constants with no body, of which nothing
but their type can be proved, for every value the spec leaves unspecified (93_implementation_defined.md U1 to U4, U13). -/

namespace Sys2Proof

/-- The open parameter `WeightArith` (R13, decision D1) as plain data: the two instantiations D1 names, and any other,
under a number. -/
inductive WeightArith where
  /-- `W_EXACT`: non-negative rationals, exact sum. -/
  | exact
  /-- `W_F64`: IEEE 754 binary64, round to nearest, ties to even (PRESUMED, log entry 9). -/
  | binary64
  /-- Any other instantiation: a free value `Config.unnamedArith k`, of which the laws of R13 are known and, of its host's
  quotients, those of R202, and nothing else. -/
  | unnamed (k : Nat)
  deriving DecidableEq, Repr, Inhabited

/-- The host's quotient `w_ratio(_, total)` over a set `W`, for the texts of one length (R202).  It is no part of State. -/
inductive HostQuot (has : Weight → Bool) (le : Weight → Weight → Bool) (val : Weight → ℝ) (total : Nat) where
  /-- The rounded quotient, and it tells all counts apart. -/
  | apart (q : Nat → Weight) (laws : Machine.QuotLaws has le val total q) (rounds : Machine.RoundedQuot has val total q)
      (different : Machine.Different le total q)
  /-- The rounded quotient, and its rounding brings two counts together.  DESIGN CHOICE (log entry 21): R202 says both "the
  rounded quotient" and "different weights for different counts", and where the two part the rounding is kept, also
  where rounding some counts the other way would tell all counts apart. -/
  | collides (q : Nat → Weight) (laws : Machine.QuotLaws has le val total q)
      (rounds : Machine.RoundedQuot has val total q) (together : ¬ Machine.Different le total q)
  /-- None, where no value of this `W` can stand for some quotient. -/
  | unmeetable (none : ∀ q, Machine.QuotLaws has le val total q → ¬ Machine.RoundedQuot has val total q)

/-- What an unnamed instantiation can be: exact arithmetic, or any `(W, w_le, w_add)` with the laws W1 to W4 that "every
instantiation must meet" (R13), finite or not, its values coded by `Weight`s that stand for the numbers `val` (log
entry 12); with the host's quotients for it (R202).  It is no part of State. -/
inductive UnnamedArith where
  | rational
  | other (has : Weight → Bool) (le : Weight → Weight → Bool) (add : Weight → Weight → Weight) (val : Weight → ℝ)
      (laws : Machine.SumLaws has le add) (order : Machine.RealOrder has le val)
      (quot : (total : Nat) → HostQuot has le val total)
  deriving Inhabited

/-- The two parameters the spec leaves open (R15): fixed for a machine, written by no operation and by no reset. -/
structure Params where
  arith : WeightArith
  /-- `CAP_BITS` (R14); `none` is unbounded, the default. -/
  capBits : Option Nat
  deriving DecidableEq, Repr, Inhabited

namespace Config

/-- `MAX_LEAVES` (R10), also `NSYM` (R9). -/
def maxLeaves : Nat := 256
/-- `MIN_LEAVES` (R15). -/
def minLeaves : Nat := 2
/-- `MAX_NODES` (R11). -/
def maxNodes : Nat := 511
/-- `MAX_CODE_LEN` (R12). -/
def maxCodeLen : Nat := 255
/-- `NONE`, the null node reference (R15, R24). -/
def noneRef : NodeRef := 0x1FF#9
/-- The parameters the model's reset state is written with (DESIGN CHOICE, log entry 3). -/
def defaultParams : Params := { arith := .exact, capBits := none }

/-- Free: the `sym` field of an Internal record (U3), at the draw given. -/
opaque freeSym : Nat → Sym
/-- Free: the contents of node record `i` while nothing has written it (U2), at the draw given. -/
opaque freeNode : Nat → Nat → NodeRec
/-- Free: the fields of `node_out` other than `valid` when `valid = 0` (U4), at the draw given. -/
opaque freeNodeOut : Nat → NodeRec
/-- Free: `len` and `code` of `lookup_out` on a miss (U4), at the draw given. -/
opaque freeCode : Nat → CodeRec
/-- Free: `node_out.valid` after a fault (U13). -/
opaque freeNodeValid : Nat → Bool
/-- Free: `lookup_out.hit` after a fault (U13). -/
opaque freeLookupHit : Nat → Bool
/-- Free: `nnodes` after a fault (U13), taken modulo 512. -/
opaque freeNnodes : Nat → Nat
/-- Free: `root` after a fault (U13). -/
opaque freeRoot : Nat → NodeRef
/-- Free: the code table record of a symbol after a fault (U13). -/
opaque freeEntry : Nat → Nat → Option CodeRec
/-- Free: the queue `source` after a fault (U13). -/
opaque freeSource : Nat → List NodeRef
/-- Free: the queue `target` after a fault (U13). -/
opaque freeTarget : Nat → List NodeRef
/-- Free: `byte_out` after a fault (U13). -/
opaque freeBytes : Nat → List Byte
/-- Free: `char_out` after a fault (U13). -/
opaque freeChars : Nat → List Byte
/-- Free: the unnamed instantiation `k` (U1): some arithmetic that meets the laws. -/
opaque unnamedArith : Nat → UnnamedArith

end Config
end Sys2Proof
end

