-- ==== Sys2Proof/Machine/State.lean ====
section
/-! DEFINITION. The state of HUFFCORE as plain data (R38), the ports and the queue of requests through which the host
acts on it, the reasons a step can stop, and the state after reset. -/

namespace Sys2Proof.Machine

/-- The result code held by `status` (R34); the codes 5 to 7 "are never written" and have no constructor
(DEDUCED, log entry 18). -/
inductive Status where
  | ok
  | invalidBitstring
  | ioFailure
  | structuralPrecondition
  | illegalCommand
  deriving DecidableEq, Repr, Inhabited

/-- The result register `node_out` (R37, R130). -/
structure NodeOut where
  valid : Bool
  kind : Kind
  sym : Sym
  w : Weight
  left : NodeRef
  right : NodeRef
  deriving DecidableEq, Repr, Inhabited

/-- The result register `lookup_out` (R37, R150). -/
structure LookupOut where
  hit : Bool
  len : BitVec 8
  code : List Bit
  deriving DecidableEq, Repr, Inhabited

/-- What the host presents with a command (R55, R56, R89): the three input streams, element 0 first, and the two flags
of the external source and sink. -/
structure Operands where
  entryIn : List Entry
  charIn : List Byte
  sinkOk : Bool
  byteIn : List Byte
  srcOk : Bool
  deriving DecidableEq, Repr, Inhabited

/-- A command: "a 16-bit command word `cw` together with its operand streams" (R87). -/
structure Command where
  cw : CmdWord
  operands : Operands
  deriving DecidableEq, Repr, Inhabited

/-- What the host can do to the block: issue a command (R64), reset it (R260), or reset it while a command runs (R262;
DEDUCED, log entry 15). -/
inductive Request where
  | command (c : Command)
  | reset
  | resetDuring (c : Command)
  deriving DecidableEq, Repr, Inhabited

/-- All state of HUFFCORE (R38), with the host's side (`ports`, `requests`), the open parameters of the machine
(`params`) and the counter of free values (`draws`). -/
structure State where
  /-- `node[0..510]`: the records that have been written, by rising index; one that is not listed is unspecified (U2;
  log entry 6). -/
  node : List (Nat × NodeRec)
  /-- `nnodes`, 0 to 511 (R24). -/
  nnodes : Nat
  /-- `root` (R24). -/
  root : NodeRef
  /-- The queue `source`, oldest first (R28, R30). -/
  source : List NodeRef
  /-- The queue `target`, oldest first (R28, R30). -/
  target : List NodeRef
  /-- `ct[0..255]`: the records with `valid = 1`, by rising symbol; one that is not listed has `valid = 0` (R27). -/
  ct : List (Nat × CodeRec)
  /-- `status` (R34). -/
  status : Status
  /-- `err_info`, an unbounded natural number (R35). -/
  errInfo : Nat
  /-- The sticky `fault` flag (R36). -/
  fault : Bool
  /-- `byte_out` (R37). -/
  byteOut : List Byte
  /-- `char_out` (R37). -/
  charOut : List Byte
  /-- `node_out` (R37). -/
  nodeOut : NodeOut
  /-- `lookup_out` (R37). -/
  lookupOut : LookupOut
  /-- The input streams and flags the host presents (R55, R56; log entry 4). -/
  ports : Operands
  /-- What the host will do next, first request first (R65; log entry 2). -/
  requests : List Request
  /-- The open parameters (R15; log entry 3). -/
  params : Params
  /-- How many free values have been drawn: the model's own field, log entry 5. -/
  draws : Nat
  deriving DecidableEq, Repr, Inhabited

/-- Why a step has no next state though the operation is defined. -/
inductive Fault where
  /-- Raised by every operation, by an illegal command word and by a step with no reset to come, while `fault = 1`: no
  command is executed there (R241) and there is no step until reset (U14; log entry 1).  Safe. -/
  | blockFaulted
  /-- Raised by `CD_DERIVE` when the walk of R142 has not ended after as many steps down as there are records, which
  happens only in a store with a cycle; R124 rules that out for every store `TB_BUILD` wrote (log entry 11).  Safe. -/
  | walkDoesNotEnd
  deriving DecidableEq, Repr, Inhabited

/-- Why a request has no meaning. -/
inductive Refusal where
  /-- Raised by an arm of `exec` whose instruction has no meaning yet; no arm does.  Safe. -/
  | notModelled (mnemonic : String)
  /-- Raised by `TB_BUILD` on a list that is not sorted by weight with equal weights in ascending symbol order: "a model
  refuses such an input" (R111, U5).  Safe. -/
  | entryListUnsorted
  /-- Raised by `TB_BUILD` on a list that names a symbol twice, so on any list of more than 256 entries (R111, U5, U6).
  Safe. -/
  | entryListRepeatsSymbol
  /-- Raised by `TB_BUILD` on an entry whose weight is no value of `W` (R111, U5).  Safe. -/
  | weightOutsideW
  /-- Raised by `BP_PACK` and `BU_UNPACK` on a request above `CAP_BITS`: "refused, not truncated" (R14, R173, R191, U15).
  Safe. -/
  | overCapBits
  /-- Raised by `CD_DERIVE` on a tree in which one symbol labels two leaves: "this spec gives it no meaning" (R146, U6);
  `TB_BUILD` makes no such tree.  Safe. -/
  | duplicateLeafSymbol
  deriving DecidableEq, Repr, Inhabited

/-- `node_out` with `valid` as given and the other fields those of a record (R130). -/
def NodeOut.ofRec (valid : Bool) (r : NodeRec) : NodeOut :=
  { valid := valid, kind := r.kind, sym := r.sym, w := r.w, left := r.left, right := r.right }

/-- `lookup_out` with `hit` as given and the other fields those of a record (R150). -/
def LookupOut.ofRec (hit : Bool) (r : CodeRec) : LookupOut := { hit := hit, len := r.len, code := r.code }

/-- No stream presented, source and sink well (DESIGN CHOICE, log entry 4). -/
def Operands.idle : Operands := { entryIn := [], charIn := [], sinkOk := true, byteIn := [], srcOk := true }

/-- The state the table of R38 gives, for the machine's parameters, the host's remaining requests and the draw `d` at
which the fields R38 calls unspecified are taken (DESIGN CHOICE, log entry 6). -/
def State.resetWith (p : Params) (rs : List Request) (d : Nat) : State where
  node := []
  nnodes := 0
  root := Config.noneRef
  source := []
  target := []
  ct := []
  status := .ok
  errInfo := 0
  fault := false
  byteOut := []
  charOut := []
  nodeOut := .ofRec false (Config.freeNodeOut d)
  lookupOut := .ofRec false (Config.freeCode d)
  ports := .idle
  requests := rs
  params := p
  draws := d + 1

/-- The machine right after reset (R38, R260). -/
def State.reset : State := State.resetWith Config.defaultParams [] 0

end Sys2Proof.Machine
end

