-- ==== Sys2Proof/Machine/Weights.lean ====
section
/-! DEFINITION. `WeightArith` (R13): the set `W`, the comparison `w_le`, the sum `w_add` and the host's quotient `w_ratio`
(R202) for the two instantiations decision D1 names and for an unnamed one.  Laws/Weights.lean proves the laws of R13 and
R202 of every instantiation. -/

namespace Sys2Proof.Machine

/-- `n / d` divided by `2^-1074`, the least positive binary64 number, rounded to 53 significant bits, ties to even; the
result counts multiples of `2^-1074`. -/
def roundUnits (n d : Nat) : Nat :=
  let x := n * 2 ^ 1074
  let shift := Nat.log2 (x / d) - 52
  let unit := d * 2 ^ shift
  let q := x / unit
  let r := x % unit
  let q' := if 2 * r > unit || (2 * r == unit && q % 2 == 1) then q + 1 else q
  q' * 2 ^ shift

/-- The largest finite binary64 number, `2^1024 - 2^971`, in multiples of `2^-1074`. -/
def maxUnits : Nat := (2 ^ 53 - 1) * 2 ^ (971 + 1074)

/-- `n / d` rounded to binary64 (D1 `W_F64`; PRESUMED, log entry 9).  A value that would round to `2^1024` or more is the
largest finite number, the one result the laws W2 and W3 leave (`saturation_is_forced`; DEDUCED, log entry 9). -/
def roundF64 (n d : Nat) : Weight := ratio (min (roundUnits n d) maxUnits) (2 ^ 1074)

/-- `w` is a value of `W` (R13 W3). -/
def hasWeight : WeightArith → Weight → Bool
  | .exact, w => weightWf w
  | .binary64, w => weightWf w && decide (roundF64 w.num w.den = w)
  | .unnamed k, w =>
    match Config.unnamedArith k with
    | .rational => weightWf w
    | .other has _ _ _ _ _ _ => has w

/-- `w_le` (R13). -/
def wLe : WeightArith → Weight → Weight → Bool
  | .exact, a, b => ratioLe a b
  | .binary64, a, b => ratioLe a b
  | .unnamed k, a, b =>
    match Config.unnamedArith k with
    | .rational => ratioLe a b
    | .other _ le _ _ _ _ _ => le a b

/-- `w_add` (R13). -/
def wAdd : WeightArith → Weight → Weight → Weight
  | .exact, a, b => exactAdd a b
  | .binary64, a, b => roundF64 (exactAdd a b).num (exactAdd a b).den
  | .unnamed k, a, b =>
    match Config.unnamedArith k with
    | .rational => exactAdd a b
    | .other _ _ add _ _ _ _ => add a b

/-- `w_ratio(_, total)` (R202): the rational numbers, or the rounded quotients; under an unnamed instantiation any that
meets R202, `none` exactly where none over its `W` does (`wRatio_eq_none`, log entry 21). -/
def wRatio : WeightArith → Nat → Option (Nat → Weight)
  | .exact, total => some fun c => ratio c total
  | .binary64, total => some fun c => roundF64 c total
  | .unnamed k, total =>
    match Config.unnamedArith k with
    | .rational => some fun c => ratio c total
    | .other _ _ _ _ _ _ quot =>
      match quot total with
      | .apart q _ _ _ => some q
      | .collides q _ _ _ => some q
      | .unmeetable _ => none

/-- Different counts of a text of this length have different weights, as R202 asks: under exact arithmetic always, under
binary64 up to `2^53` symbols and not above `2^53 + 1`, and under an unnamed instantiation unless its own
rounding brings two together (log entry 21, DESIGN CHOICE). -/
def countsApart : WeightArith → Nat → Bool
  | .exact, _ => true
  | .binary64, total => decide (total ≤ 2 ^ 53)
  | .unnamed k, total =>
    match Config.unnamedArith k with
    | .rational => true
    | .other _ _ _ _ _ _ quot =>
      match quot total with
      | .apart _ _ _ _ => true
      | .collides _ _ _ _ => false
      | .unmeetable _ => false

/-- An instantiation meets the laws W1 to W4 of R13. -/
abbrev LawfulArith (A : WeightArith) : Prop := SumLaws (hasWeight A) (wLe A) (wAdd A)

/-- What `q = w_ratio(_, total)` is by R202: the value of `W` that stands for `count / total`, lawful, and where
`countsApart` says so different for different counts. -/
abbrev MeetsR202 (A : WeightArith) (total : Nat) (q : Nat → Weight) : Prop :=
  ∃ val, RealOrder (hasWeight A) (wLe A) val ∧ QuotLaws (hasWeight A) (wLe A) val total q ∧
    RoundedQuot (hasWeight A) val total q ∧ (countsApart A total = true → Different (wLe A) total q)

end Sys2Proof.Machine
end

