-- ==== Sys2Proof/Machine/Operands.lean ====
section
/-! DEFINITION. The operand forms: the entry list and its contract (R111), the bitstring and its validation (R161), the
capacity of a request (R14). -/

namespace Sys2Proof.Machine

/-- `a` may stand right before `b` in an entry list: less weight, or equal weight and less symbol (R111). -/
def entryBefore (A : WeightArith) (a b : Entry) : Bool :=
  wLe A a.w b.w && (!wLe A b.w a.w || decide (a.sym.toNat < b.sym.toNat))

/-- The list is sorted by weight ascending with equal weights in ascending symbol order (R111). -/
def entriesSorted (A : WeightArith) : List Entry → Bool
  | [] => true
  | [_] => true
  | a :: b :: es => entryBefore A a b && entriesSorted A (b :: es)

/-- All symbols of the list are distinct (R111). -/
def symbolsDistinct : List Entry → Bool
  | [] => true
  | a :: es => !(es.any fun e => e.sym == a.sym) && symbolsDistinct es

/-- What is wrong with an entry list apart from its length, `none` when it meets the contract of R111 (log
entry 7: which breach is named first is the model's choice). -/
def contractBreach (A : WeightArith) (es : List Entry) : Option Refusal :=
  if !(es.all fun e => hasWeight A e.w) then some .weightOutsideW
  else if !symbolsDistinct es then some .entryListRepeatsSymbol
  else if !entriesSorted A es then some .entryListUnsorted
  else none

/-- The least index of a character that is neither '0' nor '1' (R163). -/
def firstBadChar (cs : List Byte) : Option Nat := cs.findIdx? fun c => !isBitChar c

/-- The payload of a validated bitstring (R161). -/
def payload (cs : List Byte) : List Bit := cs.map bitOf

/-- A request of so many bits is above `CAP_BITS` (R14; DESIGN CHOICE on when it is looked at, log entry 10). -/
def overCap (p : Params) (nbits : Nat) : Bool :=
  match p.capBits with
  | none => false
  | some c => decide (c < nbits)

end Sys2Proof.Machine
end

