-- ==== Sys2Proof/Machine/Flags.lean ====
section
/-! DEFINITION. The status codes (R34, R93) and the four error causes with what each records (R230 to R234). -/

namespace Sys2Proof.Machine

/-- The 3-bit code of a status (R34). -/
def statusCode : Status → BitVec 3
  | .ok => 0#3
  | .invalidBitstring => 1#3
  | .ioFailure => 2#3
  | .structuralPrecondition => 3#3
  | .illegalCommand => 4#3

/-- The four error causes (R230). -/
inductive Cause where
  /-- A character at index `k` of the packer's operand is neither '0' nor '1' (R231). -/
  | invalidBitstring (k : Nat)
  /-- Source unreadable or sink unwritable (R232). -/
  | ioFailure
  /-- A tree built from fewer than 2 leaves (R233). -/
  | structuralPrecondition
  /-- The command word is illegal (R234). -/
  | illegalCommand (cw : CmdWord)
  deriving DecidableEq, Repr, Inhabited

/-- The status an error cause writes (R231 to R234). -/
def causeStatus : Cause → Status
  | .invalidBitstring _ => .invalidBitstring
  | .ioFailure => .ioFailure
  | .structuralPrecondition => .structuralPrecondition
  | .illegalCommand _ => .illegalCommand

/-- What an error cause writes to `err_info` (R35). -/
def causeInfo : Cause → Nat
  | .invalidBitstring k => k
  | .ioFailure => 0
  | .structuralPrecondition => 0
  | .illegalCommand cw => cw.toNat

end Sys2Proof.Machine
end

