-- ==== Sys2Proof/Machine/Store.lean ====
section
/-! DEFINITION. A record store (R50, R52): the written records by strictly rising index.  A record is read and written
whole; a record that is not listed has no specified contents.  Equal stores are equal lists. -/

namespace Sys2Proof.Machine

/-- The record at index `i`, `none` when nothing has written it (R52 `MemRead`). -/
def storeRead {α : Type} : List (Nat × α) → Nat → Option α
  | [], _ => none
  | (k, v) :: m, i => if k = i then some v else storeRead m i

/-- Replace the whole record at index `i`, keeping the indices strictly rising (R52 `MemWrite`). -/
def storeWrite {α : Type} : List (Nat × α) → Nat → α → List (Nat × α)
  | [], i, v => [(i, v)]
  | (k, u) :: m, i, v =>
    if i < k then (i, v) :: (k, u) :: m
    else if i = k then (i, v) :: m
    else (k, u) :: storeWrite m i v

/-- The indices rise strictly from `lo` on and stay below `bound`. -/
def storeWfFrom {α : Type} (bound : Nat) : Nat → List (Nat × α) → Bool
  | _, [] => true
  | lo, (k, _) :: m => decide (lo ≤ k) && decide (k < bound) && storeWfFrom bound (k + 1) m

/-- The canonical form of a store of `bound` records. -/
def storeWf {α : Type} (bound : Nat) (m : List (Nat × α)) : Bool := storeWfFrom bound 0 m

end Sys2Proof.Machine
end

