-- ==== Sys2Proof/Machine/Ops.lean ====
section
/-! DEFINITION. The shared operations: reading and writing the stores and the queues, ending an operation with `OK`,
raising an error and entering the fault, and reset, the one way out of the fault. -/

namespace Sys2Proof.Machine

/-- `MemRead(NODE, i)` (R52); a record nothing has written holds a free value (U2, R53; log entry 6). -/
def nodeAt (s : State) (i : Nat) : NodeRec := (storeRead s.node i).getD (Config.freeNode s.draws i)

/-- `MemWrite(NODE, i, r)` (R52). -/
def nodeWrite (s : State) (i : Nat) (r : NodeRec) : State := { s with node := storeWrite s.node i r }

/-- The node record of a Leaf (R24, R114). -/
def leafRec (e : Entry) : NodeRec :=
  { kind := .leaf, sym := e.sym, w := e.w, left := Config.noneRef, right := Config.noneRef }

/-- The node record of an Internal node (R24, R118); its `sym` is unspecified (U3). -/
def internalRec (sym : Sym) (w : Weight) (a b : NodeRef) : NodeRec :=
  { kind := .internal, sym := sym, w := w, left := a, right := b }

/-- `enq(source, x)` (R29). -/
def enqSource (s : State) (x : NodeRef) : State := { s with source := s.source ++ [x] }

/-- `enq(target, x)` (R29). -/
def enqTarget (s : State) (x : NodeRef) : State := { s with target := s.target ++ [x] }

/-- The common last line of every operation that succeeds: `status <- OK; err_info <- 0` (R34, R35). -/
def finish (s : State) : State := { s with status := .ok, errInfo := 0 }

/-- The code table after a fault: every record is a free value (R240, U13). -/
def freeTable (d : Nat) : List (Nat × CodeRec) :=
  (List.range Config.maxLeaves).filterMap fun k => (Config.freeEntry d k).map fun r => (k, r)

/-- The fault (R240): the flag is set, and `node`, `nnodes`, `root`, `ct`, the four result registers (R240) and the queues
(R276, U13) become unspecified, that is free values at the next draw (DEDUCED, log entry 14). -/
def enterFault (s : State) : State :=
  { s with
    fault := true
    node := []
    nnodes := Config.freeNnodes s.draws % 512
    root := Config.freeRoot s.draws
    source := Config.freeSource s.draws
    target := Config.freeTarget s.draws
    ct := freeTable s.draws
    byteOut := Config.freeBytes s.draws
    charOut := Config.freeChars s.draws
    nodeOut := .ofRec (Config.freeNodeValid s.draws) (Config.freeNodeOut s.draws)
    lookupOut := .ofRec (Config.freeLookupHit s.draws) (Config.freeCode s.draws)
    draws := s.draws + 1 }

/-- `raise X(info)` (R236): status and `err_info` are written and nothing else, and for `StructuralPrecondition` the
fault is entered in addition (R240). -/
def raise (c : Cause) (s : State) : State :=
  match c with
  | .structuralPrecondition => enterFault { s with status := causeStatus c, errInfo := causeInfo c }
  | _ => { s with status := causeStatus c, errInfo := causeInfo c }

/-- An illegal command word (R91, R234); while `fault = 1` it is not executed either (R241, R244, U14). -/
def execIllegal (cw : CmdWord) (s : State) : Host.Outcome State Fault Refusal :=
  if s.fault then .fault .blockFaulted else .next (raise (.illegalCommand cw) s)

/-- Reset (R260, R262): every piece of state takes the value of the table of R38.  The parameters of the machine and the
host's remaining requests are no state of the block, and the free values drawn before are not drawn again (log entries 2,
3 and 5). -/
def resetBlock (s : State) : State := State.resetWith s.params s.requests s.draws

end Sys2Proof.Machine
end

