-- ==== Sys2Proof/Machine/BitPacker.lean ====
section
/-! DEFINITION. The bit packer BP: `BP_PACK` (R160 to R174). -/

namespace Sys2Proof.Machine

/-- `BP_PACK` (R169): validation of the whole string before anything else is looked at (R162), then the sink (R170); the
bytes appear as a whole or not at all (R164). -/
def execBpPack (s : State) : Host.Outcome State Fault Refusal :=
  if s.fault then .fault .blockFaulted
  else if overCap s.params s.ports.charIn.length then .refused .overCapBits
  else
    match firstBadChar s.ports.charIn with
    | some k => .next (raise (.invalidBitstring k) { s with byteOut := [] })
    | none =>
      if s.ports.sinkOk then
        .next (finish { s with byteOut := tobytes (frame (payload s.ports.charIn)) })
      else .next (raise .ioFailure { s with byteOut := [] })

end Sys2Proof.Machine
end

