-- ==== Sys2Proof/Machine/BitUnpacker.lean ====
section
/-! DEFINITION. The bit unpacker BU: `BU_UNPACK` (R180 to R192). -/

namespace Sys2Proof.Machine

/-- `BU_UNPACK` (R187).  With `src_ok = 0` the bytes are not looked at (R181), so their number is not either. -/
def execBuUnpack (s : State) : Host.Outcome State Fault Refusal :=
  if s.fault then .fault .blockFaulted
  else if s.ports.srcOk then
    if overCap s.params (8 * s.ports.byteIn.length) then .refused .overCapBits
    else .next (finish { s with charOut := (unframe (unbits s.ports.byteIn)).map charOf })
  else .next (raise .ioFailure { s with charOut := [] })

end Sys2Proof.Machine
end

