-- ==== Sys2Proof/Machine/CodeTable.lean ====
section
/-! DEFINITION. The code table deriver CD: `CD_DERIVE` (R140 to R149) and `CD_LOOKUP` (R150, R151). -/

namespace Sys2Proof.Machine

/-- Why a walk has no table to give. -/
inductive WalkStop where
  /-- The walk does not end: the store has a cycle. -/
  | endless
  /-- One symbol labels two leaves (U6). -/
  | duplicate
  deriving DecidableEq, Repr, Inhabited

/-- The code table record of a path (R27, R142). -/
def codeRec (path : List Bit) : CodeRec := { len := BitVec.ofNat 8 path.length, code := path }

/-- `walk(i, path)` (R142) on a table, left before right.  The fuel bounds the depth; a tree of `MAX_NODES` records has
none deeper than that (DESIGN CHOICE, log entry 11). -/
def walk (s : State) : Nat → Nat → List Bit → List (Nat × CodeRec) → Except WalkStop (List (Nat × CodeRec))
  | 0, _, _, _ => .error .endless
  | fuel + 1, i, path, table =>
    match (nodeAt s i).kind with
    | .leaf =>
      match storeRead table (nodeAt s i).sym.toNat with
      | some _ => .error .duplicate
      | none => .ok (storeWrite table (nodeAt s i).sym.toNat (codeRec path))
    | .internal =>
      match walk s fuel (nodeAt s i).left.toNat (path ++ [false]) table with
      | .error e => .error e
      | .ok table1 => walk s fuel (nodeAt s i).right.toNat (path ++ [true]) table1

/-- The table of the current tree: every entry removed (R141), then the walk from the root, or nothing when the tree is
empty (R144). -/
def deriveTable (s : State) : Except WalkStop (List (Nat × CodeRec)) :=
  if s.root = Config.noneRef then .ok [] else walk s Config.maxNodes s.root.toNat [] []

/-- `CD_DERIVE` (R142). -/
def execCdDerive (s : State) : Host.Outcome State Fault Refusal :=
  if s.fault then .fault .blockFaulted
  else
    match deriveTable s with
    | .ok table => .next (finish { s with ct := table })
    | .error .endless => .fault .walkDoesNotEnd
    | .error .duplicate => .refused .duplicateLeafSymbol

/-- `CD_LOOKUP sym` (R150). -/
def execCdLookup (sym : Nat) (s : State) : Host.Outcome State Fault Refusal :=
  if s.fault then .fault .blockFaulted
  else
    match storeRead s.ct sym with
    | some r => .next (finish { s with lookupOut := .ofRec true r })
    | none => .next (finish { s with lookupOut := .ofRec false (Config.freeCode s.draws), draws := s.draws + 1 })

end Sys2Proof.Machine
end

