-- ==== Sys2Proof/Machine/TreeBuilder.lean ====
section
/-! DEFINITION. The tree builder TB: `TB_BUILD` (R110 to R129) and `TB_NODE` (R130, R131). -/

namespace Sys2Proof.Machine

/-- Start: the previous tree is discarded (R113); what the records then hold is unspecified (U2; DEDUCED,
log entry 13). -/
def startBuild (s : State) : State :=
  { s with node := [], nnodes := 0, root := Config.noneRef, source := [], target := [] }

/-- Initialisation, one entry: its Leaf is the next record and is enqueued on `source` (R114). -/
def loadLeaf (s : State) (e : Entry) : State :=
  let s1 := enqSource (nodeWrite s s.nnodes (leafRec e)) (BitVec.ofNat 9 s.nnodes)
  { s1 with nnodes := s.nnodes + 1 }

/-- Initialisation: one Leaf per entry, in list order (R114). -/
def loadLeaves (s : State) (es : List Entry) : State := es.foldl loadLeaf s

/-- The weight of a queued node. -/
def refWeight (s : State) (r : NodeRef) : Weight := (nodeAt s r.toNat).w

/-- `select()` (R115, R116): the lighter of the two fronts leaves its queue, `source` winning ties; `none` when both
queues are empty. -/
def select (s : State) : Option (NodeRef × State) :=
  match s.source, s.target with
  | [], [] => none
  | a :: src, [] => some (a, { s with source := src })
  | [], b :: tgt => some (b, { s with target := tgt })
  | a :: src, b :: tgt =>
    if wLe s.params.arith (refWeight s a) (refWeight s b) then some (a, { s with source := src })
    else some (b, { s with target := tgt })

/-- Make the Internal node of two selected nodes, the first-selected left, and enqueue it on `target` (R117, R118).
Its `sym` is drawn here, once (U3; DEDUCED, log entry 19). -/
def mergeNodes (s : State) (a b : NodeRef) : State :=
  let w := wAdd s.params.arith (refWeight s a) (refWeight s b)
  let s1 := nodeWrite s s.nnodes (internalRec (Config.freeSym s.draws) w a b)
  let s2 := enqTarget s1 (BitVec.ofNat 9 s.nnodes)
  { s2 with nnodes := s.nnodes + 1, draws := s.draws + 1 }

/-- `merge_step()` (R117): two selections, then the new node; `none` when a selection finds both queues empty. -/
def mergeStep (s : State) : Option State :=
  match select s with
  | none => none
  | some (a, s1) =>
    match select s1 with
    | none => none
    | some (b, s2) => some (mergeNodes s2 a b)

/-- The loop of R119, run with as much fuel as nodes are queued: a merge step leaves one node fewer (R122), so the loop
without fuel, at no queued node, is the selection that finds nothing (R115). -/
def mergeLoop : Nat → State → Option State
  | 0, _ => none
  | fuel + 1, s =>
    if s.source.isEmpty && s.target.length == 1 then some s
    else
      match mergeStep s with
      | none => none
      | some s' => mergeLoop fuel s'

/-- `root <- deq(target)` (R119). -/
def takeRoot (s : State) : State :=
  match s.target with
  | [] => s
  | r :: rest => { s with root := r, target := rest }

/-- `TB_BUILD` (R119).  Fewer than 2 entries fault (R112); a list that breaks the contract otherwise is refused (R111). -/
def execTbBuild (s : State) : Host.Outcome State Fault Refusal :=
  if s.fault then .fault .blockFaulted
  else if s.ports.entryIn.length < Config.minLeaves then .next (raise .structuralPrecondition s)
  else
    match contractBreach s.params.arith s.ports.entryIn with
    | some why => .refused why
    | none =>
      match mergeLoop s.ports.entryIn.length (loadLeaves (startBuild s) s.ports.entryIn) with
      | none => .next (raise .structuralPrecondition s)
      | some t => .next (finish (takeRoot t))

/-- `TB_NODE idx` (R130). -/
def execTbNode (idx : Nat) (s : State) : Host.Outcome State Fault Refusal :=
  if s.fault then .fault .blockFaulted
  else if idx < s.nnodes then .next (finish { s with nodeOut := .ofRec true (nodeAt s idx) })
  else
    .next (finish { s with nodeOut := .ofRec false (Config.freeNodeOut s.draws), draws := s.draws + 1 })

end Sys2Proof.Machine
end

