-- ==== Sys2Proof/Machine/Dispatch.lean ====
section
/-! DEFINITION. One arm per operation of the opcode table (R90). -/

namespace Sys2Proof.Machine

def exec (i : Instr) (s : State) : Host.Outcome State Fault Refusal :=
  match i with
  | .tbBuild => Sys2Proof.Machine.execTbBuild s
  | .tbNode idx => Sys2Proof.Machine.execTbNode idx s
  | .cdDerive => Sys2Proof.Machine.execCdDerive s
  | .cdLookup sym => Sys2Proof.Machine.execCdLookup sym s
  | .bpPack => Sys2Proof.Machine.execBpPack s
  | .buUnpack => Sys2Proof.Machine.execBuUnpack s

end Sys2Proof.Machine
end

