-- ==== Sys2Proof/Machine/Issue.lean ====
section
/-! DEFINITION. Issuing one command (R64, R87): its operands are presented, its word is decoded, and the operation runs
to completion as one transition. -/

namespace Sys2Proof.Machine

/-- The operand streams of a command, fixed when its operation starts (R55). -/
def present (s : State) (o : Operands) : State := { s with ports := o }

/-- One command, to completion (R64): the decoded operation, or the report of an illegal word (R91). -/
def runCommand (c : Command) (s : State) : Host.Outcome State Fault Refusal :=
  match decode c.cw with
  | .ok i => exec i (present s c.operands)
  | .error _ => execIllegal c.cw (present s c.operands)

/-- One request of the host: a command, or reset, which during an operation abandons it with none of its effects left
(R262). -/
def serve (r : Request) (s : State) : Host.Outcome State Fault Refusal :=
  match r with
  | .command c => runCommand c s
  | .reset => .next (resetBlock s)
  | .resetDuring _ => .next (resetBlock s)

/-- The request takes its place at the front of the queue: it is the next one served. -/
def pushRequest (s : State) (r : Request) : State := { s with requests := r :: s.requests }

/-- The front request leaves the queue. -/
def popRequest (s : State) (rest : List Request) : State := { s with requests := rest }

/-- The requests after the first reset, `none` when no reset is to come. -/
def afterReset : List Request → Option (List Request)
  | [] => none
  | .command _ :: rs => afterReset rs
  | .reset :: rs => some rs
  | .resetDuring _ :: rs => some rs

/-- In the fault there is "no step until reset" (U14): the reset is what is served next, the commands before it are not
executed (R241), and with no reset to come the block is stuck (DEDUCED, log entry 1). -/
def serveInFault (s : State) : Host.Outcome State Fault Refusal :=
  match afterReset s.requests with
  | none => .fault .blockFaulted
  | some rest => .next (resetBlock (popRequest s rest))

end Sys2Proof.Machine
end

