-- ==== Sys2Proof/Machine/Step.lean ====
section
/-! DEFINITION. One step: the host's next request is served.  The block has no program counter and fetches no
instructions (R41); with no request it is idle (R263). -/

namespace Sys2Proof.Machine

/-- One step (R64, R65): the first request of the queue, to completion; nothing happens when there is none (R263;
DEDUCED, log entry 16).  In the fault only a reset is served (R241, U14). -/
def step (s : State) : Host.Outcome State Fault Refusal :=
  if s.fault then serveInFault s
  else
    match s.requests with
    | [] => .next s
    | r :: rest => serve r (popRequest s rest)

/-- The next request is the command of word `w`, issued with the operands the host presents now (DESIGN CHOICE, log
entry 2). -/
def State.withFetchWord (s : State) (nbits w : Nat) : State :=
  pushRequest s (.command { cw := BitVec.ofNat 16 (w % 2 ^ nbits), operands := s.ports })

end Sys2Proof.Machine
end

