-- ==== Sys2Proof/Machine/HostSide.lean ====
section
/-! DEFINITION. The host's side of the contract (R5): HUF's FrequencyTable and Codec as the pseudo-operations `FREQ`,
`ENCODE` and `DECODE` (R100, R200 to R220).  They are no operations of the block; they act on it only by issuing
commands and reading its registers (log entry 17). -/

namespace Sys2Proof.Machine

/-- How a pseudo-operation ends. -/
inductive HostResult (α : Type) where
  /-- It has a result, and the block is in the state given. -/
  | done (value : α) (s : State)
  /-- An operation of the block reported an error (R237); nothing is emitted. -/
  | reported (why : Status) (s : State)
  /-- `DECODE` with the empty tree: a programming-contract violation, no result (R216, U12); the block is in the state
  given. -/
  | violation (s : State)
  /-- HUF gives the input no meaning (R205, R211, R216, R217; U7 to U10). -/
  | noMeaning
  /-- The block is in the fault or refused a command, so there is nothing to read (R276). -/
  | stopped
  deriving DecidableEq, Repr

/-- Issue one command and read the block: `none` when it stopped or is in the fault. -/
def issue (i : Instr) (o : Operands) (s : State) : Option State :=
  match runCommand { cw := encode i, operands := o } s with
  | .next t => if t.fault then none else some t
  | .fault _ => none
  | .refused _ => none

/-- `count[s]` (R201). -/
def countOf (text : List Sym) (k : Nat) : Nat := text.count (BitVec.ofNat 8 k)

/-- The symbol values that occur, ascending (R201). -/
def occurring (text : List Sym) : List Nat :=
  (List.range Config.maxLeaves).filter fun k => decide (countOf text k ≠ 0)

/-- The entry of an occurring symbol, `q` the host's quotient for the text's length (R202). -/
def realEntry (q : Nat → Weight) (text : List Sym) (k : Nat) : Entry :=
  { sym := BitVec.ofNat 8 k, w := q (countOf text k) }

/-- The synthetic entry beside the only symbol `k`: the next symbol, with the weight of no occurrence, which is 0 (R204). -/
def syntheticEntry (q : Nat → Weight) (k : Nat) : Entry := { sym := BitVec.ofNat 8 ((k + 1) % 256), w := q 0 }

/-- Insert an entry where the order of R203 puts it. -/
def insertEntry (A : WeightArith) (e : Entry) : List Entry → List Entry
  | [] => [e]
  | a :: es => if entryBefore A e a then e :: a :: es else a :: insertEntry A e es

/-- Sort by weight ascending, equal weights by ascending symbol (R203). -/
def sortEntries (A : WeightArith) (es : List Entry) : List Entry := es.foldr (insertEntry A) []

/-- `FREQ T` (R200 to R205): `none` for the empty text (U7), and where the host has no quotient that meets R202 (log
entry 21); one distinct symbol gets the synthetic entry first (R204, decision D20; log entry 20). -/
def freq (A : WeightArith) (text : List Sym) : Option (List Entry) :=
  match wRatio A text.length with
  | none => none
  | some q =>
    match occurring text with
    | [] => none
    | [k] => some [syntheticEntry q k, realEntry q text k]
    | ks => some (sortEntries A (ks.map (realEntry q text)))

/-- The loop of `ENCODE` (R210): one `CD_LOOKUP` per symbol, the codes appended as characters. -/
def encodeChars : List Sym → List Byte → State → HostResult (List Byte)
  | [], cs, s => .done cs s
  | x :: text, cs, s =>
    match issue (.cdLookup x.toNat) s.ports s with
    | none => .stopped
    | some t =>
      if t.lookupOut.hit then encodeChars text (cs ++ t.lookupOut.code.map charOf) t else .noMeaning

/-- `ENCODE T` (R210), with the sink as given. -/
def encodeText (text : List Sym) (sinkOk : Bool) (s : State) : HostResult (List Byte) :=
  match encodeChars text [] s with
  | .done cs t =>
    match issue .bpPack { t.ports with charIn := cs, sinkOk := sinkOk } t with
    | none => .stopped
    | some u => if u.status = .ok then .done u.byteOut u else .reported u.status u
  | r => r

/-- A node record in use, read through `TB_NODE` (R214). -/
def readNode (r : NodeRef) (s : State) : Option (NodeOut × State) :=
  match issue (.tbNode r.toNat) s.ports s with
  | none => none
  | some t => if t.nodeOut.valid then some (t.nodeOut, t) else none

/-- The walk of `DECODE` (R214, R215, R217): `pos` is the host's walk position (R33). -/
def decodeWalk : List Byte → NodeRef → List Sym → State → HostResult (List Sym)
  | [], pos, out, s => if pos = s.root then .done out s else .noMeaning
  | c :: cs, pos, out, s =>
    match readNode pos s with
    | none => .stopped
    | some (r, s1) =>
      match readNode (if c = charZero then r.left else r.right) s1 with
      | none => .stopped
      | some (q, s2) =>
        match q.kind with
        | .leaf => decodeWalk cs s2.root (out ++ [q.sym]) s2
        | .internal => decodeWalk cs (if c = charZero then r.left else r.right) out s2

/-- `DECODE Y` (R214, R216), with the source as given. -/
def decodeText (bytes : List Byte) (srcOk : Bool) (s : State) : HostResult (List Sym) :=
  match issue .buUnpack { s.ports with byteIn := bytes, srcOk := srcOk } s with
  | none => .stopped
  | some t =>
    if t.status ≠ .ok then .reported t.status t
    else if t.root = Config.noneRef then .violation t
    else
      match readNode t.root t with
      | none => .stopped
      | some (r, u) =>
        match r.kind with
        | .leaf => .noMeaning
        | .internal => decodeWalk u.charOut u.root [] u

/-- `FREQ T`; `TB_BUILD`; `CD_DERIVE`: the tree and the table of a text (R100). -/
def prepare (text : List Sym) (s : State) : Option State :=
  match freq s.params.arith text with
  | none => none
  | some es =>
    match issue .tbBuild { s.ports with entryIn := es } s with
    | none => none
    | some t => issue .cdDerive t.ports t

/-- The full pipeline (R100, R218): prepare, `ENCODE T`, `DECODE` of what the packer wrote. -/
def pipeline (text : List Sym) (s : State) : HostResult (List Sym) :=
  match prepare text s with
  | none => .stopped
  | some t =>
    match encodeText text true t with
    | .done bytes u => decodeText bytes true u
    | .reported why u => .reported why u
    | .violation u => .violation u
    | .noMeaning => .noMeaning
    | .stopped => .stopped

end Sys2Proof.Machine
end

