-- ==== Sys2Proof/Machine/Tree.lean ====
section
/-! DEFINITION. The abstract tree (R21), the abstraction of the node store (R25) and code derivation on abstract trees
(R142). -/

namespace Sys2Proof.Machine

/-- A tree that is not `Empty`, which "occurs only as the whole tree, never as a child" (R21); an Internal node carries
no symbol. -/
inductive Tree where
  | leaf (sym : Sym) (w : Weight)
  | node (left right : Tree) (w : Weight)
  deriving DecidableEq, Repr, Inhabited

/-- What `Abs(root)` (R25) can be: `Empty`, a tree, or nothing R25 defines: a reference that is neither `NONE` nor
below `nnodes`, or a cycle. -/
inductive AbsTree where
  | empty
  | tree (t : Tree)
  | undefined
  deriving DecidableEq, Repr, Inhabited

/-- `Abs(i)` for `i < nnodes` (R25), down to a depth; `none` when the records give no tree of that depth. -/
def absAt (s : State) : Nat → Nat → Option Tree
  | 0, _ => none
  | fuel + 1, i =>
    if i < s.nnodes then
      match (nodeAt s i).kind with
      | .leaf => some (.leaf (nodeAt s i).sym (nodeAt s i).w)
      | .internal =>
        match absAt s fuel (nodeAt s i).left.toNat, absAt s fuel (nodeAt s i).right.toNat with
        | some l, some r => some (.node l r (nodeAt s i).w)
        | _, _ => none
    else none

/-- `Abs(root)`, the architectural tree (R25).  A tree in `MAX_NODES` records has no greater depth. -/
def absTree (s : State) : AbsTree :=
  if s.root = Config.noneRef then .empty
  else
    match absAt s Config.maxNodes s.root.toNat with
    | some t => .tree t
    | none => .undefined

/-- The leaves of a tree as entries, left to right (R120). -/
def treeLeaves : Tree → List Entry
  | .leaf sym w => [{ sym := sym, w := w }]
  | .node l r _ => treeLeaves l ++ treeLeaves r

/-- `go(t, p)` (R142): the symbols of a tree with their paths, left to right. -/
def treeCodes : Tree → List Bit → List (Sym × List Bit)
  | .leaf sym _, p => [(sym, p)]
  | .node l r _, p => treeCodes l (p ++ [false]) ++ treeCodes r (p ++ [true])

/-- `derive` (R142, R144): the codes of the abstract tree, none for `Empty`. -/
def deriveCodes : AbsTree → Option (List (Sym × List Bit))
  | .empty => some []
  | .tree t => some (treeCodes t [])
  | .undefined => none

end Sys2Proof.Machine
end

