-- ==== Sys2Proof/Safety.lean ====
section
/-! DEFINITION. The terms claims are stated in: the canonical stores, the shape of a store `TB_BUILD` wrote (R124), the
invariant of the machine, and the states between merge steps (R123). -/

namespace Sys2Proof.Machine

/-- The leaves a store of `nnodes` records has (R120: `nnodes = 2n - 1`). -/
def leafCount (s : State) : Nat := (s.nnodes + 1) / 2

/-- All `left` and `right` fields of the Internal records of a store. -/
def childRefs (m : List (Nat × NodeRec)) : List Nat :=
  m.flatMap fun p =>
    match p.2.kind with
    | .leaf => []
    | .internal => [p.2.left.toNat, p.2.right.toNat]

/-- A Leaf record as R24 and R114 have it. -/
abbrev LeafOk (r : NodeRec) : Prop := r.kind = .leaf ∧ r.left = Config.noneRef ∧ r.right = Config.noneRef

/-- The Internal record `k` as R118 and R124 have it: children below `k`, weight the sum of theirs, left first (R22). -/
abbrev InternalOk (s : State) (k : Nat) (r : NodeRec) : Prop :=
  r.kind = .internal ∧ r.left.toNat < k ∧ r.right.toNat < k ∧
    r.w = wAdd s.params.arith (refWeight s r.left) (refWeight s r.right)

/-- The store holds the tree of `n` leaves (R120, R124). -/
abbrev StoreOk (s : State) (n : Nat) : Prop :=
  Config.minLeaves ≤ n ∧ n ≤ Config.maxLeaves ∧ s.nnodes = 2 * n - 1 ∧ s.root.toNat = 2 * n - 2 ∧
  s.node.map (·.1) = List.range (2 * n - 1) ∧
  (∀ p ∈ s.node, p.1 < n → LeafOk p.2) ∧
  (∀ p ∈ s.node, n ≤ p.1 → InternalOk s p.1 p.2) ∧
  (∀ i < 2 * n - 2, (childRefs s.node).count i = 1) ∧
  (childRefs s.node).count (2 * n - 2) = 0 ∧
  ((s.node.take n).map (·.2.sym)).Nodup

/-- No tree has been built (R38), or the store holds one (R124). -/
abbrev TreeOk (s : State) : Prop :=
  (s.nnodes = 0 ∧ s.root = Config.noneRef ∧ s.node = []) ∨ StoreOk s (leafCount s)

/-- A code table record: `code` is a sequence of `len` bits (R27). -/
abbrev CodeOk (r : CodeRec) : Prop := r.len.toNat = r.code.length

/-- What the status and result registers hold while there is no fault: `status` and `err_info` agree (R35), `char_out`
holds bit characters only (R37), byte 0 of a packed stream is not 0x00 (R77), a hit has its length (R27). -/
abbrev ResultsOk (s : State) : Prop :=
  s.status ≠ .structuralPrecondition ∧ (s.status = .ok ∨ s.status = .ioFailure → s.errInfo = 0) ∧
  (∀ c ∈ s.charOut, isBitChar c = true) ∧ s.byteOut.head? ≠ some 0#8 ∧
  (s.lookupOut.hit = true → s.lookupOut.len.toNat = s.lookupOut.code.length)

/-- The invariant: both stores canonical, the status that of the fault while there is one (R240, R241), and otherwise the
queues empty between operations (R30, R46) and the tree, the table and the results as the rules leave them. -/
abbrev Inv (s : State) : Prop :=
  storeWf Config.maxNodes s.node = true ∧ storeWf Config.maxLeaves s.ct = true ∧
  s.nnodes ≤ Config.maxNodes ∧
  (s.fault = true → s.status = .structuralPrecondition ∧ s.errInfo = 0) ∧
  (s.fault = false → s.source = [] ∧ s.target = [] ∧ TreeOk s ∧ (∀ p ∈ s.ct, CodeOk p.2) ∧ ResultsOk s)

/-- A safe state: the invariant holds and the block is not in the fault. -/
abbrev Safe (s : State) : Prop := Inv s ∧ s.fault = false

/-- The contract of R111 on an entry list apart from its length: every weight a value of `W`, every symbol named once,
sorted by weight ascending with equal weights in ascending symbol order. -/
abbrev EntryContract (A : WeightArith) (es : List Entry) : Prop :=
  (∀ e ∈ es, hasWeight A e.w = true) ∧ (es.map (·.sym)).Nodup ∧
  es.IsChain fun a b => wLe A a.w b.w = true ∧ (wLe A b.w a.w = true → a.sym.toNat < b.sym.toNat)

/-- The operand of `TB_BUILD` meets the whole contract (R111): length 2 or more, and `EntryContract`. -/
abbrev ContractOk (s : State) : Prop :=
  Config.minLeaves ≤ s.ports.entryIn.length ∧ EntryContract s.params.arith s.ports.entryIn

/-- A command word is illegal (R91), on the fields of R87 read off as numbers. -/
abbrev IllegalWord (cw : CmdWord) : Prop :=
  cw.toNat / 4096 = 0 ∨ 7 ≤ cw.toNat / 4096 ∨ cw.toNat / 512 % 8 ≠ 0 ∨
  ((cw.toNat / 4096 = 1 ∨ cw.toNat / 4096 = 3 ∨ cw.toNat / 4096 = 5 ∨ cw.toNat / 4096 = 6) ∧ cw.toNat % 512 ≠ 0) ∨
  (cw.toNat / 4096 = 4 ∧ cw.toNat / 256 % 2 = 1)

/-- Every character of a bitstring is '0' or '1' (R161). -/
abbrev BitChars (cs : List Byte) : Prop := ∀ c ∈ cs, c = charZero ∨ c = charOne

/-- A request of so many bits is within `CAP_BITS` (R14). -/
abbrev WithinCap (s : State) (nbits : Nat) : Prop := ∀ c, s.params.capBits = some c → nbits ≤ c

/-- The tree state is the same: every record reads as before, and so do `nnodes`, `root` and the queues. -/
abbrev SameTree (s t : State) : Prop :=
  (∀ i, storeRead t.node i = storeRead s.node i) ∧ t.nnodes = s.nnodes ∧ t.root = s.root ∧
  t.source = s.source ∧ t.target = s.target

/-- Every code table record reads as before. -/
abbrev SameTable (s t : State) : Prop := ∀ i, storeRead t.ct i = storeRead s.ct i

/-- The host's side and the machine's parameters are the same. -/
abbrev SameHost (s t : State) : Prop := t.ports = s.ports ∧ t.requests = s.requests ∧ t.params = s.params

/-- The operation ended with `OK` and without a fault (R34, R35). -/
abbrev EndsOk (t : State) : Prop := t.status = .ok ∧ t.errInfo = 0 ∧ t.fault = false

/-- The state in which the loop of R119 starts: the old tree gone (R113), the leaves loaded (R114). -/
def loaded (s : State) : State := loadLeaves (startBuild s) s.ports.entryIn

/-- The state after `j` merge steps (R117), `none` when a selection found nothing. -/
def afterMerges : Nat → State → Option State
  | 0, s => some s
  | j + 1, s =>
    match mergeStep s with
    | none => none
    | some t => afterMerges j t

/-- A queue is sorted by weight ascending (R123). -/
abbrev QueueSorted (s : State) (q : List NodeRef) : Prop :=
  q.Pairwise fun a b => wLe s.params.arith (refWeight s a) (refWeight s b) = true

/-- The code of a symbol in a code table (R26). -/
def codeOf (m : List (Nat × CodeRec)) (sym : Nat) : Option (List Bit) := (storeRead m sym).map (·.code)

/-- No code of a code table is a prefix of the code of another symbol (R147). -/
abbrev PrefixFree (m : List (Nat × CodeRec)) : Prop :=
  ∀ x y cx cy, codeOf m x = some cx → codeOf m y = some cy → x ≠ y → ¬ cx <+: cy

end Sys2Proof.Machine
end

