-- ==== Sys2Proof/Certificates/Slice0/Obligations.lean ====
section
/-! DEFINITION. What is claimed of HUFFCORE: the rules of spec/ as statements about the machine. -/

open Sys2Proof Sys2Proof.Machine

/-! ## Command words -/

/-- Decode and encode agree on every operation and every immediate (R87, R88, R90). -/
def Obligations.DecodeOfEncodeIsTheInstruction : Prop :=
  ∀ i : Instr, i.wellFormed = true → decode (encode i) = .ok i

/-- A legal word has one meaning and is the word of its operation, so no bit of it is dropped (R87, R91). -/
def Obligations.LegalWordIsEncodingOfItsInstruction : Prop :=
  ∀ (cw : CmdWord) (i : Instr), decode cw = .ok i → i.wellFormed = true ∧ encode i = cw

/-- The operation map of R90, word for word. -/
def Obligations.OperationMapWords : Prop :=
  ∀ cw : CmdWord,
    (decode cw = .ok .tbBuild ↔ cw = 0x1000#16) ∧
    (∀ idx, decode cw = .ok (.tbNode idx) ↔ idx < 512 ∧ cw.toNat = 0x2000 + idx) ∧
    (decode cw = .ok .cdDerive ↔ cw = 0x3000#16) ∧
    (∀ sym, decode cw = .ok (.cdLookup sym) ↔ sym < 256 ∧ cw.toNat = 0x4000 + sym) ∧
    (decode cw = .ok .bpPack ↔ cw = 0x5000#16) ∧
    (decode cw = .ok .buUnpack ↔ cw = 0x6000#16)

/-- R91: exactly the listed words are illegal, and an illegal word writes `status` and `err_info` and nothing else. -/
def Obligations.IllegalWordsOnlyReport : Prop :=
  (∀ cw : CmdWord, IllegalWord cw ↔ ∃ e, decode cw = .error e) ∧
  IllegalWord 0x0000#16 ∧ IllegalWord 0xFFFF#16 ∧
  ∀ (s : State) (cw : CmdWord) (o : Operands) (rest : List Request),
    IllegalWord cw → s.fault = false → s.requests = .command { cw := cw, operands := o } :: rest →
    step s = .next { s with ports := o, requests := rest, status := .illegalCommand, errInfo := cw.toNat }

/-- Words of 95_test_vectors.md section 2.6. -/
def Obligations.SampleWordsDecode : Prop :=
  decode 0x1000#16 = .ok .tbBuild ∧ decode 0x2005#16 = .ok (.tbNode 5) ∧ decode 0x21FF#16 = .ok (.tbNode 511) ∧
  decode 0x3000#16 = .ok .cdDerive ∧ decode 0x4061#16 = .ok (.cdLookup 0x61) ∧ decode 0x5000#16 = .ok .bpPack ∧
  decode 0x6000#16 = .ok .buUnpack ∧ decode 0x7000#16 = .error .illegalOp ∧ decode 0x1200#16 = .error .zNotZero ∧
  decode 0x1001#16 = .error .argNotZero ∧ decode 0x4100#16 = .error .lookupArgBit8

/-! ## Steps, reset and the fault -/

/-- Outside the fault (for which see `FaultStopsEveryCommand`) a step takes the first request; a command's operands are
presented and its decoded operation is what runs (R64, R87; the queue of requests is the model's, log entry 2). -/
def Obligations.StepRunsTheDecodedCommand : Prop :=
  ∀ (s : State) (c : Command) (rest : List Request) (i : Instr),
    s.fault = false → s.requests = .command c :: rest → decode c.cw = .ok i →
    step s = exec i { s with ports := c.operands, requests := rest }

/-- Outside the fault, with no request the block waits and nothing changes (R263; an idle step is the model's, log
entry 16). -/
def Obligations.StepWithoutRequestChangesNothing : Prop :=
  ∀ s : State, s.fault = false → s.requests = [] → step s = .next s

/-- R260, R262: reset, also during an operation and also in the fault, gives every piece of state the value of the table
of R38.  That the host's later requests and the machine's parameters stand in the state and stay (the last two clauses)
is the model's choice, log entries 2 and 3 (DESIGN CHOICE). -/
def Obligations.ResetGivesTheResetState : Prop :=
  ∀ (s : State) (r : Request) (rest : List Request),
    s.requests = r :: rest → (r = .reset ∨ ∃ c, r = .resetDuring c) →
    ∃ t, step s = .next t ∧ t.nnodes = 0 ∧ t.root = 0x1FF#9 ∧ t.source = [] ∧ t.target = [] ∧
      (∀ k, storeRead t.ct k = none) ∧ statusCode t.status = 0#3 ∧ t.errInfo = 0 ∧ t.fault = false ∧
      t.byteOut = [] ∧ t.charOut = [] ∧ t.nodeOut.valid = false ∧ t.lookupOut.hit = false ∧
      t.requests = rest ∧ t.params = s.params

/-- The same values stand in the state the machine starts in (R38), where the tree is `Empty` (R39). -/
def Obligations.ResetStateHoldsTheResetValues : Prop :=
  State.reset.nnodes = 0 ∧ State.reset.root = 0x1FF#9 ∧ absTree State.reset = .empty ∧ State.reset.source = [] ∧
  State.reset.target = [] ∧ (∀ k, storeRead State.reset.ct k = none) ∧ statusCode State.reset.status = 0#3 ∧
  State.reset.errInfo = 0 ∧ State.reset.fault = false ∧ State.reset.byteOut = [] ∧ State.reset.charOut = [] ∧
  State.reset.nodeOut.valid = false ∧ State.reset.lookupOut.hit = false

/-- R241, U14: while `fault = 1` no operation and no illegal word is executed; with no reset to come there is no step; the
first reset to come is served, over the commands issued before it, and gives the reset state; and no other step leaves
the fault.  The model's and not the spec's: that the commands before a reset leave the queue with it (log entries 1 and 2);
and, in the reset state of the fourth clause, that the parameters stay (log entry 3), the ports are idle (log entry 4),
the counter of free values goes on by one (log entry 5) and the fields R38 calls unspecified are free values at that draw
(log entry 6). -/
def Obligations.FaultStopsEveryCommand : Prop :=
  (∀ (s : State) (i : Instr), s.fault = true → exec i s = .fault .blockFaulted) ∧
  (∀ (s : State) (cw : CmdWord), s.fault = true → execIllegal cw s = .fault .blockFaulted) ∧
  (∀ s : State, s.fault = true → (∀ r ∈ s.requests, ∃ c, r = .command c) → step s = .fault .blockFaulted) ∧
  (∀ (s : State) (cs : List Command) (r : Request) (rest : List Request), s.fault = true →
    s.requests = cs.map .command ++ r :: rest → (r = .reset ∨ ∃ c, r = .resetDuring c) →
    step s = .next (.resetWith s.params rest s.draws)) ∧
  (∀ s t : State, step s = .next t → s.fault = true → t.fault = false ∧
    ∃ (cs : List Command) (r : Request) (rest : List Request),
      s.requests = cs.map .command ++ r :: rest ∧ (r = .reset ∨ ∃ c, r = .resetDuring c))

/-- R233: the fault is raised only by `TB_BUILD` with fewer than 2 entries, whatever the arithmetic. -/
def Obligations.OnlyShortTbBuildSetsTheFault : Prop :=
  ∀ s t : State, step s = .next t → s.fault = false → t.fault = true →
    ∃ o rest, s.requests = .command { cw := 0x1000#16, operands := o } :: rest ∧ o.entryIn.length < 2

/-- R170, R244: the fault check comes first, for every operation and every illegal word; then `BP_PACK` reports a bad
character, whatever the sink, and a failed sink only for a valid string.  That a command in the fault is a stop of its own
name follows R241 and U14, log entry 1 (DEDUCED). -/
def Obligations.FirstCauseIsTheOneReported : Prop :=
  (∀ (s : State) (i : Instr), s.fault = true → exec i s = .fault .blockFaulted) ∧
  (∀ (s : State) (cw : CmdWord), s.fault = true → execIllegal cw s = .fault .blockFaulted) ∧
  (∀ s : State, s.fault = false → WithinCap s s.ports.charIn.length → ¬ BitChars s.ports.charIn →
    ∃ t, exec .bpPack s = .next t ∧ t.status = .invalidBitstring) ∧
  (∀ s : State, s.fault = false → WithinCap s s.ports.charIn.length → BitChars s.ports.charIn →
    s.ports.sinkOk = false → ∃ t, exec .bpPack s = .next t ∧ t.status = .ioFailure)

/-- The numbers of the status codes (R34). -/
def Obligations.StatusCodesAreNumberedAsGiven : Prop :=
  statusCode .ok = 0#3 ∧ statusCode .invalidBitstring = 1#3 ∧ statusCode .ioFailure = 2#3 ∧
  statusCode .structuralPrecondition = 3#3 ∧ statusCode .illegalCommand = 4#3 ∧
  ∀ st, (statusCode st).toNat ≤ 4

/-- R235: which operation can end with which status, while there is no fault and the request is within the capacity. -/
def Obligations.EachOperationEndsWithItsStatuses : Prop :=
  ∀ (i : Instr) (s t : State), s.fault = false → exec i s = .next t →
    match i with
    | .tbBuild => (t.status = .ok ∧ 2 ≤ s.ports.entryIn.length) ∨
        (t.status = .structuralPrecondition ∧ s.ports.entryIn.length < 2)
    | .tbNode _ => t.status = .ok
    | .cdDerive => t.status = .ok
    | .cdLookup _ => t.status = .ok
    | .bpPack => (t.status = .ok ∧ BitChars s.ports.charIn ∧ s.ports.sinkOk = true) ∨
        (t.status = .invalidBitstring ∧ ¬ BitChars s.ports.charIn) ∨
        (t.status = .ioFailure ∧ BitChars s.ports.charIn ∧ s.ports.sinkOk = false)
    | .buUnpack => (t.status = .ok ∧ s.ports.srcOk = true) ∨ (t.status = .ioFailure ∧ s.ports.srcOk = false)

/-- R238, R239: after a reported error the state is the one before, but for `status`, `err_info` and the emptied result
stream (and the request that was served). -/
def Obligations.ReportedErrorsArePrecise : Prop :=
  ∀ (s t : State) (c : Command) (rest : List Request), s.requests = .command c :: rest → s.fault = false →
    step s = .next t → t.status ≠ .ok → t.status ≠ .structuralPrecondition →
    (t = { s with ports := c.operands, requests := rest, status := t.status, errInfo := t.errInfo } ∧
      t.status = .illegalCommand) ∨
    t = { s with ports := c.operands, requests := rest, status := t.status, errInfo := t.errInfo, byteOut := [] } ∨
    t = { s with ports := c.operands, requests := rest, status := t.status, errInfo := t.errInfo, charOut := [] }

/-! ## The invariant -/

/-- The invariant holds at reset. -/
def Obligations.InvariantHoldsAtReset : Prop := Inv State.reset

/-- Every step keeps the invariant: canonical stores, the store shape of R124 once a tree is built, queues empty between
operations (R46) outside the fault, `status` and `err_info` in agreement (R35), the fault's status while there is one (R241). -/
def Obligations.EveryStepKeepsTheInvariant : Prop :=
  ∀ s t : State, Inv s → step s = .next t → Inv t

/-- R147: every step keeps the code table prefix-free, in every state the invariant allows; and it is at reset. -/
def Obligations.EveryStepKeepsTheTablePrefixFree : Prop :=
  (∀ s t : State, Inv s → (s.fault = false → PrefixFree s.ct) → step s = .next t → t.fault = false → PrefixFree t.ct) ∧
  PrefixFree State.reset.ct

/-! ## The tree builder -/

/-- R112, R240: fewer than 2 entries fault; `status`, `err_info` and `fault` are written as given, and the host's side
stays.  That entering the fault is a next state is the model's reading, log entry 1 (DEDUCED). -/
def Obligations.TbBuildOfShortListFaults : Prop :=
  ∀ s : State, s.fault = false → s.ports.entryIn.length < 2 →
    ∃ t, exec .tbBuild s = .next t ∧ t.fault = true ∧ t.status = .structuralPrecondition ∧ t.errInfo = 0 ∧
      SameHost s t

/-- R111: a list of 2 or more entries is run exactly when it meets the rest of the contract, and is refused otherwise. -/
def Obligations.TbBuildRunsExactlyOnTheContract : Prop :=
  ∀ s : State, s.fault = false → 2 ≤ s.ports.entryIn.length →
    (EntryContract s.params.arith s.ports.entryIn → ∃ t, exec .tbBuild s = .next t) ∧
    (¬ EntryContract s.params.arith s.ports.entryIn → ∃ why, exec .tbBuild s = .refused why)

/-- R120: `TB_BUILD` completes on every list that meets its contract, with `OK`, `2n - 1` records, the last one the root,
the queues empty, and the code table, the result registers and the host's side unchanged (R69). -/
def Obligations.TbBuildCompletes : Prop :=
  ∀ s : State, s.fault = false → ContractOk s →
    ∃ t, exec .tbBuild s = .next t ∧ EndsOk t ∧ t.nnodes = 2 * s.ports.entryIn.length - 1 ∧
      t.root.toNat = 2 * s.ports.entryIn.length - 2 ∧ t.source = [] ∧ t.target = [] ∧ SameTable s t ∧
      t.byteOut = s.byteOut ∧ t.charOut = s.charOut ∧ t.nodeOut = s.nodeOut ∧ t.lookupOut = s.lookupOut ∧
      SameHost s t

/-- R114: the leaf of entry `i` is record `i`, with the entry's symbol and weight and no children. -/
def Obligations.TbBuildKeepsLeavesInListOrder : Prop :=
  ∀ s t : State, s.fault = false → ContractOk s → exec .tbBuild s = .next t →
    ∀ (i : Nat) (h : i < s.ports.entryIn.length),
      storeRead t.node i = some { kind := .leaf, sym := (s.ports.entryIn[i]).sym, w := (s.ports.entryIn[i]).w,
                                  left := 0x1FF#9, right := 0x1FF#9 }

/-- R124, R22: the store after `TB_BUILD` is a strict binary tree with no sharing and no cycle, leaves first, every
Internal record's children below it and its weight the sum of theirs. -/
def Obligations.TbBuildLeavesAStrictTree : Prop :=
  ∀ s t : State, s.fault = false → ContractOk s → exec .tbBuild s = .next t → StoreOk t s.ports.entryIn.length

/-- R120: the tree built is an Internal node whose leaves are exactly the entries, each once. -/
def Obligations.TbBuildTreeHasTheEntriesAsLeaves : Prop :=
  ∀ s t : State, s.fault = false → ContractOk s → exec .tbBuild s = .next t →
    ∃ l r w, absTree t = .tree (.node l r w) ∧ (treeLeaves (.node l r w)).Perm s.ports.entryIn

/-- R122: for `n >= 2` entries exactly `n - 1` merge steps run, and then `source` is empty and `target` holds the root,
whatever the entries weigh. -/
def Obligations.TbBuildRunsOneMergeLessThanEntries : Prop :=
  ∀ s : State, 2 ≤ s.ports.entryIn.length →
    ∃ u r, afterMerges (s.ports.entryIn.length - 1) (loaded s) = some u ∧ u.source = [] ∧ u.target = [r] ∧
      (s.fault = false → EntryContract s.params.arith s.ports.entryIn →
        exec .tbBuild s = .next { u with root := r, target := [], status := .ok, errInfo := 0 })

/-- R115, R116: selection, with `source` winning ties; the selected front leaves its queue and nothing else changes. -/
def Obligations.SelectionFollowsTheTieBreak : Prop :=
  ∀ s : State,
    (s.source = [] → s.target = [] → select s = none) ∧
    (∀ a src, s.source = a :: src → s.target = [] → select s = some (a, { s with source := src })) ∧
    (∀ b tgt, s.source = [] → s.target = b :: tgt → select s = some (b, { s with target := tgt })) ∧
    (∀ a src b tgt, s.source = a :: src → s.target = b :: tgt →
      (wLe s.params.arith (nodeAt s a.toNat).w (nodeAt s b.toNat).w = true → select s = some (a, { s with source := src })) ∧
      (wLe s.params.arith (nodeAt s a.toNat).w (nodeAt s b.toNat).w = false → select s = some (b, { s with target := tgt })))

/-- R117, R118: one merge step writes the next record as the Internal node of the two selected nodes, first-selected
left, enqueues it on `target`, and writes no other record. -/
def Obligations.MergeStepAppendsTheInternalNode : Prop :=
  ∀ (s s1 s2 : State) (a b : NodeRef), select s = some (a, s1) → select s1 = some (b, s2) →
    ∃ t sym, mergeStep s = some t ∧
      storeRead t.node s.nnodes = some
        { kind := .internal, sym := sym, w := wAdd s.params.arith (nodeAt s a.toNat).w (nodeAt s b.toNat).w,
          left := a, right := b } ∧
      (∀ i, i ≠ s.nnodes → storeRead t.node i = storeRead s.node i) ∧
      t.source = s2.source ∧ t.target = s2.target ++ [BitVec.ofNat 9 s.nnodes] ∧ t.nnodes = s.nnodes + 1

/-- R121, R113: the tree is a function of the list and of `WeightArith` and of nothing else. -/
def Obligations.TbBuildDependsOnListAndArithmeticOnly : Prop :=
  ∀ s s' t t' : State, s.fault = false → s'.fault = false → ContractOk s →
    s'.ports.entryIn = s.ports.entryIn → s'.params.arith = s.params.arith →
    exec .tbBuild s = .next t → exec .tbBuild s' = .next t' →
    ∃ tree, absTree t = .tree tree ∧ absTree t' = .tree tree ∧ t'.nnodes = t.nnodes ∧ t'.root = t.root

/-- R123: under the laws W1 to W4 (which every instantiation meets, `lawfulArith`), at every end test both queues are
sorted, and each of the two nodes a merge step
selects is a least-weight node among all nodes then queued. -/
def Obligations.TbBuildQueuesStaySorted : Prop :=
  ∀ (s u : State) (j : Nat), LawfulArith s.params.arith → ContractOk s → afterMerges j (loaded s) = some u →
    QueueSorted u u.source ∧ QueueSorted u u.target ∧
    (∀ a u1, select u = some (a, u1) →
      (∀ x ∈ u.source ++ u.target, wLe s.params.arith (refWeight u a) (refWeight u x) = true) ∧
      (∀ b u2, select u1 = some (b, u2) →
        ∀ x ∈ u1.source ++ u1.target, wLe s.params.arith (refWeight u b) (refWeight u x) = true))

/-- R123: under the laws W1 to W4 the weights of successive Internal nodes never decrease. -/
def Obligations.TbBuildInternalWeightsNeverDecrease : Prop :=
  ∀ s t : State, LawfulArith s.params.arith → s.fault = false → ContractOk s → exec .tbBuild s = .next t →
    ∀ k, s.ports.entryIn.length ≤ k → k + 1 < t.nnodes → wLe s.params.arith (nodeAt t k).w (nodeAt t (k + 1)).w = true

/-- R130: `TB_NODE` reads the record in use, answers `valid = 0` for an index not in use, and changes only its result
register, `status`, `err_info` and, on a miss, the counter of free values (the model's own field, log entry 5).  In the
fault it is not executed (R241); that this is a stop of its own name follows U14, log entry 1 (DEDUCED). -/
def Obligations.TbNodeReadsOneRecord : Prop :=
  ∀ (s : State) (idx : Nat),
    (s.fault = true → exec (.tbNode idx) s = .fault .blockFaulted) ∧
    (s.fault = false → idx < s.nnodes → ∀ r, storeRead s.node idx = some r →
      exec (.tbNode idx) s = .next { s with
        nodeOut := { valid := true, kind := r.kind, sym := r.sym, w := r.w, left := r.left, right := r.right },
        status := .ok, errInfo := 0 }) ∧
    (s.fault = false → s.nnodes ≤ idx →
      ∃ n d, n.valid = false ∧
        exec (.tbNode idx) s = .next { s with nodeOut := n, status := .ok, errInfo := 0, draws := d })

/-- R131: in every state the invariant allows, `TB_NODE` answers for every record in use and misses on `NONE`. -/
def Obligations.TbNodeAnswersForEveryRecordInUse : Prop :=
  ∀ s : State, Safe s →
    (∀ idx, idx < s.nnodes → ∃ r t, storeRead s.node idx = some r ∧ exec (.tbNode idx) s = .next t ∧ EndsOk t ∧
      t.nodeOut.valid = true ∧ t.nodeOut.kind = r.kind ∧ t.nodeOut.left = r.left ∧ t.nodeOut.right = r.right ∧
      (r.kind = .leaf → t.nodeOut.left = 0x1FF#9 ∧ t.nodeOut.right = 0x1FF#9)) ∧
    ∃ t, exec (.tbNode 511) s = .next t ∧ EndsOk t ∧ t.nodeOut.valid = false

/-! ## The code table deriver -/

/-- R144: on the empty tree `CD_DERIVE` leaves an all-empty table and ends `OK`, and changes nothing else. -/
def Obligations.CdDeriveOfEmptyTreeIsEmpty : Prop :=
  ∀ s : State, s.fault = false → s.root = 0x1FF#9 →
    exec .cdDerive s = .next { s with ct := [], status := .ok, errInfo := 0 }

/-- R142, R143: `CD_DERIVE` completes on every tree `TB_BUILD` can leave, and afterwards a symbol has an entry exactly
when it labels a leaf of the tree, its code the path to that leaf and `len` the code's length; nothing else changes. -/
def Obligations.CdDeriveGivesThePathsOfTheTree : Prop :=
  ∀ s : State, Safe s → s.root ≠ 0x1FF#9 →
    ∃ tree codes t, absTree s = .tree tree ∧ deriveCodes (.tree tree) = some codes ∧ exec .cdDerive s = .next t ∧
      EndsOk t ∧ (∀ (x : Sym) (code : List Bit), codeOf t.ct x.toNat = some code ↔ (x, code) ∈ codes) ∧
      (∀ k r, storeRead t.ct k = some r → k < 256 ∧ r.len.toNat = r.code.length) ∧
      SameTree s t ∧ SameHost s t ∧ t.byteOut = s.byteOut ∧ t.charOut = s.charOut ∧ t.nodeOut = s.nodeOut ∧
      t.lookupOut = s.lookupOut

/-- R147: no code in the derived table is a prefix of another code. -/
def Obligations.DerivedCodesArePrefixFree : Prop :=
  ∀ s t : State, Safe s → exec .cdDerive s = .next t →
    ∀ x y cx cy, codeOf t.ct x = some cx → codeOf t.ct y = some cy → x ≠ y → ¬ cx <+: cy

/-- R148: `n` symbols have an entry, every code is 1 to `n - 1` bits long, and the Kraft sum is 1. -/
def Obligations.DerivedCodeLengthsMeetKraft : Prop :=
  ∀ s t : State, Safe s → s.root ≠ 0x1FF#9 → exec .cdDerive s = .next t →
    t.ct.length = leafCount s ∧
    (∀ p ∈ t.ct, 1 ≤ p.2.code.length ∧ p.2.code.length + 1 ≤ leafCount s) ∧
    (t.ct.map fun p => 2 ^ (255 - p.2.code.length)).sum = 2 ^ 255

/-- R149: a second `CD_DERIVE` with no `TB_BUILD` between gives the same table, and so the same state. -/
def Obligations.CdDeriveRepeatedGivesTheSameTable : Prop :=
  ∀ s t : State, exec .cdDerive s = .next t → exec .cdDerive t = .next t

/-- R150: `CD_LOOKUP` returns the entry of its symbol, signals absence by `hit = 0`, and changes only its result
register, `status`, `err_info` and, on a miss, the counter of free values (the model's own field, log entry 5).  In the
fault it is not executed (R241); that this is a stop of its own name follows U14, log entry 1 (DEDUCED). -/
def Obligations.CdLookupReadsOneEntry : Prop :=
  ∀ (s : State) (sym : Nat),
    (s.fault = true → exec (.cdLookup sym) s = .fault .blockFaulted) ∧
    (s.fault = false → ∀ r, storeRead s.ct sym = some r →
      exec (.cdLookup sym) s = .next { s with
        lookupOut := { hit := true, len := r.len, code := r.code }, status := .ok, errInfo := 0 }) ∧
    (s.fault = false → storeRead s.ct sym = none →
      ∃ l d, l.hit = false ∧
        exec (.cdLookup sym) s = .next { s with lookupOut := l, status := .ok, errInfo := 0, draws := d })

/-! ## The bit packer -/

/-- R165 to R167: on a valid bitstring with a good sink `BP_PACK` completes, and `byte_out` is the frame cut into bytes;
nothing else changes. -/
def Obligations.BpPackWritesTheFrame : Prop :=
  ∀ s : State, s.fault = false → BitChars s.ports.charIn → s.ports.sinkOk = true →
    WithinCap s s.ports.charIn.length →
    exec .bpPack s = .next { s with
      byteOut := tobytes (List.replicate (8 - s.ports.charIn.length % 8 - 1) false ++ [true] ++
        s.ports.charIn.map bitOf),
      status := .ok, errInfo := 0 }

/-- R59, R75, R167: bit by bit, the packed stream is `padding - 1` zeros, a one, and the payload, most significant bit
first in each byte, in `L div 8 + 1` bytes and no bit more.  That the character '1' is the number 0x31 is general knowledge
(R80), log entry 8 (PRESUMED). -/
def Obligations.PackedStreamHoldsHeaderAndPayload : Prop :=
  ∀ s t : State, s.fault = false → BitChars s.ports.charIn → s.ports.sinkOk = true →
    exec .bpPack s = .next t →
    t.byteOut.length = s.ports.charIn.length / 8 + 1 ∧
    ∀ k, k < 8 * t.byteOut.length →
      ((t.byteOut.getD (k / 8) 0#8).getLsbD (7 - k % 8) = true ↔
        k + 1 = 8 - s.ports.charIn.length % 8 ∨
        (8 - s.ports.charIn.length % 8 ≤ k ∧
          s.ports.charIn.getD (k - (8 - s.ports.charIn.length % 8)) 0x30#8 = 0x31#8))

/-- R163: a string with a bad character gives no bytes, `INVALID_BITSTRING` and the index of the first one; nothing else
changes.  That '0' and '1' are the numbers 0x30 and 0x31 is general knowledge (R80), log entry 8 (PRESUMED). -/
def Obligations.BpPackReportsTheFirstBadCharacter : Prop :=
  ∀ (s : State) (k : Nat) (h : k < s.ports.charIn.length), s.fault = false → WithinCap s s.ports.charIn.length →
    (s.ports.charIn[k] ≠ 0x30#8 ∧ s.ports.charIn[k] ≠ 0x31#8) →
    (∀ j (hj : j < k), s.ports.charIn[j] = 0x30#8 ∨ s.ports.charIn[j] = 0x31#8) →
    exec .bpPack s = .next { s with byteOut := [], status := .invalidBitstring, errInfo := k }

/-- R168: a valid string and a failed sink give no bytes and `IO_FAILURE`; nothing else changes. -/
def Obligations.BpPackReportsSinkFailure : Prop :=
  ∀ s : State, s.fault = false → WithinCap s s.ports.charIn.length → BitChars s.ports.charIn →
    s.ports.sinkOk = false →
    exec .bpPack s = .next { s with byteOut := [], status := .ioFailure, errInfo := 0 }

/-- R77: byte 0 of a packed stream lies in the range of the header for `L mod 8`, so it is never 0x00. -/
def Obligations.FirstPackedByteLiesInItsRange : Prop :=
  ∀ s t : State, s.fault = false → exec .bpPack s = .next t → t.status = .ok →
    ∃ b bs, t.byteOut = b :: bs ∧ 2 ^ (s.ports.charIn.length % 8) ≤ b.toNat ∧
      b.toNat < 2 ^ (s.ports.charIn.length % 8 + 1)

/-- R14, R173, R191: a request above `CAP_BITS` is refused, by name; of `BU_UNPACK` only when the source was read.  That
the capacity is looked at before the characters is the model's choice, log entry 10. -/
def Obligations.RequestsAboveCapacityAreRefused : Prop :=
  ∀ (s : State) (c : Nat), s.fault = false → s.params.capBits = some c →
    (c < s.ports.charIn.length → exec .bpPack s = .refused .overCapBits) ∧
    (c < 8 * s.ports.byteIn.length → s.ports.srcOk = true → exec .buUnpack s = .refused .overCapBits)

/-- R172 (b): two different valid strings give different byte sequences. -/
def Obligations.BpPackIsInjective : Prop :=
  ∀ s s' t t' : State, s.fault = false → s'.fault = false → exec .bpPack s = .next t → exec .bpPack s' = .next t' →
    t.status = .ok → t'.status = .ok → t.byteOut = t'.byteOut → s.ports.charIn = s'.ports.charIn

/-! ## The bit unpacker -/

/-- R183, R184: with the first 1 of byte 0 at index `p`, `BU_UNPACK` returns the bits after it; nothing else changes. -/
def Obligations.BuUnpackReturnsWhatFollowsTheHeader : Prop :=
  ∀ (s : State) (b : Byte) (bs : List Byte) (p : Nat), s.fault = false → s.ports.srcOk = true →
    WithinCap s (8 * s.ports.byteIn.length) → s.ports.byteIn = b :: bs → p < 8 →
    b.getLsbD (7 - p) = true → (∀ q < p, b.getLsbD (7 - q) = false) →
    exec .buUnpack s = .next { s with
      charOut := ((unbits (b :: bs)).drop (p + 1)).map charOf, status := .ok, errInfo := 0 } ∧
    (((unbits (b :: bs)).drop (p + 1)).map charOf).length = 8 * s.ports.byteIn.length - p - 1

/-- R185, R186: a byte 0 of 0x00 is dropped whole and the rest returned whole; no bytes give the empty payload.  Both ends
with `OK` are decisions the spec flags as its own (D13, D14), followed by the model's choice, log entry 20. -/
def Obligations.BuUnpackDropsAMalformedHeader : Prop :=
  ∀ s : State, s.fault = false → s.ports.srcOk = true → WithinCap s (8 * s.ports.byteIn.length) →
    (∀ bs, s.ports.byteIn = 0x00#8 :: bs →
      exec .buUnpack s = .next { s with charOut := (unbits bs).map charOf, status := .ok, errInfo := 0 }) ∧
    (s.ports.byteIn = [] → exec .buUnpack s = .next { s with charOut := [], status := .ok, errInfo := 0 })

/-- R181: with `src_ok = 0` the result is empty and the report `IO_FAILURE`, whatever the bytes; nothing else changes. -/
def Obligations.BuUnpackReportsSourceFailure : Prop :=
  ∀ s : State, s.fault = false → s.ports.srcOk = false →
    exec .buUnpack s = .next { s with charOut := [], status := .ioFailure, errInfo := 0 }

/-- R188: unpacking what `BP_PACK` wrote gives the string it packed, for every length. -/
def Obligations.UnpackOfPackGivesTheString : Prop :=
  ∀ s t u : State, s.fault = false → exec .bpPack s = .next t → t.status = .ok →
    u.fault = false → u.ports.srcOk = true → u.ports.byteIn = t.byteOut → WithinCap u (8 * t.byteOut.length) →
    exec .buUnpack u = .next { u with charOut := s.ports.charIn, status := .ok, errInfo := 0 }

/-- R189: packing what `BU_UNPACK` returned gives the bytes back exactly when there is a byte 0 and it is not 0x00. -/
def Obligations.PackOfUnpackGivesTheBytesExactlyWithHeader : Prop :=
  ∀ s t u v : State, s.fault = false → s.ports.srcOk = true → exec .buUnpack s = .next t →
    u.fault = false → u.ports.sinkOk = true → u.ports.charIn = t.charOut → exec .bpPack u = .next v →
    (v.byteOut = s.ports.byteIn ↔ ∃ b bs, s.ports.byteIn = b :: bs ∧ b ≠ 0x00#8)

/-- R191: the result characters of `BU_UNPACK` are only ever '0' and '1'. -/
def Obligations.BuUnpackGivesBitCharactersOnly : Prop :=
  ∀ s t : State, s.fault = false → exec .buUnpack s = .next t → BitChars t.charOut

/-- R58: `bits8` lists bit 7 first, `byte8` is the sum of the rule, and the two are inverse. -/
def Obligations.Bits8AndByte8AreInverse : Prop :=
  (∀ b : Byte, byte8 (bits8 b) = b) ∧ (∀ s : List Bit, s.length = 8 → bits8 (byte8 s) = s) ∧
  (∀ b : Byte, bits8 b = [b[7], b[6], b[5], b[4], b[3], b[2], b[1], b[0]]) ∧
  ∀ a b c d e f g h : Bit, (byte8 [a, b, c, d, e, f, g, h]).toNat =
    a.toNat * 128 + b.toNat * 64 + c.toNat * 32 + d.toNat * 16 + e.toNat * 8 + f.toNat * 4 + g.toNat * 2 + h.toNat

/-! ## Frames -/

/-- R37, R47, R63: the operations that only read the stores, or use neither, leave the tree, the table and each other's
result registers as they are, for every form and every outcome that is a next state. -/
def Obligations.ReadingAndPackingFrame : Prop :=
  ∀ (i : Instr) (s t : State), i ≠ .tbBuild → i ≠ .cdDerive → exec i s = .next t →
    SameTree s t ∧ SameTable s t ∧ SameHost s t ∧ t.fault = s.fault ∧
    ((∀ idx, i ≠ .tbNode idx) → t.nodeOut = s.nodeOut) ∧ ((∀ sym, i ≠ .cdLookup sym) → t.lookupOut = s.lookupOut) ∧
    (i ≠ .bpPack → t.byteOut = s.byteOut) ∧ (i ≠ .buUnpack → t.charOut = s.charOut)

/-- R47: `CD_DERIVE` writes `ct`, `status` and `err_info` and nothing else; `TB_BUILD`, when it does not fault, leaves
the code table and the result registers as they are (R69). -/
def Obligations.BuildAndDeriveFrame : Prop :=
  ∀ s t : State,
    (exec .cdDerive s = .next t → SameTree s t ∧ SameHost s t ∧ t.fault = s.fault ∧ t.byteOut = s.byteOut ∧
      t.charOut = s.charOut ∧ t.nodeOut = s.nodeOut ∧ t.lookupOut = s.lookupOut) ∧
    (exec .tbBuild s = .next t → t.fault = s.fault → SameTable s t ∧ SameHost s t ∧ t.byteOut = s.byteOut ∧
      t.charOut = s.charOut ∧ t.nodeOut = s.nodeOut ∧ t.lookupOut = s.lookupOut)

/-! ## The host's side -/

/-- R206: under every weight arithmetic for which the host has a quotient by R202 (exact and binary64 always, a finite `W`
with 0 and 1 too, log entry 21), the entry list of every non-empty text meets `TB_BUILD`'s contract and has an entry for every symbol of it.
That the synthetic entry stands first is D20, log entry 20. -/
def Obligations.FreqMeetsTheBuilderContract : Prop :=
  (∀ (A : WeightArith) (text : List Sym), text ≠ [] → (wRatio A text.length).isSome = true →
    ∃ es, freq A text = some es ∧ 2 ≤ es.length ∧ es.length ≤ 256 ∧ EntryContract A es ∧
      ∀ x ∈ text, ∃ e ∈ es, e.sym = x) ∧
  ∀ total, (wRatio .exact total).isSome = true ∧ (wRatio .binary64 total).isSome = true

/-- R201 to R204: under every weight arithmetic the list holds the quotient `count / total` for every symbol that occurs,
and nothing else but the synthetic entry, of a text with one distinct symbol.  The exact quotient is the rational number.
The model's, log entry 21 (DEDUCED): `FREQ` has a result only where the host has a quotient that meets R202, and the
synthetic entry has the quotient of no occurrence; R204 gives it the weight 0, which that quotient is under exact and
binary64 arithmetic and stands for under every other. -/
def Obligations.FreqEntriesAreCountsOverTotal : Prop :=
  ∀ (A : WeightArith) (text : List Sym) (es : List Entry), freq A text = some es →
    ∃ q, wRatio A text.length = some q ∧
      (∀ x ∈ text, ({ sym := x, w := q (text.count x) } : Entry) ∈ es) ∧
      (∀ e ∈ es, (e.sym ∈ text ∧ e.w = q (text.count e.sym)) ∨
        (e.w = q 0 ∧ e.sym ∉ text ∧ ∃ x, (∀ y ∈ text, y = x) ∧ e.sym = x + 1#8)) ∧
      (A = .exact → ∀ c, q c = ratio c text.length) ∧ (A = .exact ∨ A = .binary64 → q 0 = zeroWeight)

/-- R202, R203: where the arithmetic tells the counts of the text apart, the list is ordered by `(count, symbol)`; the
synthetic entry counts 0.  Exact arithmetic always does, binary64 up to `2^53` symbols, and an unnamed one unless its
own rounding brings two together, log entry 21 (DESIGN CHOICE).  For a text of one symbol the order rests on the synthetic entry
standing first, which is D20, log entry 20 (DESIGN CHOICE). -/
def Obligations.FreqOrdersByCountThenSymbol : Prop :=
  ∀ (A : WeightArith) (text : List Sym) (es : List Entry), countsApart A text.length = true →
    freq A text = some es →
    es.Pairwise fun a b => text.count a.sym < text.count b.sym ∨
      (text.count a.sym = text.count b.sym ∧ a.sym.toNat < b.sym.toNat)

/-- R218: for every non-empty text and every weight arithmetic for which the host has a quotient by R202 (exact and
binary64 always, a finite `W` with 0 and 1 too, log entry 21), decoding its encoding against its own tree gives the text back, if the capacity holds
255 bits a symbol (R12) and the header. -/
def Obligations.TextRoundTrip : Prop :=
  ∀ (s : State) (text : List Sym), s.fault = false → WithinCap s (255 * text.length + 8) → text ≠ [] →
    (wRatio s.params.arith text.length).isSome = true →
    ∃ t, pipeline text s = .done text t ∧ EndsOk t

/-- R219: under every weight arithmetic for which the host has a quotient `q` that meets R202, a text of one distinct
symbol gives the tree of two leaves, the synthetic symbol left, and `k div 8 + 1` bytes; under exact and binary64
arithmetic, where there always is one (log entry 21), the weights are 0 and 1 and their sum 1.  That the synthetic entry
stands first is D20, log entry 20. -/
def Obligations.SingleSymbolText : Prop :=
  ∀ (s : State) (x : Sym) (k : Nat) (q : Nat → Weight), s.fault = false → WithinCap s k → 1 ≤ k →
    wRatio s.params.arith k = some q →
    ∃ t bytes u, prepare (List.replicate k x) s = some t ∧
      absTree t = .tree (.node (.leaf (x + 1#8) (q 0)) (.leaf x (q k)) (wAdd s.params.arith (q 0) (q k))) ∧
      (s.params.arith = .exact ∨ s.params.arith = .binary64 →
        q 0 = { num := 0, den := 1 } ∧ q k = { num := 1, den := 1 } ∧
        wAdd s.params.arith (q 0) (q k) = { num := 1, den := 1 }) ∧
      codeOf t.ct (x + 1#8).toNat = some [false] ∧ codeOf t.ct x.toNat = some [true] ∧
      encodeText (List.replicate k x) true t = .done bytes u ∧ bytes.length = k / 8 + 1

/-- R211, R216: `ENCODE` of a text with a symbol that has no entry has no meaning; `DECODE` with the empty tree is the
host's violation, and the block's fault flag is not set by it. -/
def Obligations.HostContractViolationsHaveNoResult : Prop :=
  (∀ (s : State) (text : List Sym) (ok : Bool), s.fault = false →
    (∃ x ∈ text, storeRead s.ct x.toNat = none) → encodeText text ok s = .noMeaning) ∧
  (∀ (s : State) (bytes : List Byte), s.fault = false → s.root = 0x1FF#9 → WithinCap s (8 * bytes.length) →
    ∃ t, decodeText bytes true s = .violation t ∧ t.fault = false)
end

