-- ==== Sys2Proof/Laws/Bits.lean ====
section
/-! SUPPORT. Small facts on bits, bytes and frames (R58, R59, R61, R76). -/

namespace Sys2Proof.Machine

@[simp] theorem bits8_length (b : Byte) : (bits8 b).length = 8 := rfl

@[simp] theorem unbits_nil : unbits [] = [] := rfl

@[simp] theorem unbits_cons (b : Byte) (bs : List Byte) : unbits (b :: bs) = bits8 b ++ unbits bs := rfl

theorem unbits_length (bs : List Byte) : (unbits bs).length = 8 * bs.length := by
  induction bs with
  | nil => rfl
  | cons b bs ih => simp only [unbits_cons, List.length_append, bits8_length, ih, List.length_cons]; omega

/-- `padding` is in 1 to 8 (R76). -/
theorem padding_range (n : Nat) : 1 ≤ padding n ∧ padding n ≤ 8 := by unfold padding; omega

/-- Header and payload fill whole bytes (R61): `L div 8 + 1` of them (R78). -/
theorem frame_length (p : List Bit) : (frame p).length = 8 * (p.length / 8 + 1) := by
  simp only [frame, padding, List.length_append, List.length_replicate, List.length_cons, List.length_nil]; omega

@[simp] theorem tobytes_nil : tobytes [] = [] := rfl

theorem tobytes_length : ∀ (k : Nat) (s : List Bit), s.length = 8 * k → (tobytes s).length = k := by
  intro k
  induction k with
  | zero => intro s h; rw [List.length_eq_zero_iff.1 (by omega : s.length = 0)]; rfl
  | succ k ih =>
    intro s h
    match s, h with
    | a :: b :: c :: d :: e :: f :: g :: i :: s, h =>
      simp only [tobytes, List.length_cons] at h ⊢
      rw [ih s (by omega)]

/-- The characters of bits are bit characters (R80). -/
theorem isBitChar_charOf (b : Bit) : isBitChar (charOf b) = true := by cases b <;> decide

@[simp] theorem bitOf_charOf (b : Bit) : bitOf (charOf b) = b := by cases b <;> decide

end Sys2Proof.Machine
end

