-- ==== Sys2Proof/Laws/State.lean ====
section
/-! SUPPORT. One lemma per field per update of the state, so that no proof unfolds a record update. -/

namespace Sys2Proof.Machine

section
variable (s : State)

@[simp] theorem finish_node : (finish s).node = s.node := rfl
@[simp] theorem finish_nnodes : (finish s).nnodes = s.nnodes := rfl
@[simp] theorem finish_root : (finish s).root = s.root := rfl
@[simp] theorem finish_source : (finish s).source = s.source := rfl
@[simp] theorem finish_target : (finish s).target = s.target := rfl
@[simp] theorem finish_ct : (finish s).ct = s.ct := rfl
@[simp] theorem finish_status : (finish s).status = .ok := rfl
@[simp] theorem finish_errInfo : (finish s).errInfo = 0 := rfl
@[simp] theorem finish_fault : (finish s).fault = s.fault := rfl
@[simp] theorem finish_byteOut : (finish s).byteOut = s.byteOut := rfl
@[simp] theorem finish_charOut : (finish s).charOut = s.charOut := rfl
@[simp] theorem finish_nodeOut : (finish s).nodeOut = s.nodeOut := rfl
@[simp] theorem finish_lookupOut : (finish s).lookupOut = s.lookupOut := rfl
@[simp] theorem finish_ports : (finish s).ports = s.ports := rfl
@[simp] theorem finish_requests : (finish s).requests = s.requests := rfl
@[simp] theorem finish_params : (finish s).params = s.params := rfl
@[simp] theorem finish_draws : (finish s).draws = s.draws := rfl

end

section
variable (s : State) (i : Nat) (r : NodeRec)

@[simp] theorem nodeWrite_node : (nodeWrite s i r).node = storeWrite s.node i r := rfl
@[simp] theorem nodeWrite_nnodes : (nodeWrite s i r).nnodes = s.nnodes := rfl
@[simp] theorem nodeWrite_root : (nodeWrite s i r).root = s.root := rfl
@[simp] theorem nodeWrite_source : (nodeWrite s i r).source = s.source := rfl
@[simp] theorem nodeWrite_target : (nodeWrite s i r).target = s.target := rfl
@[simp] theorem nodeWrite_ct : (nodeWrite s i r).ct = s.ct := rfl
@[simp] theorem nodeWrite_status : (nodeWrite s i r).status = s.status := rfl
@[simp] theorem nodeWrite_errInfo : (nodeWrite s i r).errInfo = s.errInfo := rfl
@[simp] theorem nodeWrite_fault : (nodeWrite s i r).fault = s.fault := rfl
@[simp] theorem nodeWrite_byteOut : (nodeWrite s i r).byteOut = s.byteOut := rfl
@[simp] theorem nodeWrite_charOut : (nodeWrite s i r).charOut = s.charOut := rfl
@[simp] theorem nodeWrite_nodeOut : (nodeWrite s i r).nodeOut = s.nodeOut := rfl
@[simp] theorem nodeWrite_lookupOut : (nodeWrite s i r).lookupOut = s.lookupOut := rfl
@[simp] theorem nodeWrite_ports : (nodeWrite s i r).ports = s.ports := rfl
@[simp] theorem nodeWrite_requests : (nodeWrite s i r).requests = s.requests := rfl
@[simp] theorem nodeWrite_params : (nodeWrite s i r).params = s.params := rfl
@[simp] theorem nodeWrite_draws : (nodeWrite s i r).draws = s.draws := rfl

end

section
variable (s : State) (x : NodeRef)

@[simp] theorem enqSource_node : (enqSource s x).node = s.node := rfl
@[simp] theorem enqSource_nnodes : (enqSource s x).nnodes = s.nnodes := rfl
@[simp] theorem enqSource_root : (enqSource s x).root = s.root := rfl
@[simp] theorem enqSource_source : (enqSource s x).source = s.source ++ [x] := rfl
@[simp] theorem enqSource_target : (enqSource s x).target = s.target := rfl
@[simp] theorem enqSource_ct : (enqSource s x).ct = s.ct := rfl
@[simp] theorem enqSource_status : (enqSource s x).status = s.status := rfl
@[simp] theorem enqSource_errInfo : (enqSource s x).errInfo = s.errInfo := rfl
@[simp] theorem enqSource_fault : (enqSource s x).fault = s.fault := rfl
@[simp] theorem enqSource_byteOut : (enqSource s x).byteOut = s.byteOut := rfl
@[simp] theorem enqSource_charOut : (enqSource s x).charOut = s.charOut := rfl
@[simp] theorem enqSource_nodeOut : (enqSource s x).nodeOut = s.nodeOut := rfl
@[simp] theorem enqSource_lookupOut : (enqSource s x).lookupOut = s.lookupOut := rfl
@[simp] theorem enqSource_ports : (enqSource s x).ports = s.ports := rfl
@[simp] theorem enqSource_requests : (enqSource s x).requests = s.requests := rfl
@[simp] theorem enqSource_params : (enqSource s x).params = s.params := rfl
@[simp] theorem enqSource_draws : (enqSource s x).draws = s.draws := rfl

end

section
variable (s : State) (x : NodeRef)

@[simp] theorem enqTarget_node : (enqTarget s x).node = s.node := rfl
@[simp] theorem enqTarget_nnodes : (enqTarget s x).nnodes = s.nnodes := rfl
@[simp] theorem enqTarget_root : (enqTarget s x).root = s.root := rfl
@[simp] theorem enqTarget_source : (enqTarget s x).source = s.source := rfl
@[simp] theorem enqTarget_target : (enqTarget s x).target = s.target ++ [x] := rfl
@[simp] theorem enqTarget_ct : (enqTarget s x).ct = s.ct := rfl
@[simp] theorem enqTarget_status : (enqTarget s x).status = s.status := rfl
@[simp] theorem enqTarget_errInfo : (enqTarget s x).errInfo = s.errInfo := rfl
@[simp] theorem enqTarget_fault : (enqTarget s x).fault = s.fault := rfl
@[simp] theorem enqTarget_byteOut : (enqTarget s x).byteOut = s.byteOut := rfl
@[simp] theorem enqTarget_charOut : (enqTarget s x).charOut = s.charOut := rfl
@[simp] theorem enqTarget_nodeOut : (enqTarget s x).nodeOut = s.nodeOut := rfl
@[simp] theorem enqTarget_lookupOut : (enqTarget s x).lookupOut = s.lookupOut := rfl
@[simp] theorem enqTarget_ports : (enqTarget s x).ports = s.ports := rfl
@[simp] theorem enqTarget_requests : (enqTarget s x).requests = s.requests := rfl
@[simp] theorem enqTarget_params : (enqTarget s x).params = s.params := rfl
@[simp] theorem enqTarget_draws : (enqTarget s x).draws = s.draws := rfl

end

section
variable (s : State)

@[simp] theorem startBuild_node : (startBuild s).node = [] := rfl
@[simp] theorem startBuild_nnodes : (startBuild s).nnodes = 0 := rfl
@[simp] theorem startBuild_root : (startBuild s).root = Config.noneRef := rfl
@[simp] theorem startBuild_source : (startBuild s).source = [] := rfl
@[simp] theorem startBuild_target : (startBuild s).target = [] := rfl
@[simp] theorem startBuild_ct : (startBuild s).ct = s.ct := rfl
@[simp] theorem startBuild_status : (startBuild s).status = s.status := rfl
@[simp] theorem startBuild_errInfo : (startBuild s).errInfo = s.errInfo := rfl
@[simp] theorem startBuild_fault : (startBuild s).fault = s.fault := rfl
@[simp] theorem startBuild_byteOut : (startBuild s).byteOut = s.byteOut := rfl
@[simp] theorem startBuild_charOut : (startBuild s).charOut = s.charOut := rfl
@[simp] theorem startBuild_nodeOut : (startBuild s).nodeOut = s.nodeOut := rfl
@[simp] theorem startBuild_lookupOut : (startBuild s).lookupOut = s.lookupOut := rfl
@[simp] theorem startBuild_ports : (startBuild s).ports = s.ports := rfl
@[simp] theorem startBuild_requests : (startBuild s).requests = s.requests := rfl
@[simp] theorem startBuild_params : (startBuild s).params = s.params := rfl
@[simp] theorem startBuild_draws : (startBuild s).draws = s.draws := rfl

end

section
variable (s : State) (e : Entry)

@[simp] theorem loadLeaf_node : (loadLeaf s e).node = storeWrite s.node s.nnodes (leafRec e) := rfl
@[simp] theorem loadLeaf_nnodes : (loadLeaf s e).nnodes = s.nnodes + 1 := rfl
@[simp] theorem loadLeaf_root : (loadLeaf s e).root = s.root := rfl
@[simp] theorem loadLeaf_source : (loadLeaf s e).source = s.source ++ [BitVec.ofNat 9 s.nnodes] := rfl
@[simp] theorem loadLeaf_target : (loadLeaf s e).target = s.target := rfl
@[simp] theorem loadLeaf_ct : (loadLeaf s e).ct = s.ct := rfl
@[simp] theorem loadLeaf_status : (loadLeaf s e).status = s.status := rfl
@[simp] theorem loadLeaf_errInfo : (loadLeaf s e).errInfo = s.errInfo := rfl
@[simp] theorem loadLeaf_fault : (loadLeaf s e).fault = s.fault := rfl
@[simp] theorem loadLeaf_byteOut : (loadLeaf s e).byteOut = s.byteOut := rfl
@[simp] theorem loadLeaf_charOut : (loadLeaf s e).charOut = s.charOut := rfl
@[simp] theorem loadLeaf_nodeOut : (loadLeaf s e).nodeOut = s.nodeOut := rfl
@[simp] theorem loadLeaf_lookupOut : (loadLeaf s e).lookupOut = s.lookupOut := rfl
@[simp] theorem loadLeaf_ports : (loadLeaf s e).ports = s.ports := rfl
@[simp] theorem loadLeaf_requests : (loadLeaf s e).requests = s.requests := rfl
@[simp] theorem loadLeaf_params : (loadLeaf s e).params = s.params := rfl
@[simp] theorem loadLeaf_draws : (loadLeaf s e).draws = s.draws := rfl

end

section
variable (s : State) (a b : NodeRef)

@[simp] theorem mergeNodes_node : (mergeNodes s a b).node = storeWrite s.node s.nnodes (internalRec (Config.freeSym s.draws)
      (wAdd s.params.arith (refWeight s a) (refWeight s b)) a b) := rfl
@[simp] theorem mergeNodes_nnodes : (mergeNodes s a b).nnodes = s.nnodes + 1 := rfl
@[simp] theorem mergeNodes_root : (mergeNodes s a b).root = s.root := rfl
@[simp] theorem mergeNodes_source : (mergeNodes s a b).source = s.source := rfl
@[simp] theorem mergeNodes_target : (mergeNodes s a b).target = s.target ++ [BitVec.ofNat 9 s.nnodes] := rfl
@[simp] theorem mergeNodes_ct : (mergeNodes s a b).ct = s.ct := rfl
@[simp] theorem mergeNodes_status : (mergeNodes s a b).status = s.status := rfl
@[simp] theorem mergeNodes_errInfo : (mergeNodes s a b).errInfo = s.errInfo := rfl
@[simp] theorem mergeNodes_fault : (mergeNodes s a b).fault = s.fault := rfl
@[simp] theorem mergeNodes_byteOut : (mergeNodes s a b).byteOut = s.byteOut := rfl
@[simp] theorem mergeNodes_charOut : (mergeNodes s a b).charOut = s.charOut := rfl
@[simp] theorem mergeNodes_nodeOut : (mergeNodes s a b).nodeOut = s.nodeOut := rfl
@[simp] theorem mergeNodes_lookupOut : (mergeNodes s a b).lookupOut = s.lookupOut := rfl
@[simp] theorem mergeNodes_ports : (mergeNodes s a b).ports = s.ports := rfl
@[simp] theorem mergeNodes_requests : (mergeNodes s a b).requests = s.requests := rfl
@[simp] theorem mergeNodes_params : (mergeNodes s a b).params = s.params := rfl
@[simp] theorem mergeNodes_draws : (mergeNodes s a b).draws = s.draws + 1 := rfl

end

section
variable (s : State) (o : Operands)

@[simp] theorem present_node : (present s o).node = s.node := rfl
@[simp] theorem present_nnodes : (present s o).nnodes = s.nnodes := rfl
@[simp] theorem present_root : (present s o).root = s.root := rfl
@[simp] theorem present_source : (present s o).source = s.source := rfl
@[simp] theorem present_target : (present s o).target = s.target := rfl
@[simp] theorem present_ct : (present s o).ct = s.ct := rfl
@[simp] theorem present_status : (present s o).status = s.status := rfl
@[simp] theorem present_errInfo : (present s o).errInfo = s.errInfo := rfl
@[simp] theorem present_fault : (present s o).fault = s.fault := rfl
@[simp] theorem present_byteOut : (present s o).byteOut = s.byteOut := rfl
@[simp] theorem present_charOut : (present s o).charOut = s.charOut := rfl
@[simp] theorem present_nodeOut : (present s o).nodeOut = s.nodeOut := rfl
@[simp] theorem present_lookupOut : (present s o).lookupOut = s.lookupOut := rfl
@[simp] theorem present_ports : (present s o).ports = o := rfl
@[simp] theorem present_requests : (present s o).requests = s.requests := rfl
@[simp] theorem present_params : (present s o).params = s.params := rfl
@[simp] theorem present_draws : (present s o).draws = s.draws := rfl

end

section
variable (s : State) (r : Request)

@[simp] theorem pushRequest_node : (pushRequest s r).node = s.node := rfl
@[simp] theorem pushRequest_nnodes : (pushRequest s r).nnodes = s.nnodes := rfl
@[simp] theorem pushRequest_root : (pushRequest s r).root = s.root := rfl
@[simp] theorem pushRequest_source : (pushRequest s r).source = s.source := rfl
@[simp] theorem pushRequest_target : (pushRequest s r).target = s.target := rfl
@[simp] theorem pushRequest_ct : (pushRequest s r).ct = s.ct := rfl
@[simp] theorem pushRequest_status : (pushRequest s r).status = s.status := rfl
@[simp] theorem pushRequest_errInfo : (pushRequest s r).errInfo = s.errInfo := rfl
@[simp] theorem pushRequest_fault : (pushRequest s r).fault = s.fault := rfl
@[simp] theorem pushRequest_byteOut : (pushRequest s r).byteOut = s.byteOut := rfl
@[simp] theorem pushRequest_charOut : (pushRequest s r).charOut = s.charOut := rfl
@[simp] theorem pushRequest_nodeOut : (pushRequest s r).nodeOut = s.nodeOut := rfl
@[simp] theorem pushRequest_lookupOut : (pushRequest s r).lookupOut = s.lookupOut := rfl
@[simp] theorem pushRequest_ports : (pushRequest s r).ports = s.ports := rfl
@[simp] theorem pushRequest_requests : (pushRequest s r).requests = r :: s.requests := rfl
@[simp] theorem pushRequest_params : (pushRequest s r).params = s.params := rfl
@[simp] theorem pushRequest_draws : (pushRequest s r).draws = s.draws := rfl

end

section
variable (s : State) (rest : List Request)

@[simp] theorem popRequest_node : (popRequest s rest).node = s.node := rfl
@[simp] theorem popRequest_nnodes : (popRequest s rest).nnodes = s.nnodes := rfl
@[simp] theorem popRequest_root : (popRequest s rest).root = s.root := rfl
@[simp] theorem popRequest_source : (popRequest s rest).source = s.source := rfl
@[simp] theorem popRequest_target : (popRequest s rest).target = s.target := rfl
@[simp] theorem popRequest_ct : (popRequest s rest).ct = s.ct := rfl
@[simp] theorem popRequest_status : (popRequest s rest).status = s.status := rfl
@[simp] theorem popRequest_errInfo : (popRequest s rest).errInfo = s.errInfo := rfl
@[simp] theorem popRequest_fault : (popRequest s rest).fault = s.fault := rfl
@[simp] theorem popRequest_byteOut : (popRequest s rest).byteOut = s.byteOut := rfl
@[simp] theorem popRequest_charOut : (popRequest s rest).charOut = s.charOut := rfl
@[simp] theorem popRequest_nodeOut : (popRequest s rest).nodeOut = s.nodeOut := rfl
@[simp] theorem popRequest_lookupOut : (popRequest s rest).lookupOut = s.lookupOut := rfl
@[simp] theorem popRequest_ports : (popRequest s rest).ports = s.ports := rfl
@[simp] theorem popRequest_requests : (popRequest s rest).requests = rest := rfl
@[simp] theorem popRequest_params : (popRequest s rest).params = s.params := rfl
@[simp] theorem popRequest_draws : (popRequest s rest).draws = s.draws := rfl

end

section
variable (s : State)

@[simp] theorem enterFault_node : (enterFault s).node = [] := rfl
@[simp] theorem enterFault_nnodes : (enterFault s).nnodes = Config.freeNnodes s.draws % 512 := rfl
@[simp] theorem enterFault_root : (enterFault s).root = Config.freeRoot s.draws := rfl
@[simp] theorem enterFault_source : (enterFault s).source = Config.freeSource s.draws := rfl
@[simp] theorem enterFault_target : (enterFault s).target = Config.freeTarget s.draws := rfl
@[simp] theorem enterFault_ct : (enterFault s).ct = freeTable s.draws := rfl
@[simp] theorem enterFault_status : (enterFault s).status = s.status := rfl
@[simp] theorem enterFault_errInfo : (enterFault s).errInfo = s.errInfo := rfl
@[simp] theorem enterFault_fault : (enterFault s).fault = true := rfl
@[simp] theorem enterFault_byteOut : (enterFault s).byteOut = Config.freeBytes s.draws := rfl
@[simp] theorem enterFault_charOut : (enterFault s).charOut = Config.freeChars s.draws := rfl
@[simp] theorem enterFault_nodeOut : (enterFault s).nodeOut = .ofRec (Config.freeNodeValid s.draws) (Config.freeNodeOut s.draws) := rfl
@[simp] theorem enterFault_lookupOut : (enterFault s).lookupOut = .ofRec (Config.freeLookupHit s.draws) (Config.freeCode s.draws) := rfl
@[simp] theorem enterFault_ports : (enterFault s).ports = s.ports := rfl
@[simp] theorem enterFault_requests : (enterFault s).requests = s.requests := rfl
@[simp] theorem enterFault_params : (enterFault s).params = s.params := rfl
@[simp] theorem enterFault_draws : (enterFault s).draws = s.draws + 1 := rfl

end

section
variable (s : State)

@[simp] theorem resetBlock_node : (resetBlock s).node = [] := rfl
@[simp] theorem resetBlock_nnodes : (resetBlock s).nnodes = 0 := rfl
@[simp] theorem resetBlock_root : (resetBlock s).root = Config.noneRef := rfl
@[simp] theorem resetBlock_source : (resetBlock s).source = [] := rfl
@[simp] theorem resetBlock_target : (resetBlock s).target = [] := rfl
@[simp] theorem resetBlock_ct : (resetBlock s).ct = [] := rfl
@[simp] theorem resetBlock_status : (resetBlock s).status = .ok := rfl
@[simp] theorem resetBlock_errInfo : (resetBlock s).errInfo = 0 := rfl
@[simp] theorem resetBlock_fault : (resetBlock s).fault = false := rfl
@[simp] theorem resetBlock_byteOut : (resetBlock s).byteOut = [] := rfl
@[simp] theorem resetBlock_charOut : (resetBlock s).charOut = [] := rfl
@[simp] theorem resetBlock_nodeOut : (resetBlock s).nodeOut = .ofRec false (Config.freeNodeOut s.draws) := rfl
@[simp] theorem resetBlock_lookupOut : (resetBlock s).lookupOut = .ofRec false (Config.freeCode s.draws) := rfl
@[simp] theorem resetBlock_ports : (resetBlock s).ports = .idle := rfl
@[simp] theorem resetBlock_requests : (resetBlock s).requests = s.requests := rfl
@[simp] theorem resetBlock_params : (resetBlock s).params = s.params := rfl
@[simp] theorem resetBlock_draws : (resetBlock s).draws = s.draws + 1 := rfl

end

section
variable (c : Cause) (s : State)

@[simp] theorem raise_status : (raise c s).status = causeStatus c := by cases c <;> rfl
@[simp] theorem raise_errInfo : (raise c s).errInfo = causeInfo c := by cases c <;> rfl
@[simp] theorem raise_ports : (raise c s).ports = s.ports := by cases c <;> rfl
@[simp] theorem raise_requests : (raise c s).requests = s.requests := by cases c <;> rfl
@[simp] theorem raise_params : (raise c s).params = s.params := by cases c <;> rfl

/-- An error that is no fault writes `status` and `err_info` and nothing else (R236, R237). -/
theorem raise_reported (h : c ≠ .structuralPrecondition) :
    raise c s = { s with status := causeStatus c, errInfo := causeInfo c } := by
  cases c <;> first | rfl | exact absurd rfl h

/-- Exactly the structural precondition sets the fault (R240). -/
theorem raise_fault : (raise c s).fault = (s.fault || decide (c = .structuralPrecondition)) := by
  cases c <;> simp [raise]

end

section
variable (s : State) (r : NodeRef) (q : List NodeRef)

theorem takeRoot_nil (h : s.target = []) : takeRoot s = s := by simp [takeRoot, h]

theorem takeRoot_cons (h : s.target = r :: q) : takeRoot s = { s with root := r, target := q } := by
  simp [takeRoot, h]

@[simp] theorem takeRoot_node : (takeRoot s).node = s.node := by unfold takeRoot; split <;> rfl
@[simp] theorem takeRoot_nnodes : (takeRoot s).nnodes = s.nnodes := by unfold takeRoot; split <;> rfl
@[simp] theorem takeRoot_source : (takeRoot s).source = s.source := by unfold takeRoot; split <;> rfl
@[simp] theorem takeRoot_ct : (takeRoot s).ct = s.ct := by unfold takeRoot; split <;> rfl
@[simp] theorem takeRoot_fault : (takeRoot s).fault = s.fault := by unfold takeRoot; split <;> rfl
@[simp] theorem takeRoot_byteOut : (takeRoot s).byteOut = s.byteOut := by unfold takeRoot; split <;> rfl
@[simp] theorem takeRoot_charOut : (takeRoot s).charOut = s.charOut := by unfold takeRoot; split <;> rfl
@[simp] theorem takeRoot_nodeOut : (takeRoot s).nodeOut = s.nodeOut := by unfold takeRoot; split <;> rfl
@[simp] theorem takeRoot_lookupOut : (takeRoot s).lookupOut = s.lookupOut := by unfold takeRoot; split <;> rfl
@[simp] theorem takeRoot_ports : (takeRoot s).ports = s.ports := by unfold takeRoot; split <;> rfl
@[simp] theorem takeRoot_requests : (takeRoot s).requests = s.requests := by unfold takeRoot; split <;> rfl
@[simp] theorem takeRoot_params : (takeRoot s).params = s.params := by unfold takeRoot; split <;> rfl
@[simp] theorem takeRoot_draws : (takeRoot s).draws = s.draws := by unfold takeRoot; split <;> rfl

end

end Sys2Proof.Machine
end

