-- ==== Sys2Proof/Laws/Store.lean ====
section
/-! SUPPORT. The record stores: read after write, and that every write keeps the canonical form. -/

namespace Sys2Proof.Machine

variable {α : Type}

@[simp] theorem storeRead_nil (i : Nat) : storeRead ([] : List (Nat × α)) i = none := rfl

@[simp] theorem storeRead_write_same (m : List (Nat × α)) (i : Nat) (v : α) :
    storeRead (storeWrite m i v) i = some v := by
  induction m with
  | nil => simp [storeWrite, storeRead]
  | cons p m ih =>
    obtain ⟨k, u⟩ := p
    by_cases h : i < k
    · simp [storeWrite, storeRead, h]
    · by_cases h' : i = k
      · simp [storeWrite, storeRead, h']
      · simp [storeWrite, storeRead, h, h', Ne.symm h', ih]

theorem storeRead_write_other (m : List (Nat × α)) {i j : Nat} (v : α) (hij : j ≠ i) :
    storeRead (storeWrite m i v) j = storeRead m j := by
  induction m with
  | nil => simp [storeWrite, storeRead, hij.symm]
  | cons p m ih =>
    obtain ⟨k, u⟩ := p
    by_cases h : i < k
    · simp [storeWrite, storeRead, h, hij.symm]
    · by_cases h' : i = k
      · subst h'; simp [storeWrite, storeRead, hij.symm]
      · simp [storeWrite, storeRead, h, h', ih]

theorem storeRead_write (m : List (Nat × α)) (i j : Nat) (v : α) :
    storeRead (storeWrite m i v) j = if j = i then some v else storeRead m j := by
  split
  · simp [*]
  · exact storeRead_write_other m v ‹_›

theorem storeWfFrom_weaken {bound lo lo' : Nat} {m : List (Nat × α)} (h : storeWfFrom bound lo m = true)
    (hl : lo' ≤ lo) : storeWfFrom bound lo' m = true := by
  cases m with
  | nil => rfl
  | cons p m =>
    simp only [storeWfFrom, Bool.and_eq_true, decide_eq_true_eq] at h ⊢
    exact ⟨⟨by omega, h.1.2⟩, h.2⟩

theorem storeWfFrom_write {bound : Nat} {m : List (Nat × α)} (v : α) {i : Nat} (hi : i < bound) :
    ∀ {lo : Nat}, storeWfFrom bound lo m = true → lo ≤ i → storeWfFrom bound lo (storeWrite m i v) = true := by
  induction m with
  | nil => intro lo _ hlo; simp [storeWrite, storeWfFrom, hlo, hi]
  | cons p m ih =>
    obtain ⟨k, u⟩ := p
    intro lo h hlo
    simp only [storeWfFrom, Bool.and_eq_true, decide_eq_true_eq] at h
    obtain ⟨⟨h1, h2⟩, h3⟩ := h
    by_cases hk : i < k
    · simp only [storeWrite, hk, if_true, storeWfFrom, Bool.and_eq_true, decide_eq_true_eq]
      exact ⟨⟨hlo, hi⟩, ⟨by omega, h2⟩, h3⟩
    · by_cases hk' : i = k
      · subst hk'
        simp only [storeWrite, Nat.lt_irrefl, if_false, if_true, storeWfFrom, Bool.and_eq_true, decide_eq_true_eq]
        exact ⟨⟨hlo, hi⟩, h3⟩
      · simp only [storeWrite, hk, hk', if_false, storeWfFrom, Bool.and_eq_true, decide_eq_true_eq]
        exact ⟨⟨h1, h2⟩, ih h3 (by omega)⟩

/-- Every write inside the store keeps its canonical form. -/
theorem storeWf_write {bound : Nat} {m : List (Nat × α)} (h : storeWf bound m = true) {i : Nat} (hi : i < bound)
    (v : α) : storeWf bound (storeWrite m i v) = true :=
  storeWfFrom_write v hi h (Nat.zero_le i)

/-- The empty store, in which nothing is listed, is canonical. -/
@[simp] theorem storeWf_nil (bound : Nat) : storeWf bound ([] : List (Nat × α)) = true := rfl

theorem storeRead_below {bound lo : Nat} {m : List (Nat × α)} (h : storeWfFrom bound lo m = true) {i : Nat}
    (hi : i < lo) : storeRead m i = none := by
  induction m generalizing lo with
  | nil => rfl
  | cons p m ih =>
    obtain ⟨k, u⟩ := p
    simp only [storeWfFrom, Bool.and_eq_true, decide_eq_true_eq] at h
    have hk : k ≠ i := by omega
    simp only [storeRead, hk, if_false]
    exact ih h.2 (by omega)

/-- A listed record is what its index reads as. -/
theorem storeRead_of_mem {bound lo : Nat} {m : List (Nat × α)} (h : storeWfFrom bound lo m = true) {i : Nat} {v : α}
    (hm : (i, v) ∈ m) : storeRead m i = some v := by
  induction m generalizing lo with
  | nil => simp at hm
  | cons p m ih =>
    obtain ⟨k, u⟩ := p
    simp only [storeWfFrom, Bool.and_eq_true, decide_eq_true_eq] at h
    rcases List.mem_cons.1 hm with heq | hm'
    · obtain ⟨rfl, rfl⟩ := Prod.mk.inj heq; simp [storeRead]
    · have hr := ih h.2 hm'
      have hk : k ≠ i := by
        rintro rfl
        rw [storeRead_below h.2 (Nat.lt_succ_self _)] at hr; cases hr
      simp [storeRead, hk, hr]

/-- What an index reads as is listed. -/
theorem storeRead_mem {m : List (Nat × α)} {i : Nat} {v : α} (h : storeRead m i = some v) : (i, v) ∈ m := by
  induction m with
  | nil => simp at h
  | cons p m ih =>
    obtain ⟨k, u⟩ := p
    by_cases hk : k = i
    · simp only [storeRead, hk, if_true, Option.some.injEq] at h; simp [hk, h]
    · simp only [storeRead, hk, if_false] at h; exact List.mem_cons_of_mem _ (ih h)

/-- In a canonical store an index that reads as something is below the bound. -/
theorem storeRead_lt {bound lo : Nat} {m : List (Nat × α)} (h : storeWfFrom bound lo m = true) {i : Nat} {v : α}
    (hr : storeRead m i = some v) : i < bound := by
  have hm := storeRead_mem hr
  induction m generalizing lo with
  | nil => simp at hm
  | cons p m ih =>
    obtain ⟨k, u⟩ := p
    simp only [storeWfFrom, Bool.and_eq_true, decide_eq_true_eq] at h
    rcases List.mem_cons.1 hm with heq | hm'
    · obtain ⟨rfl, rfl⟩ := Prod.mk.inj heq; exact h.1.2
    · exact ih h.2 (storeRead_of_mem h.2 hm') hm'

/-- A record written above all listed indices is listed last. -/
theorem storeWrite_append {m : List (Nat × α)} {i : Nat} (v : α) (h : ∀ p ∈ m, p.1 < i) :
    storeWrite m i v = m ++ [(i, v)] := by
  induction m with
  | nil => rfl
  | cons p m ih =>
    obtain ⟨k, u⟩ := p
    have hk : k < i := h (k, u) (by simp)
    have h1 : ¬ i < k := by omega
    have h2 : ¬ i = k := by omega
    simp only [storeWrite, h1, h2, if_false, List.cons_append]
    rw [ih fun p hp => h p (List.mem_cons_of_mem _ hp)]

end Sys2Proof.Machine
end

