-- ==== Sys2Proof/Laws/Operations.lean ====
section
/-! SUPPORT. One lemma for each operation that says everything it can do, for callers to cite instead of unfolding it. -/

namespace Sys2Proof.Machine

/-! ## Operand checks -/

theorem overCap_eq_false {s : State} {n : Nat} : overCap s.params n = false ↔ WithinCap s n := by
  unfold overCap WithinCap
  cases s.params.capBits <;> simp

theorem isBitChar_iff (c : Byte) : isBitChar c = true ↔ c = charZero ∨ c = charOne := by
  simp [isBitChar]

theorem firstBadChar_eq_none {cs : List Byte} : firstBadChar cs = none ↔ BitChars cs := by
  simp [firstBadChar, BitChars, isBitChar_iff]

theorem firstBadChar_eq_some {cs : List Byte} {k : Nat} (h : firstBadChar cs = some k) :
    ∃ hk : k < cs.length, isBitChar cs[k] = false ∧ ∀ j (hj : j < k), isBitChar cs[j] = true := by
  obtain ⟨hk, h1, h2⟩ := List.findIdx?_eq_some_iff_getElem.1 h
  refine ⟨hk, by simpa using h1, fun j hj => ?_⟩
  have := h2 j hj
  simpa using this

theorem symbolsDistinct_iff (es : List Entry) : symbolsDistinct es = true ↔ (es.map (·.sym)).Nodup := by
  induction es with
  | nil => simp [symbolsDistinct]
  | cons a es ih => simp [symbolsDistinct, ih]

theorem entryBefore_iff (A : WeightArith) (a b : Entry) :
    entryBefore A a b = true ↔ wLe A a.w b.w = true ∧ (wLe A b.w a.w = true → a.sym.toNat < b.sym.toNat) := by
  unfold entryBefore
  cases wLe A a.w b.w <;> cases wLe A b.w a.w <;> simp

theorem entriesSorted_iff (A : WeightArith) (es : List Entry) :
    entriesSorted A es = true ↔
      es.IsChain fun a b => wLe A a.w b.w = true ∧ (wLe A b.w a.w = true → a.sym.toNat < b.sym.toNat) := by
  induction es with
  | nil => simp [entriesSorted]
  | cons a es ih =>
    cases es with
    | nil => simp [entriesSorted]
    | cons b es => simp [entriesSorted, List.isChain_cons_cons, ih, entryBefore_iff]

theorem contractBreach_eq_none {A : WeightArith} {es : List Entry} :
    contractBreach A es = none ↔ EntryContract A es := by
  have hd := symbolsDistinct_iff es
  have hs := entriesSorted_iff A es
  have hw : (es.all fun e => hasWeight A e.w) = true ↔ ∀ e ∈ es, hasWeight A e.w = true := by simp
  unfold contractBreach EntryContract
  cases h1 : es.all fun e => hasWeight A e.w <;> cases h2 : symbolsDistinct es <;> cases h3 : entriesSorted A es <;>
    rw [h1] at hw <;> rw [h2] at hd <;> rw [h3] at hs <;> simp_all

/-! ## The tree builder -/

/-- Everything `select` can do (R115, R116): it takes the front of one queue and changes nothing else. -/
theorem select_cases {s s1 : State} {a : NodeRef} (h : select s = some (a, s1)) :
    (∃ src, s.source = a :: src ∧ s1 = { s with source := src } ∧
      ∀ b tgt, s.target = b :: tgt → wLe s.params.arith (refWeight s a) (refWeight s b) = true) ∨
    (∃ tgt, s.target = a :: tgt ∧ s1 = { s with target := tgt } ∧
      ∀ b src, s.source = b :: src → wLe s.params.arith (refWeight s b) (refWeight s a) = false) := by
  unfold select at h
  split at h
  · cases h
  · rename_i x src hs ht
    obtain ⟨rfl, rfl⟩ := Prod.mk.inj (Option.some.inj h)
    exact .inl ⟨src, hs, rfl, fun b tgt hb => by simp [ht] at hb⟩
  · rename_i x tgt hs ht
    obtain ⟨rfl, rfl⟩ := Prod.mk.inj (Option.some.inj h)
    exact .inr ⟨tgt, ht, rfl, fun b src hb => by simp [hs] at hb⟩
  · rename_i x src y tgt hs ht
    split at h
    · rename_i hle
      obtain ⟨rfl, rfl⟩ := Prod.mk.inj (Option.some.inj h)
      exact .inl ⟨src, hs, rfl, fun b tgt' hb => by rw [ht] at hb; cases hb; exact hle⟩
    · rename_i hle
      obtain ⟨rfl, rfl⟩ := Prod.mk.inj (Option.some.inj h)
      refine .inr ⟨tgt, ht, rfl, fun b src' hb => ?_⟩
      rw [hs] at hb; cases hb; simpa using hle

/-- A selection finds a node exactly when one is queued (R115). -/
theorem select_isSome {s : State} (h : 0 < s.source.length + s.target.length) : ∃ a s1, select s = some (a, s1) := by
  unfold select
  split
  · rename_i hs ht; simp [hs, ht] at h
  · exact ⟨_, _, rfl⟩
  · exact ⟨_, _, rfl⟩
  · split <;> exact ⟨_, _, rfl⟩

/-- A selection takes one node out of the queues and leaves everything else. -/
theorem select_frame {s s1 : State} {a : NodeRef} (h : select s = some (a, s1)) :
    s1.source.length + s1.target.length + 1 = s.source.length + s.target.length ∧
    s1 = { s with source := s1.source, target := s1.target } := by
  rcases select_cases h with ⟨src, hs, rfl, -⟩ | ⟨tgt, ht, rfl, -⟩
  · refine ⟨?_, rfl⟩; simp only [hs, List.length_cons]; omega
  · refine ⟨?_, rfl⟩; simp only [ht, List.length_cons]; omega

/-- Everything a merge step can do (R117). -/
theorem mergeStep_cases {s t : State} (h : mergeStep s = some t) :
    ∃ a s1 b s2, select s = some (a, s1) ∧ select s1 = some (b, s2) ∧ t = mergeNodes s2 a b := by
  unfold mergeStep at h
  split at h
  · cases h
  · rename_i a s1 h1
    split at h
    · cases h
    · rename_i b s2 h2
      exact ⟨a, s1, b, s2, h1, h2, (Option.some.inj h).symm⟩

/-- What every merge step leaves, and what it writes (R117, R118). -/
theorem mergeStep_frame {s t : State} (h : mergeStep s = some t) :
    t.source.length + t.target.length + 1 = s.source.length + s.target.length ∧ t.target ≠ [] ∧
    t.nnodes = s.nnodes + 1 ∧ t.draws = s.draws + 1 ∧ t.root = s.root ∧ t.ct = s.ct ∧ t.status = s.status ∧
    t.errInfo = s.errInfo ∧ t.fault = s.fault ∧ t.byteOut = s.byteOut ∧ t.charOut = s.charOut ∧
    t.nodeOut = s.nodeOut ∧ t.lookupOut = s.lookupOut ∧ t.ports = s.ports ∧ t.requests = s.requests ∧
    t.params = s.params ∧
    (∀ i, i ≠ s.nnodes → storeRead t.node i = storeRead s.node i) ∧
    ∃ a b, storeRead t.node s.nnodes = some (internalRec (Config.freeSym s.draws)
      (wAdd s.params.arith (refWeight s a) (refWeight s b)) a b) := by
  obtain ⟨a, s1, b, s2, h1, h2, rfl⟩ := mergeStep_cases h
  obtain ⟨l1, e1⟩ := select_frame h1
  obtain ⟨l2, e2⟩ := select_frame h2
  rw [e1] at e2
  generalize s2.source = x at *
  generalize s2.target = y at *
  subst e2
  refine ⟨?_, by simp, rfl, rfl, rfl, rfl, rfl, rfl, rfl, rfl, rfl, rfl, rfl, rfl, rfl, rfl, ?_, a, b, ?_⟩
  · simp only [mergeNodes_source, mergeNodes_target, List.length_append, List.length_cons, List.length_nil] at *
    omega
  · intro i hi
    simpa using storeRead_write_other _ _ hi
  · simp [refWeight, nodeAt]

/-- The loop ends when as many nodes are queued as it has fuel, at least two of them in all, or one and that in `target`
(R122). -/
theorem mergeLoop_ends : ∀ (fuel : Nat) (s : State), s.source.length + s.target.length = fuel →
    (2 ≤ fuel ∨ (fuel = 1 ∧ s.target ≠ [])) →
    ∃ t r, mergeLoop fuel s = some t ∧ t.source = [] ∧ t.target = [r] := by
  intro fuel
  induction fuel with
  | zero => rintro s hs (h | ⟨h, -⟩) <;> omega
  | succ fuel ih =>
    intro s hs hor
    unfold mergeLoop
    split
    · rename_i hend
      simp only [Bool.and_eq_true, List.isEmpty_iff, beq_iff_eq] at hend
      obtain ⟨r, hr⟩ := List.length_eq_one_iff.1 hend.2
      exact ⟨s, r, rfl, hend.1, hr⟩
    · rename_i hnot
      have h2 : 2 ≤ fuel + 1 := by
        rcases hor with h | ⟨h, ht⟩
        · exact h
        · exfalso
          apply hnot
          have hl : 0 < s.target.length := List.length_pos_iff.2 ht
          have : s.source.length = 0 := by omega
          simp [List.length_eq_zero_iff.1 this]
          omega
      obtain ⟨a, s1, h1⟩ := select_isSome (s := s) (by omega)
      obtain ⟨l1, -⟩ := select_frame h1
      obtain ⟨b, s2, hs2⟩ := select_isSome (s := s1) (by omega)
      have hm : mergeStep s = some (mergeNodes s2 a b) := by simp [mergeStep, h1, hs2]
      obtain ⟨lm, ht, -⟩ := mergeStep_frame hm
      simp only [hm]
      apply ih
      · omega
      · rcases Nat.lt_or_ge fuel 2 with hlt | hge
        · exact .inr ⟨by omega, ht⟩
        · exact .inl hge

/-- What a run of the loop leaves as it is. -/
theorem mergeLoop_frame {fuel : Nat} {s t : State} (h : mergeLoop fuel s = some t) :
    t.source = [] ∧ t.target.length = 1 ∧ t.root = s.root ∧ t.ct = s.ct ∧ t.fault = s.fault ∧ t.byteOut = s.byteOut ∧
    t.charOut = s.charOut ∧ t.nodeOut = s.nodeOut ∧ t.lookupOut = s.lookupOut ∧ t.ports = s.ports ∧
    t.requests = s.requests ∧ t.params = s.params := by
  induction fuel generalizing s with
  | zero => cases h
  | succ fuel ih =>
    unfold mergeLoop at h
    split at h
    · rename_i hend
      simp only [Bool.and_eq_true, List.isEmpty_iff, beq_iff_eq] at hend
      cases h
      simp [hend]
    · split at h
      · cases h
      · rename_i s' hm
        obtain ⟨-, -, -, -, h5, h6, -, -, h9, h10, h11, h12, h13, h14, h15, h16, -⟩ := mergeStep_frame hm
        have := ih h
        simp_all

@[simp] theorem loadLeaves_nil (s : State) : loadLeaves s [] = s := rfl

@[simp] theorem loadLeaves_cons (s : State) (e : Entry) (es : List Entry) :
    loadLeaves s (e :: es) = loadLeaves (loadLeaf s e) es := rfl

/-- What loading the leaves writes and what it leaves (R114). -/
theorem loadLeaves_frame (es : List Entry) (s : State) :
    (loadLeaves s es).source = s.source ++ (List.range' s.nnodes es.length).map (BitVec.ofNat 9) ∧
    (loadLeaves s es).nnodes = s.nnodes + es.length ∧
    loadLeaves s es = { s with node := (loadLeaves s es).node, nnodes := (loadLeaves s es).nnodes,
                               source := (loadLeaves s es).source } := by
  induction es generalizing s with
  | nil => simp
  | cons e es ih =>
    obtain ⟨h1, h2, h3⟩ := ih (loadLeaf s e)
    refine ⟨?_, ?_, ?_⟩
    · simp only [loadLeaves_cons, h1, List.length_cons, List.range'_succ]; simp
    · simp only [loadLeaves_cons, h2, List.length_cons]; simp; omega
    · rw [loadLeaves_cons]; exact h3

/-- Everything `TB_BUILD` can do (R119): a stop in the fault, the fault on a short list, a refusal of a broken
contract, or the built tree. -/
theorem execTbBuild_cases (s : State) :
    (s.fault = true ∧ execTbBuild s = .fault .blockFaulted) ∨
    (s.fault = false ∧ s.ports.entryIn.length < 2 ∧ execTbBuild s = .next (raise .structuralPrecondition s)) ∨
    (s.fault = false ∧ 2 ≤ s.ports.entryIn.length ∧ ¬ EntryContract s.params.arith s.ports.entryIn ∧
      ∃ why, execTbBuild s = .refused why) ∨
    (s.fault = false ∧ ContractOk s ∧
      ∃ u r, mergeLoop s.ports.entryIn.length (loaded s) = some u ∧ u.source = [] ∧ u.target = [r] ∧
        execTbBuild s = .next { u with root := r, target := [], status := .ok, errInfo := 0 }) := by
  unfold execTbBuild
  cases hf : s.fault
  · simp only [Bool.false_eq_true, if_false, false_and, false_or, true_and]
    by_cases hn : s.ports.entryIn.length < 2
    · left; simp [Config.minLeaves, hn]
    · right
      have hn' : ¬ s.ports.entryIn.length < Config.minLeaves := hn
      simp only [hn', if_false]
      cases hb : contractBreach s.params.arith s.ports.entryIn with
      | some why =>
        left
        refine ⟨by omega, ?_, why, rfl⟩
        intro h; rw [contractBreach_eq_none.2 h] at hb; cases hb
      | none =>
        right
        obtain ⟨h1, h2, h3⟩ := loadLeaves_frame s.ports.entryIn (startBuild s)
        have hl : (loaded s).source.length = s.ports.entryIn.length := by
          have : (loaded s).source = _ := h1
          simp [this]
        have ht : (loaded s).target = [] := by
          have : loaded s = _ := h3
          rw [this]; rfl
        obtain ⟨u, r, hu, hsrc, htgt⟩ := mergeLoop_ends s.ports.entryIn.length (loaded s)
          (by rw [hl, ht]; rfl) (.inl (by omega))
        refine ⟨⟨by simp [Config.minLeaves]; omega, contractBreach_eq_none.1 hb⟩, u, r, hu, hsrc, htgt, ?_⟩
        have hu' : mergeLoop s.ports.entryIn.length (loadLeaves (startBuild s) s.ports.entryIn) = some u := hu
        simp only [hu', takeRoot_cons _ _ _ htgt]
        rfl
  · left; simp

/-- Everything `TB_NODE` can do (R130). -/
theorem execTbNode_cases (idx : Nat) (s : State) :
    (s.fault = true ∧ execTbNode idx s = .fault .blockFaulted) ∨
    (s.fault = false ∧ idx < s.nnodes ∧ execTbNode idx s = .next (finish { s with nodeOut := .ofRec true (nodeAt s idx) })) ∨
    (s.fault = false ∧ s.nnodes ≤ idx ∧ execTbNode idx s =
      .next (finish { s with nodeOut := .ofRec false (Config.freeNodeOut s.draws), draws := s.draws + 1 })) := by
  unfold execTbNode
  cases hf : s.fault
  · by_cases hi : idx < s.nnodes
    · simp [hi]
    · simp [hi]
      omega
  · simp

/-! ## The code table deriver -/

/-- Everything one step of the walk can do (R142). -/
theorem walk_succ (s : State) (fuel i : Nat) (path : List Bit) (table : List (Nat × CodeRec)) :
    walk s (fuel + 1) i path table =
      match (nodeAt s i).kind with
      | .leaf =>
        match storeRead table (nodeAt s i).sym.toNat with
        | some _ => .error .duplicate
        | none => .ok (storeWrite table (nodeAt s i).sym.toNat (codeRec path))
      | .internal =>
        match walk s fuel (nodeAt s i).left.toNat (path ++ [false]) table with
        | .error e => .error e
        | .ok table1 => walk s fuel (nodeAt s i).right.toNat (path ++ [true]) table1 := rfl

/-- The walk depends on the node store only (R47: `CD_DERIVE` reads `node` and `root`). -/
theorem walk_congr {s t : State} (h : ∀ i, nodeAt t i = nodeAt s i) (fuel i : Nat) (path : List Bit)
    (table : List (Nat × CodeRec)) : walk t fuel i path table = walk s fuel i path table := by
  induction fuel generalizing i path table with
  | zero => rfl
  | succ fuel ih => simp only [walk_succ, h, ih]

/-- The walk keeps the table canonical: it writes at symbols only (R27). -/
theorem walk_storeWf {s : State} : ∀ {fuel i : Nat} {path : List Bit} {table table' : List (Nat × CodeRec)},
    storeWf Config.maxLeaves table = true → walk s fuel i path table = .ok table' →
    storeWf Config.maxLeaves table' = true := by
  intro fuel
  induction fuel with
  | zero => intro i path table table' _ h; cases h
  | succ fuel ih =>
    intro i path table table' hw h
    rw [walk_succ] at h
    split at h
    · split at h
      · cases h
      · cases h; exact storeWf_write hw (BitVec.isLt _) _
    · split at h
      · cases h
      · rename_i hl
        exact ih (ih hw hl) h

/-- Everything `CD_DERIVE` can do (R142). -/
theorem execCdDerive_cases (s : State) :
    (s.fault = true ∧ execCdDerive s = .fault .blockFaulted) ∨
    (s.fault = false ∧ ∃ table, deriveTable s = .ok table ∧ execCdDerive s = .next (finish { s with ct := table })) ∨
    (s.fault = false ∧ deriveTable s = .error .endless ∧ execCdDerive s = .fault .walkDoesNotEnd) ∨
    (s.fault = false ∧ deriveTable s = .error .duplicate ∧ execCdDerive s = .refused .duplicateLeafSymbol) := by
  unfold execCdDerive
  cases hf : s.fault
  · cases hd : deriveTable s with
    | ok table => simp
    | error e => cases e <;> simp
  · simp

/-- Everything `CD_LOOKUP` can do (R150). -/
theorem execCdLookup_cases (sym : Nat) (s : State) :
    (s.fault = true ∧ execCdLookup sym s = .fault .blockFaulted) ∨
    (s.fault = false ∧ ∃ r, storeRead s.ct sym = some r ∧
      execCdLookup sym s = .next (finish { s with lookupOut := .ofRec true r })) ∨
    (s.fault = false ∧ storeRead s.ct sym = none ∧ execCdLookup sym s =
      .next (finish { s with lookupOut := .ofRec false (Config.freeCode s.draws), draws := s.draws + 1 })) := by
  unfold execCdLookup
  cases hf : s.fault
  · cases hr : storeRead s.ct sym <;> simp
  · simp

/-! ## The bit packer and unpacker -/

/-- Everything `BP_PACK` can do (R169). -/
theorem execBpPack_cases (s : State) :
    (s.fault = true ∧ execBpPack s = .fault .blockFaulted) ∨
    (s.fault = false ∧ ¬ WithinCap s s.ports.charIn.length ∧ execBpPack s = .refused .overCapBits) ∨
    (s.fault = false ∧ WithinCap s s.ports.charIn.length ∧ ∃ k, firstBadChar s.ports.charIn = some k ∧
      execBpPack s = .next { s with byteOut := [], status := .invalidBitstring, errInfo := k }) ∨
    (s.fault = false ∧ WithinCap s s.ports.charIn.length ∧ BitChars s.ports.charIn ∧ s.ports.sinkOk = false ∧
      execBpPack s = .next { s with byteOut := [], status := .ioFailure, errInfo := 0 }) ∨
    (s.fault = false ∧ WithinCap s s.ports.charIn.length ∧ BitChars s.ports.charIn ∧ s.ports.sinkOk = true ∧
      execBpPack s = .next { s with byteOut := tobytes (frame (payload s.ports.charIn)), status := .ok, errInfo := 0 }) := by
  unfold execBpPack
  cases hf : s.fault
  · cases hc : overCap s.params s.ports.charIn.length
    · have hw := overCap_eq_false.1 hc
      cases hb : firstBadChar s.ports.charIn with
      | some k => simp [raise, causeStatus, causeInfo]; exact hw
      | none =>
        have hv := firstBadChar_eq_none.1 hb
        cases hk : s.ports.sinkOk <;> simp [raise, causeStatus, causeInfo, finish] <;> exact ⟨hw, hv⟩
    · have hw : ¬ WithinCap s s.ports.charIn.length := by
        intro h; rw [← overCap_eq_false, hc] at h; cases h
      simp [hw]
  · simp

/-- Everything `BU_UNPACK` can do (R187). -/
theorem execBuUnpack_cases (s : State) :
    (s.fault = true ∧ execBuUnpack s = .fault .blockFaulted) ∨
    (s.fault = false ∧ s.ports.srcOk = false ∧
      execBuUnpack s = .next { s with charOut := [], status := .ioFailure, errInfo := 0 }) ∨
    (s.fault = false ∧ s.ports.srcOk = true ∧ ¬ WithinCap s (8 * s.ports.byteIn.length) ∧
      execBuUnpack s = .refused .overCapBits) ∨
    (s.fault = false ∧ s.ports.srcOk = true ∧ WithinCap s (8 * s.ports.byteIn.length) ∧
      execBuUnpack s = .next { s with charOut := (unframe (unbits s.ports.byteIn)).map charOf, status := .ok, errInfo := 0 }) := by
  unfold execBuUnpack
  cases hf : s.fault
  · cases hk : s.ports.srcOk
    · simp [raise, causeStatus, causeInfo]
    · cases hc : overCap s.params (8 * s.ports.byteIn.length)
      · have hw := overCap_eq_false.1 hc
        simp [finish]; exact hw
      · have hw : ¬ WithinCap s (8 * s.ports.byteIn.length) := by
          intro h; rw [← overCap_eq_false, hc] at h; cases h
        simp [hw]
  · simp

/-! ## Steps -/

/-- With no reset to come, no reset is found. -/
theorem afterReset_eq_none {rs : List Request} (h : ∀ r ∈ rs, ∃ c, r = .command c) : afterReset rs = none := by
  induction rs with
  | nil => rfl
  | cons r rs ih =>
    obtain ⟨c, rfl⟩ := h r (by simp)
    exact ih fun x hx => h x (by simp [hx])

/-- The first reset is found behind any commands. -/
theorem afterReset_commands (cs : List Command) (r : Request) (rest : List Request)
    (hr : r = .reset ∨ ∃ c, r = .resetDuring c) : afterReset (cs.map .command ++ r :: rest) = some rest := by
  induction cs with
  | nil => rcases hr with rfl | ⟨c, rfl⟩ <;> rfl
  | cons c cs ih => exact ih

/-- What is found is the first reset. -/
theorem afterReset_eq_some {rs rest : List Request} (h : afterReset rs = some rest) :
    ∃ (cs : List Command) (r : Request), rs = cs.map .command ++ r :: rest ∧ (r = .reset ∨ ∃ c, r = .resetDuring c) := by
  induction rs with
  | nil => cases h
  | cons r rs ih =>
    cases r with
    | command c =>
      obtain ⟨cs, r, rfl, hr⟩ := ih h
      exact ⟨c :: cs, r, rfl, hr⟩
    | reset => cases h; exact ⟨[], _, rfl, .inl rfl⟩
    | resetDuring c => cases h; exact ⟨[], _, rfl, .inr ⟨c, rfl⟩⟩

/-- Everything a step can do (R64, R241, R263, U14). -/
theorem step_cases (s : State) :
    (s.fault = false ∧ s.requests = [] ∧ step s = .next s) ∨
    (s.fault = false ∧ ∃ c rest, s.requests = .command c :: rest ∧ step s = runCommand c (popRequest s rest)) ∨
    (∃ (cs : List Command) (r : Request) (rest : List Request), s.requests = cs.map .command ++ r :: rest ∧
      (cs = [] ∨ s.fault = true) ∧ (r = .reset ∨ ∃ c, r = .resetDuring c) ∧
      step s = .next (resetBlock (popRequest s rest))) ∨
    (s.fault = true ∧ afterReset s.requests = none ∧ step s = .fault .blockFaulted) := by
  unfold step
  by_cases hf : s.fault = false
  · simp only [hf, Bool.false_eq_true, if_false]
    split
    · rename_i h; exact .inl ⟨by trivial, h, rfl⟩
    · rename_i r rest h
      cases r with
      | command c => exact .inr (.inl ⟨by trivial, c, rest, h, rfl⟩)
      | reset => exact .inr (.inr (.inl ⟨[], _, rest, h, .inl rfl, .inl rfl, rfl⟩))
      | resetDuring c => exact .inr (.inr (.inl ⟨[], _, rest, h, .inl rfl, .inr ⟨c, rfl⟩, rfl⟩))
  · replace hf : s.fault = true := by simpa using hf
    simp only [hf, if_true, serveInFault]
    cases h : afterReset s.requests with
    | none => exact .inr (.inr (.inr ⟨by trivial, rfl, rfl⟩))
    | some rest =>
      obtain ⟨cs, r, hq, hr⟩ := afterReset_eq_some h
      exact .inr (.inr (.inl ⟨cs, r, rest, hq, .inr (by trivial), hr, rfl⟩))

/-- A command is its decoded operation, or the report of an illegal word (R87, R91). -/
theorem runCommand_cases (c : Command) (s : State) :
    (∃ i, decode c.cw = .ok i ∧ runCommand c s = exec i (present s c.operands)) ∨
    (∃ e, decode c.cw = .error e ∧ runCommand c s = execIllegal c.cw (present s c.operands)) := by
  unfold runCommand
  cases h : decode c.cw with
  | ok i => exact .inl ⟨i, rfl, rfl⟩
  | error e => exact .inr ⟨e, rfl, rfl⟩

/-- In the fault no operation and no illegal word is executed (R241, U14). -/
theorem exec_in_fault {s : State} (h : s.fault = true) (i : Instr) : exec i s = .fault .blockFaulted := by
  cases i <;> simp [exec, execTbBuild, execTbNode, execCdDerive, execCdLookup, execBpPack, execBuUnpack, h]

/-! ## The abstract tree -/

/-- The tree is `Empty` exactly when the root is `NONE` (R25). -/
theorem absTree_eq_empty {s : State} : absTree s = .empty ↔ s.root = Config.noneRef := by
  unfold absTree
  by_cases h : s.root = Config.noneRef
  · simp [h]
  · cases absAt s Config.maxNodes s.root.toNat <;> simp [h]

/-! ## The canonical form is kept -/

theorem freeTable_storeWf (d : Nat) : storeWf Config.maxLeaves (freeTable d) = true := by
  have key : ∀ n lo, lo + n ≤ Config.maxLeaves →
      storeWfFrom Config.maxLeaves lo ((List.range' lo n).filterMap fun k =>
        (Config.freeEntry d k).map fun r => (k, r)) = true := by
    intro n
    induction n with
    | zero => intro lo _; rfl
    | succ n ih =>
      intro lo hlo
      have h := ih (lo + 1) (by omega)
      rw [List.range'_succ]
      cases hk : Config.freeEntry d lo with
      | none =>
        simp only [List.filterMap_cons, hk, Option.map_none]
        exact storeWfFrom_weaken h (by omega)
      | some r =>
        simp only [List.filterMap_cons, hk, Option.map_some, storeWfFrom, Bool.and_eq_true, decide_eq_true_eq]
        exact ⟨⟨le_rfl, by omega⟩, h⟩
  unfold storeWf freeTable
  rw [List.range_eq_range']
  exact key _ _ (by simp)

/-- Both stores of the reset state are canonical. -/
theorem reset_storeWf : storeWf Config.maxNodes State.reset.node = true ∧ storeWf Config.maxLeaves State.reset.ct = true :=
  ⟨rfl, rfl⟩

end Sys2Proof.Machine
end

