-- ==== Sys2Proof/Laws/PerInstr.lean ====
section
/-! SUPPORT. Facts about every instruction as syntax, one lemma per constructor. -/

namespace Sys2Proof.Laws.Fields

/-- The command word of an instruction holds its operation number in `op`, 0 in `z` and its immediate in `arg` (R87,
R90). -/
def Statement (i : Instr) : Prop :=
  i.wellFormed = true → cmdOp (encode i) = i.op ∧ cmdZ (encode i) = 0#3 ∧ cmdArg (encode i) = i.arg

theorem fields_of_cmdWord (op : BitVec 4) (z : BitVec 3) (arg : BitVec 9) :
    cmdOp (cmdWord op z arg) = op ∧ cmdZ (cmdWord op z arg) = z ∧ cmdArg (cmdWord op z arg) = arg := by
  have hop := op.isLt
  have hz := z.isLt
  have harg := arg.isLt
  have hw : (cmdWord op z arg).toNat = op.toNat * 4096 + z.toNat * 512 + arg.toNat := by
    simp only [cmdWord, BitVec.toNat_cast, BitVec.toNat_append]
    rw [← Nat.shiftLeft_add_eq_or_of_lt hz, ← Nat.shiftLeft_add_eq_or_of_lt harg]
    simp only [Nat.shiftLeft_eq]; omega
  refine ⟨?_, ?_, ?_⟩ <;> apply BitVec.eq_of_toNat_eq <;>
    simp only [cmdOp, cmdZ, cmdArg, BitVec.extractLsb'_toNat, hw, Nat.shiftRight_eq_div_pow] <;> omega

theorem tbBuild : Statement .tbBuild := fun _ => fields_of_cmdWord _ _ _
theorem tbNode (idx : Nat) : Statement (.tbNode idx) := fun _ => fields_of_cmdWord _ _ _
theorem cdDerive : Statement .cdDerive := fun _ => fields_of_cmdWord _ _ _
theorem cdLookup (sym : Nat) : Statement (.cdLookup sym) := fun _ => fields_of_cmdWord _ _ _
theorem bpPack : Statement .bpPack := fun _ => fields_of_cmdWord _ _ _
theorem buUnpack : Statement .buUnpack := fun _ => fields_of_cmdWord _ _ _

end Sys2Proof.Laws.Fields
end

