-- ==== Sys2Proof/Laws/Weights.lean ====
section
/-! SUPPORT. Weights stand for rational numbers; binary64 rounding; every instantiation of `WeightArith` meets the laws of
R13 and R202. -/

namespace Sys2Proof.Machine

/-- The number a weight stands for. -/
def weightVal (a : Weight) : ℚ := (a.num : ℚ) / a.den

theorem weightWf_iff {a : Weight} : weightWf a = true ↔ a.den ≠ 0 ∧ Nat.gcd a.num a.den = 1 := by
  simp [weightWf]

theorem weightVal_nonneg (a : Weight) : 0 ≤ weightVal a := by unfold weightVal; positivity

/-- `w_le` is the order of the real numbers (R13 W3). -/
theorem ratioLe_iff {a b : Weight} (ha : a.den ≠ 0) (hb : b.den ≠ 0) :
    ratioLe a b = true ↔ weightVal a ≤ weightVal b := by
  have ha' : (0 : ℚ) < a.den := by positivity
  have hb' : (0 : ℚ) < b.den := by positivity
  unfold ratioLe weightVal
  rw [div_le_div_iff₀ ha' hb', decide_eq_true_eq]
  exact_mod_cast Iff.rfl

theorem ratio_den_ne {n d : Nat} (hd : d ≠ 0) : (ratio n d).den ≠ 0 := by
  have hg : 0 < Nat.gcd n d := Nat.gcd_pos_of_pos_right _ (Nat.pos_of_ne_zero hd)
  have := Nat.div_pos (Nat.le_of_dvd (Nat.pos_of_ne_zero hd) (Nat.gcd_dvd_right n d)) hg
  exact Nat.ne_of_gt this

theorem ratio_wf {n d : Nat} (hd : d ≠ 0) : weightWf (ratio n d) = true := by
  have hg : 0 < Nat.gcd n d := Nat.gcd_pos_of_pos_right _ (Nat.pos_of_ne_zero hd)
  exact weightWf_iff.2 ⟨ratio_den_ne hd, Nat.coprime_div_gcd_div_gcd hg⟩

theorem ratio_val {n d : Nat} (hd : d ≠ 0) : weightVal (ratio n d) = (n : ℚ) / d := by
  have hg : 0 < Nat.gcd n d := Nat.gcd_pos_of_pos_right _ (Nat.pos_of_ne_zero hd)
  have hg' : (Nat.gcd n d : ℚ) ≠ 0 := by positivity
  unfold weightVal ratio
  rw [Nat.cast_div (Nat.gcd_dvd_left n d) hg', Nat.cast_div (Nat.gcd_dvd_right n d) hg']
  field_simp

theorem exactAdd_wf {a b : Weight} (ha : a.den ≠ 0) (hb : b.den ≠ 0) : weightWf (exactAdd a b) = true :=
  ratio_wf (Nat.mul_ne_zero ha hb)

/-- The exact sum stands for the sum. -/
theorem exactAdd_val {a b : Weight} (ha : a.den ≠ 0) (hb : b.den ≠ 0) :
    weightVal (exactAdd a b) = weightVal a + weightVal b := by
  have ha' : (a.den : ℚ) ≠ 0 := by exact_mod_cast ha
  have hb' : (b.den : ℚ) ≠ 0 := by exact_mod_cast hb
  unfold exactAdd
  rw [ratio_val (Nat.mul_ne_zero ha hb)]
  unfold weightVal
  push_cast
  field_simp


/-- Weights in lowest terms that stand for one number are equal (log entry 12). -/
theorem eq_of_val {a b : Weight} (ha : weightWf a = true) (hb : weightWf b = true)
    (h : weightVal a = weightVal b) : a = b := by
  obtain ⟨ha0, hag⟩ := weightWf_iff.1 ha
  obtain ⟨hb0, hbg⟩ := weightWf_iff.1 hb
  have ha' : (a.den : ℚ) ≠ 0 := by exact_mod_cast ha0
  have hb' : (b.den : ℚ) ≠ 0 := by exact_mod_cast hb0
  have hx : a.num * b.den = b.num * a.den := by
    unfold weightVal at h; rw [div_eq_div_iff ha' hb'] at h; exact_mod_cast h
  have hd : a.den = b.den := Nat.dvd_antisymm
    (Nat.Coprime.dvd_of_dvd_mul_left (Nat.Coprime.symm hag) (hx ▸ Nat.dvd_mul_left _ _))
    (Nat.Coprime.dvd_of_dvd_mul_left (Nat.Coprime.symm hbg) (hx ▸ Nat.dvd_mul_left _ _))
  rw [hd] at hx
  have hn := Nat.eq_of_mul_eq_mul_right (Nat.pos_of_ne_zero hb0) hx
  cases a; cases b; simp_all

theorem ratio_self {a : Weight} (h : weightWf a = true) : ratio a.num a.den = a := by
  obtain ⟨-, hg⟩ := weightWf_iff.1 h
  simp [ratio, hg]

theorem zeroWeight_wf : weightWf zeroWeight = true := by decide

theorem exactAdd_zero {a : Weight} (h : weightWf a = true) : exactAdd zeroWeight a = a := by
  simpa [exactAdd, zeroWeight] using ratio_self h

theorem exactAdd_monotone {a a' b b' : Weight} (ha : a.den ≠ 0) (ha' : a'.den ≠ 0) (hb : b.den ≠ 0) (hb' : b'.den ≠ 0)
    (h1 : ratioLe a a' = true) (h2 : ratioLe b b' = true) : ratioLe (exactAdd a b) (exactAdd a' b') = true := by
  refine (ratioLe_iff (weightWf_iff.1 (exactAdd_wf ha hb)).1 (weightWf_iff.1 (exactAdd_wf ha' hb')).1).2 ?_
  rw [exactAdd_val ha hb, exactAdd_val ha' hb']
  exact add_le_add ((ratioLe_iff ha ha').1 h1) ((ratioLe_iff hb hb').1 h2)

theorem ratioLe_exactAdd_left {a b : Weight} (ha : a.den ≠ 0) (hb : b.den ≠ 0) : ratioLe a (exactAdd a b) = true := by
  refine (ratioLe_iff ha (weightWf_iff.1 (exactAdd_wf ha hb)).1).2 ?_
  rw [exactAdd_val ha hb]
  exact le_add_of_nonneg_right (weightVal_nonneg b)

theorem ratioLe_exactAdd_right {a b : Weight} (ha : a.den ≠ 0) (hb : b.den ≠ 0) : ratioLe b (exactAdd a b) = true := by
  refine (ratioLe_iff hb (weightWf_iff.1 (exactAdd_wf ha hb)).1).2 ?_
  rw [exactAdd_val ha hb]
  exact le_add_of_nonneg_left (weightVal_nonneg a)

theorem ratioLe_refl (a : Weight) : ratioLe a a = true := by simp [ratioLe]

theorem ratioLe_total (a b : Weight) : ratioLe a b = true ∨ ratioLe b a = true := by
  simp only [ratioLe, decide_eq_true_eq]; exact Nat.le_total _ _

theorem ratioLe_trans {a b c : Weight} (ha : weightWf a = true) (hb : weightWf b = true) (hc : weightWf c = true)
    (h1 : ratioLe a b = true) (h2 : ratioLe b c = true) : ratioLe a c = true := by
  have ha := (weightWf_iff.1 ha).1
  have hb := (weightWf_iff.1 hb).1
  have hc := (weightWf_iff.1 hc).1
  exact (ratioLe_iff ha hc).2 (((ratioLe_iff ha hb).1 h1).trans ((ratioLe_iff hb hc).1 h2))

/-- Ratios over one denominator compare as their numerators. -/
theorem ratioLe_ratio {n m d : Nat} (hd : d ≠ 0) : ratioLe (ratio n d) (ratio m d) = true ↔ n ≤ m := by
  have hd' : (0 : ℚ) < d := by positivity
  rw [ratioLe_iff (ratio_den_ne hd) (ratio_den_ne hd), ratio_val hd, ratio_val hd, div_le_div_iff_of_pos_right hd']
  exact_mod_cast Iff.rfl

theorem ratio_zero {d : Nat} (hd : d ≠ 0) : ratio 0 d = zeroWeight := by
  simp [ratio, zeroWeight, Nat.div_self (Nat.pos_of_ne_zero hd)]

theorem ratio_whole {d : Nat} (hd : d ≠ 0) : ratio d d = oneWeight := by
  simp [ratio, oneWeight, Nat.div_self (Nat.pos_of_ne_zero hd)]

/-- Weights in lowest terms stand for real numbers that are not negative, in their order (R13 W3). -/
theorem ratio_realOrder {has : Weight → Bool} (h : ∀ a, has a = true → weightWf a = true) :
    RealOrder has ratioLe fun a => ((weightVal a : ℚ) : ℝ) := by
  intro a b ha hb
  refine ⟨Rat.cast_nonneg.2 (weightVal_nonneg a), ?_⟩
  rw [ratioLe_iff (weightWf_iff.1 (h a ha)).1 (weightWf_iff.1 (h b hb)).1]
  exact Rat.cast_le.symm

theorem zeroWeight_val : weightVal zeroWeight = 0 := by simp [weightVal, zeroWeight]

theorem oneWeight_val : weightVal oneWeight = 1 := by simp [weightVal, oneWeight]

/-- The numbers that ratios stand for, as real numbers. -/
abbrev realVal (a : Weight) : ℝ := ((weightVal a : ℚ) : ℝ)

/-- "Exact addition of non-negative rationals meets W1 to W4" (R13). -/
theorem exact_lawful : SumLaws weightWf ratioLe exactAdd where
  closed _ _ ha hb := exactAdd_wf (weightWf_iff.1 ha).1 (weightWf_iff.1 hb).1
  reflexive _ _ := ratioLe_refl _
  transitive _ _ _ ha hb hc h1 h2 := ratioLe_trans ha hb hc h1 h2
  total _ _ _ _ := ratioLe_total _ _
  monotone _ _ _ _ ha ha' hb hb' h1 h2 := exactAdd_monotone (weightWf_iff.1 ha).1 (weightWf_iff.1 ha').1
    (weightWf_iff.1 hb).1 (weightWf_iff.1 hb').1 h1 h2
  real := ⟨_, ratio_realOrder fun _ h => h⟩
  leftLe _ _ ha hb := ratioLe_exactAdd_left (weightWf_iff.1 ha).1 (weightWf_iff.1 hb).1
  rightLe _ _ ha hb := ratioLe_exactAdd_right (weightWf_iff.1 ha).1 (weightWf_iff.1 hb).1

/-- The exact quotients meet R202 for every text. -/
theorem exact_quot_lawful {total : Nat} (ht : total ≠ 0) :
    QuotLaws weightWf ratioLe realVal total (fun c => ratio c total) ∧
      RoundedQuot weightWf realVal total (fun c => ratio c total) ∧ Different ratioLe total fun c => ratio c total := by
  refine ⟨⟨fun _ _ => ratio_wf ht, fun _ _ h _ => (ratioLe_ratio ht).2 h, ?_, ?_⟩, fun c _ => ?_, fun c c' h _ => ?_⟩
  · show realVal (ratio 0 total) = 0
    rw [realVal, ratio_zero ht, zeroWeight_val, Rat.cast_zero]
  · show realVal (ratio total total) = 1
    rw [realVal, ratio_whole ht, oneWeight_val, Rat.cast_one]
  · have hx : ((c : ℝ) / total) = realVal (ratio c total) := by rw [realVal, ratio_val ht]; push_cast; rfl
    rw [hx]
    exact .inl ⟨le_rfl, fun _ _ h => h⟩
  · rw [Bool.eq_false_iff, Ne, ratioLe_ratio ht]
    omega

/-- A set `W` can be finite: the whole numbers 0 to 255 with a sum that stays at 255 meet R13. -/
theorem finite_lawful : SumLaws (fun a => a.den == 1 && decide (a.num ≤ 255)) ratioLe
    (fun a b => { num := min (a.num + b.num) 255, den := 1 }) where
  closed _ _ _ _ := by simp
  reflexive _ _ := ratioLe_refl _
  transitive a b c ha hb hc h1 h2 := by simp_all [ratioLe]; omega
  total _ _ _ _ := ratioLe_total _ _
  monotone a a' b b' ha ha' hb hb' h1 h2 := by simp_all [ratioLe]; omega
  real := ⟨_, ratio_realOrder fun a h => by simp_all [weightWf]⟩
  leftLe a b ha hb := by simp_all [ratioLe]
  rightLe a b ha hb := by simp_all [ratioLe]

/-! ## Binary64 rounding -/

/-- A quotient and a remainder rounded to the nearer multiple, ties to the even one. -/
def roundHalfEven (x unit : Nat) : Nat :=
  if 2 * (x % unit) > unit || (2 * (x % unit) == unit && x / unit % 2 == 1) then x / unit + 1 else x / unit

/-- The binary64 exponent that `x / d` multiples of `2^-1074` fall under. -/
def roundShift (x d : Nat) : Nat := Nat.log2 (x / d) - 52

theorem roundUnits_eq (n d : Nat) : roundUnits n d =
    roundHalfEven (n * 2 ^ 1074) (d * 2 ^ roundShift (n * 2 ^ 1074) d) * 2 ^ roundShift (n * 2 ^ 1074) d := rfl

theorem roundHalfEven_le (x unit : Nat) : roundHalfEven x unit ≤ x / unit + 1 := by
  unfold roundHalfEven; split <;> omega

theorem le_roundHalfEven (x unit : Nat) : x / unit ≤ roundHalfEven x unit := by
  unfold roundHalfEven; split <;> omega

theorem roundHalfEven_mul {m unit : Nat} (hu : unit ≠ 0) : roundHalfEven (m * unit) unit = m := by
  have h1 : m * unit / unit = m := Nat.mul_div_cancel _ (Nat.pos_of_ne_zero hu)
  have h2 : m * unit % unit = 0 := Nat.mul_mod_left _ _
  have h3 : ¬ (0 = unit) := fun h => hu h.symm
  simp [roundHalfEven, h1, h2, h3]

/-- The error of rounding is at most half a unit. -/
theorem roundHalfEven_error {x unit : Nat} (hu : unit ≠ 0) :
    2 * (roundHalfEven x unit * unit) ≤ 2 * x + unit ∧ 2 * x ≤ 2 * (roundHalfEven x unit * unit) + unit := by
  have h := Nat.div_add_mod x unit
  have hr := Nat.mod_lt x (Nat.pos_of_ne_zero hu)
  rw [Nat.mul_comm] at h
  unfold roundHalfEven
  split
  · rename_i hc
    simp only [Bool.or_eq_true, decide_eq_true_eq, Bool.and_eq_true, beq_iff_eq] at hc
    rw [Nat.add_mul]
    omega
  · rename_i hc
    simp only [Bool.or_eq_true, decide_eq_true_eq, Bool.and_eq_true, beq_iff_eq, not_or] at hc
    omega

theorem roundHalfEven_mono {x x' unit : Nat} (h : x ≤ x') : roundHalfEven x unit ≤ roundHalfEven x' unit := by
  rcases Nat.lt_or_ge (x / unit) (x' / unit) with hlt | hge
  · have h1 := roundHalfEven_le x unit
    have h2 := le_roundHalfEven x' unit
    omega
  · have hq : x / unit = x' / unit := Nat.le_antisymm (Nat.div_le_div_right h) hge
    have h1 := Nat.div_add_mod x unit
    have h2 := Nat.div_add_mod x' unit
    rw [← hq] at h2
    unfold roundHalfEven
    rw [← hq]
    split <;> split <;> rename_i c1 c2 <;>
      simp only [Bool.or_eq_true, decide_eq_true_eq, Bool.and_eq_true, beq_iff_eq, not_or, not_and] at c1 c2 <;> omega

theorem roundHalfEven_scale {x unit k : Nat} (hk : k ≠ 0) :
    roundHalfEven (x * k) (unit * k) = roundHalfEven x unit := by
  have hk' := Nat.pos_of_ne_zero hk
  have h1 : x * k / (unit * k) = x / unit := Nat.mul_div_mul_right _ _ hk'
  have h2 : x * k % (unit * k) = x % unit * k := Nat.mul_mod_mul_right _ _ _
  have h3 : 2 * (x % unit * k) = (2 * (x % unit)) * k := by ring
  have h4 : ((2 * (x % unit)) * k > unit * k) ↔ 2 * (x % unit) > unit := Nat.mul_lt_mul_right hk'
  have h5 : ((2 * (x % unit)) * k = unit * k) ↔ 2 * (x % unit) = unit := Nat.mul_left_inj hk
  unfold roundHalfEven
  rw [h1, h2, h3]
  simp only [h4, Bool.or_eq_true, decide_eq_true_eq, Bool.and_eq_true, beq_iff_eq, h5]

/-- Rounding sees the value of `n / d` only. -/
theorem roundUnits_scale {n d k : Nat} (hk : k ≠ 0) : roundUnits (n * k) (d * k) = roundUnits n d := by
  have hs : roundShift (n * k * 2 ^ 1074) (d * k) = roundShift (n * 2 ^ 1074) d := by
    unfold roundShift
    rw [Nat.mul_right_comm, Nat.mul_div_mul_right _ _ (Nat.pos_of_ne_zero hk)]
  rw [roundUnits_eq, roundUnits_eq, hs, Nat.mul_right_comm n, Nat.mul_right_comm d, roundHalfEven_scale hk]

theorem lt_two_pow_roundShift (x d : Nat) : x / d < 2 ^ (53 + roundShift x d) := by
  refine Nat.lt_log2_self.trans_le (Nat.pow_le_pow_right (by omega) ?_)
  unfold roundShift; omega

theorem two_pow_roundShift_le {x d : Nat} (h : roundShift x d ≠ 0) : 2 ^ (52 + roundShift x d) ≤ x / d := by
  unfold roundShift at *
  have h0 : x / d ≠ 0 := by
    intro h0; rw [h0] at h; simp at h
  have := Nat.log2_self_le h0
  have he : 52 + (Nat.log2 (x / d) - 52) = Nat.log2 (x / d) := by omega
  rwa [he]

theorem roundHalfEven_shift_le (x d : Nat) : roundHalfEven x (d * 2 ^ roundShift x d) ≤ 2 ^ 53 := by
  have h1 := roundHalfEven_le x (d * 2 ^ roundShift x d)
  have h2 : x / (d * 2 ^ roundShift x d) < 2 ^ 53 := by
    rw [← Nat.div_div_eq_div_mul, Nat.div_lt_iff_lt_mul (by positivity), ← pow_add]
    exact lt_two_pow_roundShift x d
  omega

/-- A number of 53 significant bits. -/
abbrev Representable (u : Nat) : Prop := ∃ m k, m < 2 ^ 53 ∧ u = m * 2 ^ k

/-- A representable number is a multiple of the unit of its binade. -/
theorem Representable.dvd {u j : Nat} (h : Representable u) (hj : 2 ^ (52 + j) ≤ u) : 2 ^ j ∣ u := by
  obtain ⟨m, k, hm, rfl⟩ := h
  have h1 : 2 ^ (52 + j) < 2 ^ (53 + k) := by
    calc 2 ^ (52 + j) ≤ m * 2 ^ k := hj
      _ < 2 ^ 53 * 2 ^ k := Nat.mul_lt_mul_of_pos_right hm (by positivity)
      _ = 2 ^ (53 + k) := (pow_add _ _ _).symm
  have h2 := (Nat.pow_lt_pow_iff_right (by omega : 1 < 2)).1 h1
  exact (pow_dvd_pow 2 (by omega)).mul_left m

/-- What rounding gives is representable. -/
theorem roundUnits_representable (n d : Nat) : Representable (roundUnits n d) := by
  rw [roundUnits_eq]
  have h := roundHalfEven_shift_le (n * 2 ^ 1074) d
  generalize roundHalfEven (n * 2 ^ 1074) (d * 2 ^ roundShift (n * 2 ^ 1074) d) = q at *
  generalize roundShift (n * 2 ^ 1074) d = s
  rcases Nat.lt_or_ge q (2 ^ 53) with hlt | hge
  · exact ⟨q, s, hlt, rfl⟩
  · have hq : q = 2 ^ 53 := Nat.le_antisymm h hge
    exact ⟨2 ^ 52, s + 1, by norm_num, by rw [hq, pow_succ 2 s]; ring⟩

/-- Rounding leaves a representable number as it is. -/
theorem roundUnits_fixed {n d u : Nat} (hd : d ≠ 0) (hu : Representable u) (h : u * d = n * 2 ^ 1074) :
    roundUnits n d = u := by
  rw [roundUnits_eq, ← h]
  have hx : u * d / d = u := Nat.mul_div_cancel _ (Nat.pos_of_ne_zero hd)
  have hdvd : 2 ^ roundShift (u * d) d ∣ u := by
    by_cases h0 : roundShift (u * d) d = 0
    · simp [h0]
    · have := two_pow_roundShift_le h0
      rw [hx] at this
      exact hu.dvd this
  generalize roundShift (u * d) d = s at *
  obtain ⟨m, rfl⟩ := hdvd
  have he : 2 ^ s * m * d = m * (d * 2 ^ s) := by ring
  rw [he, roundHalfEven_mul (by positivity), Nat.mul_comm]

theorem log2_mono {a b : Nat} (h : a ≤ b) : Nat.log2 a ≤ Nat.log2 b := by
  rcases Nat.eq_zero_or_pos a with rfl | ha
  · simp
  · exact (Nat.le_log2 (by omega)).2 ((Nat.log2_self_le ha.ne').trans h)

theorem roundUnits_mono_same {n n' d : Nat} (h : n ≤ n') : roundUnits n d ≤ roundUnits n' d := by
  rw [roundUnits_eq, roundUnits_eq]
  have hx : n * 2 ^ 1074 ≤ n' * 2 ^ 1074 := Nat.mul_le_mul_right _ h
  generalize n * 2 ^ 1074 = x at *
  generalize n' * 2 ^ 1074 = x' at *
  have hq : x / d ≤ x' / d := Nat.div_le_div_right hx
  have hs : roundShift x d ≤ roundShift x' d := by
    unfold roundShift
    exact Nat.sub_le_sub_right (log2_mono hq) 52
  rcases Nat.eq_or_lt_of_le hs with heq | hlt
  · rw [heq]; exact Nat.mul_le_mul_right _ (roundHalfEven_mono hx)
  · have h1 := roundHalfEven_shift_le x d
    have h2 := two_pow_roundShift_le (x := x') (d := d) (by omega)
    have h3 : 2 ^ 52 ≤ x' / (d * 2 ^ roundShift x' d) := by
      rw [← Nat.div_div_eq_div_mul, Nat.le_div_iff_mul_le (by positivity), ← pow_add]
      exact h2
    have h4 := h3.trans (le_roundHalfEven x' (d * 2 ^ roundShift x' d))
    calc _ ≤ 2 ^ 53 * 2 ^ roundShift x d := Nat.mul_le_mul_right _ h1
      _ = 2 ^ (53 + roundShift x d) := (pow_add _ _ _).symm
      _ ≤ 2 ^ (52 + roundShift x' d) := Nat.pow_le_pow_right (by omega) (by omega)
      _ = 2 ^ 52 * 2 ^ roundShift x' d := pow_add _ _ _
      _ ≤ _ := Nat.mul_le_mul_right _ h4

/-- Rounding is monotone. -/
theorem roundUnits_mono {n d n' d' : Nat} (hd : d ≠ 0) (hd' : d' ≠ 0) (h : n * d' ≤ n' * d) :
    roundUnits n d ≤ roundUnits n' d' := by
  rw [← roundUnits_scale (n := n) hd', ← roundUnits_scale (n := n') hd, Nat.mul_comm d' d]
  exact roundUnits_mono_same h

theorem maxUnits_representable : Representable maxUnits := ⟨2 ^ 53 - 1, 971 + 1074, by norm_num, rfl⟩

/-- A binary64 number in multiples of `2^-1074`. -/
abbrev Units (u : Nat) : Prop := Representable u ∧ u ≤ maxUnits

theorem units_roundF64 (n d : Nat) : Units (min (roundUnits n d) maxUnits) := by
  refine ⟨?_, Nat.min_le_right _ _⟩
  rcases Nat.le_total (roundUnits n d) maxUnits with h | h
  · rw [Nat.min_eq_left h]; exact roundUnits_representable n d
  · rw [Nat.min_eq_right h]; exact maxUnits_representable

theorem ratio_cross {n d : Nat} (hd : d ≠ 0) : (ratio n d).num * d = n * (ratio n d).den := by
  have hg : (Nat.gcd n d) ∣ d := Nat.gcd_dvd_right n d
  have hg' : (Nat.gcd n d) ∣ n := Nat.gcd_dvd_left n d
  have h0 : Nat.gcd n d ≠ 0 := fun h => hd (Nat.gcd_eq_zero_iff.1 h).2
  simp only [ratio]
  obtain ⟨a, ha⟩ := hg
  obtain ⟨b, hb⟩ := hg'
  generalize Nat.gcd n d = g at *
  subst ha hb
  rw [Nat.mul_div_cancel_left _ (Nat.pos_of_ne_zero h0), Nat.mul_div_cancel_left _ (Nat.pos_of_ne_zero h0)]
  ring

theorem two_pow_ne (k : Nat) : 2 ^ k ≠ 0 := (Nat.two_pow_pos k).ne'

/-- A value that is a binary64 number rounds to itself. -/
theorem roundF64_fixed {n d u : Nat} (hd : d ≠ 0) (hu : Units u) (h : u * d = n * 2 ^ 1074) :
    roundF64 n d = ratio u (2 ^ 1074) := by
  rw [roundF64, roundUnits_fixed hd hu.1 h, Nat.min_eq_left hu.2]

/-- The values of `W_F64` are the binary64 numbers. -/
theorem hasWeight_binary64_iff {w : Weight} :
    hasWeight .binary64 w = true ↔ ∃ u, Units u ∧ w = ratio u (2 ^ 1074) := by
  simp only [hasWeight, Bool.and_eq_true, decide_eq_true_eq]
  constructor
  · rintro ⟨-, h⟩
    exact ⟨_, units_roundF64 w.num w.den, h.symm⟩
  · rintro ⟨u, hu, rfl⟩
    exact ⟨ratio_wf (two_pow_ne _), roundF64_fixed (ratio_den_ne (two_pow_ne _)) hu (ratio_cross (two_pow_ne _)).symm⟩

theorem hasWeight_roundF64 (n d : Nat) : hasWeight .binary64 (roundF64 n d) = true :=
  hasWeight_binary64_iff.2 ⟨_, units_roundF64 n d, rfl⟩

theorem roundF64_self {w : Weight} (h : hasWeight .binary64 w = true) : roundF64 w.num w.den = w := by
  simp only [hasWeight, Bool.and_eq_true, decide_eq_true_eq] at h; exact h.2

theorem roundF64_mono {n d n' d' : Nat} (hd : d ≠ 0) (hd' : d' ≠ 0) (h : n * d' ≤ n' * d) :
    ratioLe (roundF64 n d) (roundF64 n' d') = true :=
  (ratioLe_ratio (two_pow_ne _)).2 (min_le_min_right _ (roundUnits_mono hd hd' h))

/-- Rounding keeps the order of weights. -/
theorem roundF64_le {a b : Weight} (ha : a.den ≠ 0) (hb : b.den ≠ 0) (h : ratioLe a b = true) :
    ratioLe (roundF64 a.num a.den) (roundF64 b.num b.den) = true :=
  roundF64_mono ha hb (by simpa [ratioLe] using h)

theorem binary64_wf {w : Weight} (h : hasWeight .binary64 w = true) : weightWf w = true := by
  simp only [hasWeight, Bool.and_eq_true] at h; exact h.1

theorem binary64_den {w : Weight} (h : hasWeight .binary64 w = true) : w.den ≠ 0 :=
  (weightWf_iff.1 (binary64_wf h)).1

theorem exactAdd_den {a b : Weight} (ha : a.den ≠ 0) (hb : b.den ≠ 0) : (exactAdd a b).den ≠ 0 :=
  (weightWf_iff.1 (exactAdd_wf ha hb)).1

theorem units_zero : Units 0 := ⟨⟨0, 0, by norm_num, rfl⟩, Nat.zero_le _⟩

theorem two_pow_le_mul {c k j : Nat} (hc : 0 < c) (h : k ≤ j) : 2 ^ k ≤ c * 2 ^ j :=
  (Nat.pow_le_pow_right (by omega) h).trans (Nat.le_mul_of_pos_left _ hc)

theorem mul_div_lt {m t k : Nat} (hm : m < t) : m * 2 ^ k / t < 2 ^ k := by
  rw [Nat.div_lt_iff_lt_mul (by omega), Nat.mul_comm (2 ^ k)]
  exact Nat.mul_lt_mul_of_pos_right hm (Nat.two_pow_pos k)

theorem units_one : Units (2 ^ 1074) := by
  refine ⟨⟨1, 1074, by norm_num, (Nat.one_mul _).symm⟩, ?_⟩
  unfold maxUnits
  exact two_pow_le_mul (by norm_num) (by omega)

/-- Binary64 addition of finite values that are not negative meets W1 to W4 (R13, K3). -/
theorem binary64_lawful : LawfulArith .binary64 where
  real := ⟨_, ratio_realOrder fun _ h => binary64_wf h⟩
  closed _ _ _ _ := hasWeight_roundF64 _ _
  reflexive _ _ := ratioLe_refl _
  transitive _ _ _ ha hb hc h1 h2 := ratioLe_trans (binary64_wf ha) (binary64_wf hb) (binary64_wf hc) h1 h2
  total _ _ _ _ := ratioLe_total _ _
  monotone _ _ _ _ ha ha' hb hb' h1 h2 :=
    roundF64_le (exactAdd_den (binary64_den ha) (binary64_den hb)) (exactAdd_den (binary64_den ha') (binary64_den hb'))
      (exactAdd_monotone (binary64_den ha) (binary64_den ha') (binary64_den hb) (binary64_den hb') h1 h2)
  leftLe a b ha hb := by
    have h := roundF64_le (binary64_den ha) (exactAdd_den (binary64_den ha) (binary64_den hb))
      (ratioLe_exactAdd_left (binary64_den ha) (binary64_den hb))
    rwa [roundF64_self ha] at h
  rightLe a b ha hb := by
    have h := roundF64_le (binary64_den hb) (exactAdd_den (binary64_den ha) (binary64_den hb))
      (ratioLe_exactAdd_right (binary64_den ha) (binary64_den hb))
    rwa [roundF64_self hb] at h

/-- "A weight of 0 (the synthetic entry) is an ordinary weight" (R127 (e)): it adds nothing. -/
theorem wAdd_zero {A : WeightArith} (hA : A = .exact ∨ A = .binary64) {a : Weight} (ha : hasWeight A a = true) :
    wAdd A zeroWeight a = a := by
  rcases hA with rfl | rfl
  · exact exactAdd_zero ha
  · show roundF64 (exactAdd zeroWeight a).num (exactAdd zeroWeight a).den = a
    rw [exactAdd_zero (binary64_wf ha), roundF64_self ha]

theorem roundF64_zero {t : Nat} (ht : t ≠ 0) : roundF64 0 t = zeroWeight := by
  rw [roundF64_fixed ht units_zero (by rw [Nat.zero_mul, Nat.zero_mul]), ratio_zero (two_pow_ne _)]

theorem roundF64_whole {t : Nat} (ht : t ≠ 0) : roundF64 t t = oneWeight := by
  rw [roundF64_fixed ht units_one (Nat.mul_comm _ _), ratio_whole (two_pow_ne _)]

/-- Two counts of a text shorter than `2^53` have different rounded quotients. -/
theorem roundUnits_different {c t : Nat} (ht : t < 2 ^ 53) (hc : c + 1 ≤ t) : roundUnits c t < roundUnits (c + 1) t := by
  have ht0 : t ≠ 0 := by omega
  have small : ∀ m, m < t → roundShift (m * 2 ^ 1074) t ≤ 1021 := by
    intro m hm
    have h1 : m * 2 ^ 1074 / t < 2 ^ 1074 := mul_div_lt hm
    unfold roundShift
    by_cases h0 : m * 2 ^ 1074 / t = 0
    · rw [h0, Nat.log2_zero]; omega
    · have := (Nat.log2_lt h0).2 h1
      omega
  have err : ∀ m, m < t → 2 * (roundUnits m t * t) ≤ 2 * (m * 2 ^ 1074) + t * 2 ^ 1021 ∧
      2 * (m * 2 ^ 1074) ≤ 2 * (roundUnits m t * t) + t * 2 ^ 1021 := by
    intro m hm
    have h := roundHalfEven_error (x := m * 2 ^ 1074) (unit := t * 2 ^ roundShift (m * 2 ^ 1074) t)
      (Nat.mul_ne_zero ht0 (two_pow_ne _))
    have hle : t * 2 ^ roundShift (m * 2 ^ 1074) t ≤ t * 2 ^ 1021 :=
      Nat.mul_le_mul_left _ (Nat.pow_le_pow_right (by omega) (small m hm))
    have he : roundUnits m t * t = roundHalfEven (m * 2 ^ 1074) (t * 2 ^ roundShift (m * 2 ^ 1074) t) *
        (t * 2 ^ roundShift (m * 2 ^ 1074) t) := by
      rw [roundUnits_eq]; ring
    rw [he]
    omega
  have gap : t * 2 ^ 1021 < 2 ^ 1074 := by
    calc t * 2 ^ 1021 < 2 ^ 53 * 2 ^ 1021 := Nat.mul_lt_mul_of_pos_right ht (Nat.two_pow_pos _)
      _ = 2 ^ 1074 := by rw [← pow_add]
  have h1 := (err c (by omega)).1
  refine Nat.lt_of_mul_lt_mul_right (a := t) ?_
  rcases Nat.lt_or_ge (c + 1) t with hlt | hge
  · have h2 := (err (c + 1) hlt).2
    rw [Nat.add_mul] at h2
    omega
  · have hct : c + 1 = t := by omega
    have h2 : roundUnits t t = 2 ^ 1074 := roundUnits_fixed ht0 units_one.1 (Nat.mul_comm _ _)
    have h3 : t * 2 ^ 1074 = c * 2 ^ 1074 + 2 ^ 1074 := by rw [← hct, Nat.add_mul, Nat.one_mul]
    rw [hct, h2, Nat.mul_comm (2 ^ 1074) t, h3]
    omega

/-- So do two counts of a text of that length: their quotients are exact. -/
theorem roundUnits_different_last {c : Nat} (hc : c + 1 ≤ 2 ^ 53) :
    roundUnits c (2 ^ 53) < roundUnits (c + 1) (2 ^ 53) := by
  have h : ∀ m, m ≤ 2 ^ 53 → roundUnits m (2 ^ 53) = m * 2 ^ 1021 := by
    intro m hm
    refine roundUnits_fixed (two_pow_ne _) ?_ (by rw [Nat.mul_assoc, ← pow_add])
    rcases Nat.eq_or_lt_of_le hm with rfl | hlt
    · exact ⟨1, 1074, by norm_num, by rw [Nat.one_mul, ← pow_add]⟩
    · exact ⟨m, 1021, hlt, rfl⟩
  rw [h c (by omega), h (c + 1) hc]
  exact Nat.mul_lt_mul_of_pos_right (Nat.lt_succ_self c) (Nat.two_pow_pos _)

/-- Above `2^53 + 1` symbols no law can ask it of a quotient rounded to binary64: between a half and 1 there are fewer
numbers than counts (log entry 21). -/
theorem binary64_quot_collides {t : Nat} (ht : 2 ^ 53 + 1 < t) :
    ∃ c c', c < c' ∧ c' ≤ t ∧ roundF64 c t = roundF64 c' t := by
  have ht0 : t ≠ 0 := by omega
  have units : ∀ c ∈ Finset.Icc (t - (2 ^ 52 + 1)) t, ∃ m, roundUnits c t = 2 ^ 1021 * m ∧ 2 ^ 52 ≤ m ∧ m ≤ 2 ^ 53 := by
    intro c hc
    obtain ⟨h1, h2⟩ := Finset.mem_Icc.1 hc
    have hlow : 2 ^ (52 + 1021) ≤ roundUnits c t := by
      have he : roundUnits 1 2 = 2 ^ (52 + 1021) := roundUnits_fixed (by omega) ⟨1, 52 + 1021, by norm_num, (Nat.one_mul _).symm⟩
        (by rw [Nat.one_mul, ← pow_succ])
      rw [← he]
      exact roundUnits_mono (by omega) ht0 (by omega)
    have hhigh : roundUnits c t ≤ 2 ^ 1074 := by
      have := roundUnits_mono_same (d := t) h2
      rwa [roundUnits_fixed ht0 units_one.1 (Nat.mul_comm _ _)] at this
    obtain ⟨m, hm⟩ := (roundUnits_representable c t).dvd hlow
    rw [hm] at hlow hhigh
    refine ⟨m, hm, ?_, ?_⟩
    · rw [pow_add, Nat.mul_comm] at hlow
      exact Nat.le_of_mul_le_mul_left hlow (Nat.two_pow_pos _)
    · rw [show 1074 = 1021 + 53 from rfl, pow_add] at hhigh
      exact Nat.le_of_mul_le_mul_left hhigh (Nat.two_pow_pos _)
  obtain ⟨c, hc, c', hc', hne, he⟩ := Finset.exists_ne_map_eq_of_card_lt_of_maps_to
    (s := Finset.Icc (t - (2 ^ 52 + 1)) t) (t := Finset.Icc (2 ^ 52) (2 ^ 53)) (f := fun c => roundUnits c t / 2 ^ 1021)
    (by simp only [Nat.card_Icc]; omega)
    (by
      intro c hc
      obtain ⟨m, hm, h1, h2⟩ := units c hc
      simp only [hm, Nat.mul_div_cancel_left _ (Nat.two_pow_pos _)]
      exact Finset.mem_coe.2 (Finset.mem_Icc.2 ⟨h1, h2⟩))
  obtain ⟨m, hm, -⟩ := units c hc
  obtain ⟨m', hm', -⟩ := units c' hc'
  simp only [hm, hm', Nat.mul_div_cancel_left _ (Nat.two_pow_pos _)] at he
  have heq : roundF64 c t = roundF64 c' t := by
    rw [roundF64, roundF64, hm, hm', he]
  rcases Nat.lt_or_gt_of_ne hne with h | h
  · exact ⟨c, c', h, (Finset.mem_Icc.1 hc').2, heq⟩
  · exact ⟨c', c, h, (Finset.mem_Icc.1 hc).2, heq.symm⟩

/-- Different counts of a text of up to `2^53` symbols have different rounded quotients. -/
theorem binary64_quot_different {t : Nat} (ht : t ≤ 2 ^ 53) : Different ratioLe t fun c => roundF64 c t := by
  intro c c' h h'
  have ht0 : t ≠ 0 := by omega
  have h1 : roundUnits c t < roundUnits (c + 1) t := by
    rcases Nat.eq_or_lt_of_le ht with rfl | hlt
    · exact roundUnits_different_last (by omega)
    · exact roundUnits_different hlt (by omega)
  have h2 := roundUnits_mono_same (d := t) (show c + 1 ≤ c' by omega)
  have h3 : roundUnits c' t ≤ 2 ^ 1074 := by
    have := roundUnits_mono_same (d := t) h'
    rwa [roundUnits_fixed ht0 units_one.1 (Nat.mul_comm _ _)] at this
  have h4 := units_one.2
  rw [Bool.eq_false_iff]
  intro hle
  have hle := (ratioLe_ratio (two_pow_ne _)).1 hle
  rw [Nat.min_eq_left (h3.trans h4), Nat.min_eq_left (by omega)] at hle
  omega

/-- `roundF64` rounds to the next value of `W_F64` below or above. -/
theorem binary64_rounds {n d : Nat} (hd : d ≠ 0) :
    Rounds (hasWeight .binary64) realVal ((n : ℝ) / d) (roundF64 n d) := by
  have hx : ((n : ℝ) / d) = realVal (ratio n d) := by rw [realVal, ratio_val hd]; push_cast; rfl
  have hr := ratio_den_ne (n := n) hd
  have hself : roundF64 (ratio n d).num (ratio n d).den = roundF64 n d := by
    have h := ratio_cross (n := n) hd
    unfold roundF64
    rw [Nat.le_antisymm (roundUnits_mono hr hd h.le) (roundUnits_mono hd hr h.ge)]
  have hw := binary64_den (hasWeight_roundF64 n d)
  rw [hx]
  rcases le_total (realVal (roundF64 n d)) (realVal (ratio n d)) with h | h
  · refine .inl ⟨h, fun v hv hle => ?_⟩
    have := roundF64_le (binary64_den hv) hr ((ratioLe_iff (binary64_den hv) hr).2 (Rat.cast_le.1 hle))
    rw [roundF64_self hv, hself] at this
    exact Rat.cast_le.2 ((ratioLe_iff (binary64_den hv) hw).1 this)
  · refine .inr ⟨h, fun v hv hle => ?_⟩
    have := roundF64_le hr (binary64_den hv) ((ratioLe_iff hr (binary64_den hv)).2 (Rat.cast_le.1 hle))
    rw [roundF64_self hv, hself] at this
    exact Rat.cast_le.2 ((ratioLe_iff hw (binary64_den hv)).1 this)

/-- The rounded quotients of binary64 are what R202 asks for in every case. -/
theorem binary64_quot_lawful {t : Nat} (ht : t ≠ 0) :
    QuotLaws (hasWeight .binary64) ratioLe realVal t (fun c => roundF64 c t) ∧
      RoundedQuot (hasWeight .binary64) realVal t fun c => roundF64 c t := by
  refine ⟨⟨fun _ _ => hasWeight_roundF64 _ _, fun _ _ h _ => roundF64_mono ht ht (Nat.mul_le_mul_right _ h), ?_, ?_⟩,
    fun _ _ => binary64_rounds ht⟩
  · show realVal (roundF64 0 t) = 0
    rw [realVal, roundF64_zero ht, zeroWeight_val, Rat.cast_zero]
  · show realVal (roundF64 t t) = 1
    rw [realVal, roundF64_whole ht, oneWeight_val, Rat.cast_one]

/-- A sum beyond the largest finite binary64 number has one result the laws allow: whatever sum on `W_F64` meets R13 and
is exact where the exact sum is in `W`, it answers that largest number (log entry 9). -/
theorem saturation_is_forced {add : Weight → Weight → Weight} (laws : SumLaws (hasWeight .binary64) ratioLe add)
    (exact : ∀ a b, hasWeight .binary64 a = true → hasWeight .binary64 b = true →
      hasWeight .binary64 (exactAdd a b) = true → add a b = exactAdd a b)
    {ua ub : Nat} (ha : Units ua) (hb : Units ub) (hle : ub ≤ ua) (hover : maxUnits < ua + ub) :
    add (ratio ua (2 ^ 1074)) (ratio ub (2 ^ 1074)) = ratio maxUnits (2 ^ 1074) := by
  have inW : ∀ {u}, Units u → hasWeight .binary64 (ratio u (2 ^ 1074)) = true := fun hu =>
    hasWeight_binary64_iff.2 ⟨_, hu, rfl⟩
  -- The two terms are so large that `maxUnits - ua` is a binary64 number, and it is not above `ub`.
  have hmaxU : maxUnits = (2 ^ 53 - 1) * 2 * 2 ^ 2044 := by
    unfold maxUnits; rw [show 971 + 1074 = 2044 + 1 from rfl, pow_succ' 2 2044, Nat.mul_assoc]
  have h1 : 2 ^ (52 + 2044) ≤ ua := by
    rw [hmaxU] at hover; rw [pow_add]
    generalize 2 ^ 2044 = p at *
    omega
  have h2 : 2 ^ (52 + 2045) ≤ ua := by
    obtain ⟨m, hua⟩ := ha.1.dvd h1
    rw [hua] at hle hover ⊢
    have hm : 2 ^ 53 ≤ m := by
      by_contra hlt
      have : 2 ^ 2044 * m ≤ 2 ^ 2044 * (2 ^ 53 - 1) := Nat.mul_le_mul_left _ (by omega)
      rw [hmaxU] at hover
      generalize 2 ^ 2044 = p at *
      omega
    calc 2 ^ (52 + 2045) = 2 ^ 2044 * 2 ^ 53 := by rw [← pow_add]
      _ ≤ _ := Nat.mul_le_mul_left _ hm
  obtain ⟨m, hm⟩ := ha.1.dvd h2
  have hrest : Units (maxUnits - ua) := by
    refine ⟨⟨2 ^ 53 - 1 - m, 2045, by omega, ?_⟩, Nat.sub_le _ _⟩
    rw [Nat.sub_mul, Nat.mul_comm m, ← hm, maxUnits]
  have hmax : Units maxUnits := ⟨maxUnits_representable, Nat.le_refl _⟩
  have hsum : exactAdd (ratio ua (2 ^ 1074)) (ratio (maxUnits - ua) (2 ^ 1074)) = ratio maxUnits (2 ^ 1074) := by
    refine eq_of_val (exactAdd_wf (ratio_den_ne (two_pow_ne _)) (ratio_den_ne (two_pow_ne _)))
      (ratio_wf (two_pow_ne _)) ?_
    rw [exactAdd_val (ratio_den_ne (two_pow_ne _)) (ratio_den_ne (two_pow_ne _)), ratio_val (two_pow_ne _),
      ratio_val (two_pow_ne _), ratio_val (two_pow_ne _), ← add_div, ← Nat.cast_add, Nat.add_sub_cancel' ha.2]
  have hlow := laws.monotone _ _ _ _ (inW ha) (inW ha) (inW hrest) (inW hb) (ratioLe_refl _)
    ((ratioLe_ratio (two_pow_ne _)).2 (by omega : maxUnits - ua ≤ ub))
  rw [exact _ _ (inW ha) (inW hrest) (by rw [hsum]; exact inW hmax), hsum] at hlow
  obtain ⟨u, hu, he⟩ := hasWeight_binary64_iff.1 (laws.closed _ _ (inW ha) (inW hb))
  rw [he] at hlow ⊢
  rw [Nat.le_antisymm hu.2 ((ratioLe_ratio (two_pow_ne _)).1 hlow)]

/-! ## Every instantiation -/

/-- Every instantiation of `WeightArith` meets the laws of R13. -/
theorem lawfulArith (A : WeightArith) : LawfulArith A := by
  cases A with
  | exact => exact exact_lawful
  | binary64 => exact binary64_lawful
  | unnamed k =>
    cases h : Config.unnamedArith k with
    | rational =>
      have h1 : hasWeight (.unnamed k) = weightWf := by funext w; simp [hasWeight, h]
      have h2 : wLe (.unnamed k) = ratioLe := by funext a b; simp [wLe, h]
      have h3 : wAdd (.unnamed k) = exactAdd := by funext a b; simp [wAdd, h]
      rw [LawfulArith, h1, h2, h3]; exact exact_lawful
    | other has le add val laws order quot =>
      have h1 : hasWeight (.unnamed k) = has := by funext w; simp [hasWeight, h]
      have h2 : wLe (.unnamed k) = le := by funext a b; simp [wLe, h]
      have h3 : wAdd (.unnamed k) = add := by funext a b; simp [wAdd, h]
      rw [LawfulArith, h1, h2, h3]; exact laws

/-- The host's quotient of every instantiation, where it has one, is what R202 asks for. -/
theorem wRatio_meetsR202 {A : WeightArith} {total : Nat} (ht : total ≠ 0) {q : Nat → Weight}
    (hq : wRatio A total = some q) : MeetsR202 A total q := by
  cases A with
  | exact =>
    cases hq
    obtain ⟨h1, h2, h3⟩ := exact_quot_lawful ht
    exact ⟨_, ratio_realOrder fun _ h => h, h1, h2, fun _ => h3⟩
  | binary64 =>
    cases hq
    obtain ⟨h1, h2⟩ := binary64_quot_lawful ht
    exact ⟨_, ratio_realOrder fun _ h => binary64_wf h, h1, h2,
      fun h => binary64_quot_different (by simpa [countsApart] using h)⟩
  | unnamed k =>
    cases h : Config.unnamedArith k with
    | rational =>
      have h1 : hasWeight (.unnamed k) = weightWf := by funext w; simp [hasWeight, h]
      have h2 : wLe (.unnamed k) = ratioLe := by funext a b; simp [wLe, h]
      simp only [wRatio, h] at hq
      cases hq
      obtain ⟨h4, h5, h6⟩ := exact_quot_lawful ht
      rw [MeetsR202, h1, h2]
      exact ⟨_, ratio_realOrder fun _ h => h, h4, h5, fun _ => h6⟩
    | other has le add val laws order quot =>
      have h1 : hasWeight (.unnamed k) = has := by funext w; simp [hasWeight, h]
      have h2 : wLe (.unnamed k) = le := by funext a b; simp [wLe, h]
      rw [MeetsR202, h1, h2]
      cases hx : quot total with
      | apart p laws rounds different =>
        simp only [wRatio, h, hx, Option.some.injEq] at hq
        subst hq
        exact ⟨val, order, laws, rounds, fun _ => different⟩
      | collides p laws rounds together =>
        simp only [wRatio, h, hx, Option.some.injEq] at hq
        subst hq
        exact ⟨val, order, laws, rounds, fun h' => by simp [countsApart, h, hx] at h'⟩
      | unmeetable no => simp [wRatio, h, hx] at hq

/-- The host has no quotient only where none over `W` is what R202 asks for. -/
theorem wRatio_eq_none {A : WeightArith} {total : Nat} (hq : wRatio A total = none) :
    ∃ val, RealOrder (hasWeight A) (wLe A) val ∧ ∀ q, QuotLaws (hasWeight A) (wLe A) val total q →
      ¬ RoundedQuot (hasWeight A) val total q := by
  cases A with
  | exact => cases hq
  | binary64 => cases hq
  | unnamed k =>
    cases h : Config.unnamedArith k with
    | rational => simp [wRatio, h] at hq
    | other has le add val laws order quot =>
      have h1 : hasWeight (.unnamed k) = has := by funext w; simp [hasWeight, h]
      have h2 : wLe (.unnamed k) = le := by funext a b; simp [wLe, h]
      rw [h1, h2]
      cases hx : quot total with
      | apart p laws rounds different => simp [wRatio, h, hx] at hq
      | collides p laws rounds together => simp [wRatio, h, hx] at hq
      | unmeetable no => exact ⟨val, order, no⟩

/-- Where `W` holds the number `count / total`, the host's quotient stands for it, as the exact one does (R202). -/
theorem rounds_eq {has : Weight → Bool} {val : Weight → ℝ} {x : ℝ} {w v : Weight} (h : Rounds has val x w)
    (hv : has v = true) (hx : val v = x) : val w = x := by
  rcases h with ⟨h1, h2⟩ | ⟨h1, h2⟩
  · exact le_antisymm h1 (hx ▸ h2 v hv hx.le)
  · exact le_antisymm (hx ▸ h2 v hv hx.ge) h1

/-- A finite `W` that holds 0 and 1, so every number format that does, has a quotient for every text: the next value
below. -/
theorem finite_quot_exists {has : Weight → Bool} {le : Weight → Weight → Bool} {val : Weight → ℝ} {total : Nat}
    (order : RealOrder has le val) (S : Finset Weight) (hS : ∀ v, has v = true ↔ v ∈ S) (ht : total ≠ 0)
    {zero one : Weight} (h0 : has zero = true) (h1 : has one = true) (v0 : val zero = 0) (v1 : val one = 1) :
    ∃ q, QuotLaws has le val total q ∧ RoundedQuot has val total q := by
  have floor : ∀ x : ℝ, 0 ≤ x → ∃ w, has w = true ∧ val w ≤ x ∧ ∀ v, has v = true → val v ≤ x → val v ≤ val w := by
    intro x hx
    obtain ⟨w, hw, hmax⟩ := Finset.exists_max_image (S.filter fun v => val v ≤ x) val
      ⟨zero, by simp [← hS, h0, v0, hx]⟩
    rw [Finset.mem_filter, ← hS] at hw
    exact ⟨w, hw.1, hw.2, fun v hv hle => hmax v (Finset.mem_filter.2 ⟨(hS v).1 hv, hle⟩)⟩
  have hpos : ∀ c : Nat, (0 : ℝ) ≤ (c : ℝ) / total := fun c => by positivity
  choose q hq using fun c : Nat => floor ((c : ℝ) / total) (hpos c)
  have hone : ((total : ℕ) : ℝ) / total = 1 := div_self (by exact_mod_cast ht)
  refine ⟨q, ⟨fun c _ => (hq c).1, fun c c' h _ => ?_, ?_, ?_⟩, fun c _ => .inl ⟨(hq c).2.1, (hq c).2.2⟩⟩
  · refine (order _ _ (hq c).1 (hq c').1).2.2 ((hq c').2.2 _ (hq c).1 ((hq c).2.1.trans ?_))
    exact div_le_div_of_nonneg_right (by exact_mod_cast h) (Nat.cast_nonneg _)
  · exact le_antisymm (by simpa using (hq 0).2.1) (order _ _ (hq 0).1 (hq 0).1).1
  · have h := (hq total).2
    rw [hone] at h
    exact le_antisymm h.1 (v1 ▸ h.2 one h1 v1.le)

/-- Every `(W, w_le)` has a host's quotient of one of the three kinds, so none is left out of `UnnamedArith`. -/
theorem hostQuot_exists (has : Weight → Bool) (le : Weight → Weight → Bool) (val : Weight → ℝ) (total : Nat) :
    Nonempty (HostQuot has le val total) := by
  by_cases h : ∃ q, QuotLaws has le val total q ∧ RoundedQuot has val total q
  · obtain ⟨q, h1, h2⟩ := h
    by_cases h3 : Different le total q
    · exact ⟨.apart q h1 h2 h3⟩
    · exact ⟨.collides q h1 h2 h3⟩
  · exact ⟨.unmeetable fun q h1 h2 => h ⟨q, h1, h2⟩⟩

end Sys2Proof.Machine
end

