-- ==== Sys2Proof/Tests/Slice0.lean ====
section
/-! SUPPORT. Tests, with expected results from 95_test_vectors.md, and a witness for the hypotheses of each statement. -/

namespace Sys2Proof.Tests

open Sys2Proof Sys2Proof.Machine

/-! ## Small states -/

/-- The entry of symbol `s` and weight `n / d`. -/
def entry (s n d : Nat) : Entry := { sym := BitVec.ofNat 8 s, w := ratio n d }

/-- A bitstring from its characters. -/
def chars (t : String) : List Byte := t.toList.map fun c => BitVec.ofNat 8 c.toNat

/-- The reset state with operands presented. -/
def onPorts (o : Operands) : State := { State.reset with ports := o }

/-- `TB_BUILD`'s operand. -/
def listing (es : List Entry) : State := onPorts { Operands.idle with entryIn := es }

/-- `BP_PACK`'s operands. -/
def packing (t : String) (ok : Bool) : State := onPorts { Operands.idle with charIn := chars t, sinkOk := ok }

/-- `BU_UNPACK`'s operands. -/
def unpacking (bs : List Byte) (ok : Bool) : State := onPorts { Operands.idle with byteIn := bs, srcOk := ok }

/-- The state an operation ends in. -/
def after (i : Instr) (s : State) : State :=
  match exec i s with
  | .next t => t
  | .fault _ => s
  | .refused _ => s

/-- What a step answers is a next state that meets a check. -/
def nextMeets (o : Host.Outcome State Fault Refusal) (p : State → Bool) : Bool :=
  match o with
  | .next t => p t
  | .fault _ => false
  | .refused _ => false

/-- The entries of V-TB-4: the tie between `source` and `target`. -/
def tieEntries : List Entry := [entry 0x61 1 4, entry 0x62 1 4, entry 0x63 1 2]

/-- After V-TB-4. -/
def built : State := after .tbBuild (listing tieEntries)

/-- After V-TB-4 and `CD_DERIVE` (V-CD-2). -/
def derived : State := after .cdDerive built

/-- A state in the fault (V-TB-10). -/
def faulted : State := after .tbBuild (listing [entry 0x61 1 1])

/-- A state whose next request is a command of word `w`. -/
def about (s : State) (w : Nat) : State := s.withFetchWord 16 w

/-! ## Words, written out from the encodings of R90 and R91 (95_test_vectors.md section 2.6) -/

theorem test_word_tbBuild : decode 0b0001_000_000000000#16 = .ok .tbBuild := by decide
theorem test_word_tbNode : decode 0b0010_000_000000101#16 = .ok (.tbNode 5) := by decide
theorem test_word_tbNode_none : decode 0b0010_000_111111111#16 = .ok (.tbNode 511) := by decide
theorem test_word_cdDerive : decode 0b0011_000_000000000#16 = .ok .cdDerive := by decide
theorem test_word_cdLookup : decode 0b0100_000_001100001#16 = .ok (.cdLookup 0x61) := by decide
theorem test_word_cdLookup_last : decode 0b0100_000_011111111#16 = .ok (.cdLookup 0xFF) := by decide
theorem test_word_bpPack : decode 0b0101_000_000000000#16 = .ok .bpPack := by decide
theorem test_word_buUnpack : decode 0b0110_000_000000000#16 = .ok .buUnpack := by decide
theorem test_word_illegal_op : decode 0x0000#16 = .error .illegalOp ∧ decode 0x7000#16 = .error .illegalOp := by decide
theorem test_word_illegal_z : decode 0x1200#16 = .error .zNotZero ∧ decode 0x2200#16 = .error .zNotZero := by decide
theorem test_word_illegal_arg : decode 0x1001#16 = .error .argNotZero ∧ decode 0x5001#16 = .error .argNotZero := by decide
theorem test_word_illegal_symbol : decode 0x4100#16 = .error .lookupArgBit8 := by decide
theorem test_encode_words : encode (.tbNode 5) = 0x2005#16 ∧ encode (.cdLookup 0x61) = 0x4061#16 := by decide
theorem test_table_word : decodeTableWord 16 0x4061 = some (.cdLookup 0x61) ∧ decodeTableWord 16 0xFFFF = none := by decide

/-- An immediate outside its field is ill-formed. -/
theorem test_wellFormed_refuses_node : (Instr.tbNode 512).wellFormed = false := by decide
theorem test_wellFormed_refuses_symbol : (Instr.cdLookup 256).wellFormed = false := by decide

/-! ## Operations -/

/-- V-TB-4: `I(L(c), L(a), L(b))` with the tie taken from `source`. -/
theorem test_tbBuild_tie : (nextMeets (exec .tbBuild (listing tieEntries)) fun t =>
    t.nnodes == 5 && t.root == 4#9 && t.status == .ok &&
    absTree t == .tree (.node (.leaf 0x63#8 ⟨1, 2⟩) (.node (.leaf 0x61#8 ⟨1, 4⟩) (.leaf 0x62#8 ⟨1, 4⟩) ⟨1, 2⟩) ⟨1, 1⟩)) = true := by decide

/-- V-TB-9: the list of counts 1, 4, 4, 5 gives different trees under exact and binary64 arithmetic; under exact the
root's children are records 4 and 5, under binary64 the leaf of 'd' and record 5. -/
theorem test_tbBuild_arithmetic :
    (nextMeets (exec .tbBuild (listing
      [entry 0x61 1 14, entry 0x62 2 7, entry 0x63 2 7, entry 0x64 5 14])) fun t =>
        (nodeAt t 6).left == 4#9 && (nodeAt t 6).right == 5#9) = true ∧
    (nextMeets (exec .tbBuild { listing
      ([(0x61, 1), (0x62, 4), (0x63, 4), (0x64, 5)].map fun p =>
        { sym := BitVec.ofNat 8 p.1, w := roundF64 p.2 14 }) with params := ⟨.binary64, none⟩ }) fun t =>
        (nodeAt t 6).left == 3#9 && (nodeAt t 6).right == 5#9) = true := by decide +kernel

/-- V-TB-10: one entry sets the fault. -/
theorem test_tbBuild_short : (nextMeets (exec .tbBuild (listing [entry 0x61 1 1])) fun t =>
    t.fault && t.status == .structuralPrecondition && t.errInfo == 0) = true := by decide

/-- V-TN-1: record 3 of V-TB-4, and an index not in use. -/
theorem test_tbNode : (nextMeets (exec (.tbNode 3) built) fun t =>
    t.nodeOut.valid && t.nodeOut.kind == .internal && t.nodeOut.w == ratio 1 2 && t.nodeOut.left == 0#9 &&
    t.nodeOut.right == 1#9) = true := by decide
theorem test_tbNode_miss : (nextMeets (exec (.tbNode 5) built) fun t => !t.nodeOut.valid && t.status == .ok) = true := by
  decide

/-- V-CD-2: 'c' "0", 'a' "10", 'b' "11". -/
theorem test_cdDerive : (nextMeets (exec .cdDerive built) fun t =>
    t.ct == [(0x61, ⟨2#8, [true, false]⟩), (0x62, ⟨2#8, [true, true]⟩), (0x63, ⟨1#8, [false]⟩)]) = true := by decide
/-- V-CD-1: the empty tree. -/
theorem test_cdDerive_empty : (nextMeets (exec .cdDerive State.reset) fun t => t.ct == [] && t.status == .ok) = true := by
  decide

/-- V-CD-2: a hit and a miss. -/
theorem test_cdLookup : (nextMeets (exec (.cdLookup 0x61) derived) fun t =>
    t.lookupOut == { hit := true, len := 2#8, code := [true, false] }) = true := by decide
theorem test_cdLookup_miss : (nextMeets (exec (.cdLookup 0x7A) derived) fun t => !t.lookupOut.hit && t.status == .ok) =
    true := by decide

/-- V-BP-13: 23 bits. -/
theorem test_bpPack : (nextMeets (exec .bpPack (packing "01101110100010101101110" true)) fun t =>
    t.byteOut == [0xB7#8, 0x45#8, 0x6E#8] && t.status == .ok) = true := by decide
/-- V-BP-16: the bad character is reported before the failed sink; V-BP-14: its index. -/
theorem test_bpPack_bad : (nextMeets (exec .bpPack (packing "2" false)) fun t => t.status == .invalidBitstring) = true ∧
    (nextMeets (exec .bpPack (packing "01a1" true)) fun t => t.byteOut == [] && t.errInfo == 2) = true := by decide

/-- V-BU-12: the header ends at the first 1. -/
theorem test_buUnpack : (nextMeets (exec .buUnpack (unpacking [0x5A#8, 0x0F#8] true)) fun t =>
    t.charOut == chars "01101000001111") = true := by decide
/-- V-BU-11 and V-BU-15: the malformed header and the failed source. -/
theorem test_buUnpack_malformed :
    (nextMeets (exec .buUnpack (unpacking [0x00#8, 0xA5#8] true)) fun t => t.charOut == chars "10100101") = true ∧
    (nextMeets (exec .buUnpack (unpacking [0x1E#8] false)) fun t => t.charOut == [] && t.status == .ioFailure) = true := by
  decide

/-- Section 2.6: an illegal word reports itself. -/
theorem test_illegal_word : (nextMeets (step (about State.reset 0x7000)) fun t =>
    t.status == .illegalCommand && t.errInfo == 0x7000 && t.byteOut == []) = true := by decide

/-- P4 and R241: in the fault a command is not executed, and reset clears it, over the commands before it. -/
theorem test_fault_stays : step (about faulted 0x3000) = .fault .blockFaulted := rfl
theorem test_reset_clears : (nextMeets (step (about (about (pushRequest faulted .reset) 0x5000) 0x3000)) fun t =>
    !t.fault && t.status == .ok && t.ct == [] && t.nnodes == 0 && t.requests == []) = true := by decide

/-- V-FQ-4, V-FQ-5: the synthetic entry comes first and its symbol wraps. -/
theorem test_freq_synthetic :
    freq .exact (chars "aaaa") = some [entry 0x62 0 1, entry 0x61 1 1] ∧
    freq .exact [0xFF#8, 0xFF#8] = some [entry 0x00 0 1, entry 0xFF 1 1] := by decide +kernel
/-- Program P1: "aaab" packs to 0x1E and comes back. -/
theorem test_pipeline : (match pipeline (chars "aaab") State.reset with
    | .done text t => text == chars "aaab" && t.byteOut == [0x1E#8]
    | _ => false) = true := by decide +kernel

/-! ## The words of the table are run as the first instruction after reset -/

theorem test_fetch_tbNode : step (about State.reset 0x2005) = exec (.tbNode 5) State.reset := rfl
theorem test_fetch_cdDerive : step (about State.reset 0x3000) = exec .cdDerive State.reset := rfl

/-! ## Witnesses: for each statement with hypotheses, a state and operands that meet them together -/

theorem witness_DecodeOfEncodeIsTheInstruction :
    (Instr.tbNode 511).wellFormed = true ∧ (Instr.cdLookup 255).wellFormed = true := by decide
theorem witness_LegalWordIsEncodingOfItsInstruction : decode 0x21FF#16 = .ok (.tbNode 511) := by decide
theorem witness_IllegalWordsOnlyReport : IllegalWord 0x4100#16 ∧ IllegalWord 0x1001#16 ∧ IllegalWord 0x2200#16 ∧
    State.reset.fault = false ∧
    (about State.reset 0x4100).requests = .command { cw := 0x4100#16, operands := .idle } :: [] := by
  refine ⟨by decide, by decide, by decide, rfl, rfl⟩
theorem witness_StepRunsTheDecodedCommand : State.reset.fault = false ∧
    (about State.reset 0x3000).requests = .command { cw := 0x3000#16, operands := .idle } :: [] ∧
    decode 0x3000#16 = .ok .cdDerive := ⟨rfl, rfl, by decide⟩
theorem witness_StepWithoutRequestChangesNothing : State.reset.fault = false ∧ State.reset.requests = [] := ⟨rfl, rfl⟩
theorem witness_ResetGivesTheResetState :
    (pushRequest faulted .reset).requests = .reset :: [] ∧
    (pushRequest faulted (.resetDuring { cw := 0#16, operands := .idle })).requests =
      .resetDuring { cw := 0#16, operands := .idle } :: [] := ⟨rfl, rfl⟩
theorem witness_FaultStopsEveryCommand : faulted.fault = true ∧
    (∀ r ∈ (about faulted 0x3000).requests, ∃ c, r = .command c) ∧
    (about (pushRequest faulted .reset) 0x3000).requests =
      [{ cw := 0x3000#16, operands := faulted.ports }].map .command ++ .reset :: [] ∧
    step (about (pushRequest faulted .reset) 0x3000) = .next (resetBlock faulted) :=
  ⟨by decide, (fun _ hr => ⟨{ cw := 0x3000#16, operands := faulted.ports }, List.mem_singleton.1 hr⟩), rfl, rfl⟩
theorem witness_OnlyShortTbBuildSetsTheFault :
    ∃ t, step (about State.reset 0x1000) = .next t ∧ State.reset.fault = false ∧ t.fault = true :=
  ⟨_, rfl, rfl, rfl⟩
theorem witness_FirstCauseIsTheOneReported : faulted.fault = true ∧ (packing "2" false).fault = false ∧
    WithinCap (packing "2" false) 1 ∧ ¬ BitChars (packing "2" false).ports.charIn ∧
    BitChars (packing "1" false).ports.charIn ∧ (packing "1" false).ports.sinkOk = false := by
  refine ⟨by decide, rfl, (fun _ h => by cases h), by decide, by decide, rfl⟩
theorem witness_EachOperationEndsWithItsStatuses :
    (listing tieEntries).fault = false ∧ exec .tbBuild (listing tieEntries) = .next built ∧
    exec .tbBuild (listing []) = .next (after .tbBuild (listing [])) ∧
    exec (.tbNode 0) built = .next (after (.tbNode 0) built) ∧ exec .cdDerive built = .next derived ∧
    exec (.cdLookup 0x61) derived = .next (after (.cdLookup 0x61) derived) ∧
    exec .bpPack (packing "1" false) = .next (after .bpPack (packing "1" false)) ∧
    exec .bpPack (packing "2" false) = .next (after .bpPack (packing "2" false)) ∧
    exec .buUnpack (unpacking [0x1E#8] false) = .next (after .buUnpack (unpacking [0x1E#8] false)) :=
  ⟨rfl, rfl, rfl, rfl, rfl, rfl, rfl, rfl, rfl⟩
theorem witness_ReportedErrorsArePrecise :
    (∃ t, step (about (packing "2" true) 0x5000) = .next t ∧ t.status ≠ .ok ∧ t.status ≠ .structuralPrecondition ∧
      (about (packing "2" true) 0x5000).fault = false) ∧
    (∃ t, step (about (unpacking [] false) 0x6000) = .next t ∧ t.status = .ioFailure) ∧
    ∃ t, step (about State.reset 0xFFFF) = .next t ∧ t.status = .illegalCommand :=
  ⟨⟨_, rfl, by decide, by decide, rfl⟩, ⟨_, rfl, rfl⟩, _, rfl, rfl⟩

theorem witness_EveryStepKeepsTheInvariant : Inv (about built 0x3000) ∧ ∃ t, step (about built 0x3000) = .next t :=
  ⟨by decide, _, rfl⟩

theorem witness_EveryStepKeepsTheTablePrefixFree : Inv (about built 0x3000) ∧ PrefixFree (about built 0x3000).ct ∧
    step (about built 0x3000) = .next derived ∧ derived.fault = false := by
  refine ⟨by decide, ?_, rfl, by decide⟩
  intro x y cx cy h
  simp [about, State.withFetchWord, pushRequest, show built.ct = [] from rfl, codeOf] at h
theorem witness_TbBuildOfShortListFaults : (listing [entry 0x61 1 1]).fault = false ∧
    (listing [entry 0x61 1 1]).ports.entryIn.length < 2 := by decide
theorem witness_TbBuildRunsExactlyOnTheContract : (listing tieEntries).fault = false ∧
    2 ≤ (listing tieEntries).ports.entryIn.length ∧ EntryContract .exact tieEntries ∧
    2 ≤ (listing [entry 0x62 1 2, entry 0x61 1 2]).ports.entryIn.length ∧
    ¬ EntryContract .exact [entry 0x62 1 2, entry 0x61 1 2] := by decide
theorem witness_TbBuildCompletes : (listing tieEntries).fault = false ∧ ContractOk (listing tieEntries) ∧
    exec .tbBuild (listing tieEntries) = .next built := ⟨rfl, by decide, rfl⟩
theorem witness_TbBuildLeavesAStrictTree : (listing tieEntries).fault = false ∧ ContractOk (listing tieEntries) ∧
    exec .tbBuild (listing tieEntries) = .next built := witness_TbBuildCompletes
theorem witness_TbBuildTreeHasTheEntriesAsLeaves : (listing tieEntries).fault = false ∧
    ContractOk (listing tieEntries) ∧ exec .tbBuild (listing tieEntries) = .next built := witness_TbBuildCompletes
theorem witness_TbBuildKeepsLeavesInListOrder : 2 < (listing tieEntries).ports.entryIn.length ∧
    exec .tbBuild (listing tieEntries) = .next built := ⟨by decide, rfl⟩
theorem witness_TbBuildRunsOneMergeLessThanEntries : 2 ≤ (listing tieEntries).ports.entryIn.length := by decide
theorem witness_SelectionFollowsTheTieBreak :
    (∃ a src b tgt, (loaded (listing tieEntries)).source = a :: src ∧
      ({ loaded (listing tieEntries) with target := [2#9] }).target = b :: tgt ∧
      wLe .exact (nodeAt (loaded (listing tieEntries)) a.toNat).w (nodeAt (loaded (listing tieEntries)) b.toNat).w = true ∧
      wLe .exact (nodeAt (loaded (listing tieEntries)) b.toNat).w (nodeAt (loaded (listing tieEntries)) a.toNat).w = false) ∧
    State.reset.source = [] ∧ State.reset.target = [] := by
  refine ⟨⟨0#9, [1#9, 2#9], 2#9, [], by decide, rfl, by decide, by decide⟩, rfl, rfl⟩
theorem witness_MergeStepAppendsTheInternalNode : ∃ a s1 b s2,
    select (loaded (listing tieEntries)) = some (a, s1) ∧ select s1 = some (b, s2) := ⟨_, _, _, _, rfl, rfl⟩
theorem witness_TbBuildDependsOnListAndArithmeticOnly :
    (listing tieEntries).fault = false ∧ derived.fault = false ∧ ContractOk (listing tieEntries) ∧
    derived.ports.entryIn = (listing tieEntries).ports.entryIn ∧
    derived.params.arith = (listing tieEntries).params.arith ∧
    exec .tbBuild (listing tieEntries) = .next built ∧ exec .tbBuild derived = .next (after .tbBuild derived) :=
  ⟨rfl, by decide, by decide, by decide, by decide, rfl, rfl⟩
theorem witness_TbBuildQueuesStaySorted : LawfulArith (listing tieEntries).params.arith ∧
    ContractOk (listing tieEntries) ∧ ∃ u, afterMerges 1 (loaded (listing tieEntries)) = some u :=
  ⟨exact_lawful, by decide, _, rfl⟩
theorem witness_TbBuildInternalWeightsNeverDecrease : LawfulArith (listing tieEntries).params.arith ∧
    (listing tieEntries).fault = false ∧ ContractOk (listing tieEntries) ∧
    exec .tbBuild (listing tieEntries) = .next built ∧ (listing tieEntries).ports.entryIn.length ≤ 3 ∧
    3 + 1 < built.nnodes := ⟨exact_lawful, rfl, by decide, rfl, by decide, by decide⟩

theorem witness_TbNodeReadsOneRecord : faulted.fault = true ∧ built.fault = false ∧ 4 < built.nnodes ∧
    (storeRead built.node 4).isSome = true ∧ built.nnodes ≤ 5 ∧ built.nnodes ≤ 511 := by decide
theorem witness_TbNodeAnswersForEveryRecordInUse : Safe built ∧ 0 < built.nnodes ∧ 4 < built.nnodes := by decide
theorem witness_CdDeriveOfEmptyTreeIsEmpty : State.reset.fault = false ∧ State.reset.root = 0x1FF#9 := by decide
theorem witness_CdDeriveGivesThePathsOfTheTree : Safe built ∧ built.root ≠ 0x1FF#9 ∧
    exec .cdDerive built = .next derived := ⟨by decide, by decide, rfl⟩
theorem witness_DerivedCodeLengthsMeetKraft : Safe built ∧ built.root ≠ 0x1FF#9 ∧
    exec .cdDerive built = .next derived := witness_CdDeriveGivesThePathsOfTheTree
theorem witness_DerivedCodesArePrefixFree : Safe built ∧ exec .cdDerive built = .next derived ∧
    codeOf derived.ct 0x61 = some [true, false] ∧ codeOf derived.ct 0x63 = some [false] ∧ 0x61 ≠ 0x63 :=
  ⟨by decide, rfl, by decide, by decide, by decide⟩
theorem witness_CdLookupReadsOneEntry : faulted.fault = true ∧ derived.fault = false ∧
    (storeRead derived.ct 0x61).isSome = true ∧ storeRead derived.ct 0x7A = none := by decide

theorem witness_BpPackWritesTheFrame : (packing "0001" true).fault = false ∧
    BitChars (packing "0001" true).ports.charIn ∧ (packing "0001" true).ports.sinkOk = true ∧
    WithinCap (packing "0001" true) (packing "0001" true).ports.charIn.length :=
  ⟨rfl, by decide, rfl, (fun _ h => by cases h)⟩
theorem witness_PackedStreamHoldsHeaderAndPayload : BitChars (packing "" true).ports.charIn ∧
    exec .bpPack (packing "" true) = .next (after .bpPack (packing "" true)) ∧
    0 < 8 * (after .bpPack (packing "" true)).byteOut.length := ⟨by decide, rfl, by decide⟩
theorem witness_BpPackReportsTheFirstBadCharacter : ∃ hk : 2 < (packing "01a1" true).ports.charIn.length,
    ((packing "01a1" true).ports.charIn[2] ≠ 0x30#8 ∧ (packing "01a1" true).ports.charIn[2] ≠ 0x31#8) ∧
    (∀ j (hj : j < 2), (packing "01a1" true).ports.charIn[j] = 0x30#8 ∨
      (packing "01a1" true).ports.charIn[j] = 0x31#8) ∧ (packing "01a1" true).fault = false ∧
    WithinCap (packing "01a1" true) 4 :=
  ⟨by decide, by decide, by decide, rfl, (fun _ h => by cases h)⟩
theorem witness_BpPackReportsSinkFailure : (packing "1" false).fault = false ∧ WithinCap (packing "1" false) 1 ∧
    BitChars (packing "1" false).ports.charIn ∧ (packing "1" false).ports.sinkOk = false :=
  ⟨rfl, (fun _ h => by cases h), by decide, rfl⟩
theorem witness_FirstPackedByteLiesInItsRange : (packing "1010101" true).fault = false ∧
    exec .bpPack (packing "1010101" true) = .next (after .bpPack (packing "1010101" true)) ∧
    (after .bpPack (packing "1010101" true)).status = .ok := ⟨rfl, rfl, rfl⟩
theorem witness_RequestsAboveCapacityAreRefused :
    ({ packing "0001" true with params := ⟨.exact, some 3⟩ }).params.capBits = some 3 ∧
    3 < ({ packing "0001" true with params := ⟨.exact, some 3⟩ }).ports.charIn.length ∧
    3 < 8 * ({ unpacking [0x11#8] true with params := ⟨.exact, some 3⟩ }).ports.byteIn.length ∧
    (unpacking [0x11#8] true).ports.srcOk = true ∧ (packing "0001" true).fault = false := by decide
theorem witness_BpPackIsInjective :
    exec .bpPack (packing "0001" true) = .next (after .bpPack (packing "0001" true)) ∧
    (after .bpPack (packing "0001" true)).status = .ok ∧
    (after .bpPack (packing "0001" true)).byteOut =
      (after .bpPack { packing "0001" true with errInfo := 7 }).byteOut := ⟨rfl, rfl, by decide⟩

theorem witness_BuUnpackReturnsWhatFollowsTheHeader : (unpacking [0x01#8, 0xAA#8] true).fault = false ∧
    (unpacking [0x01#8, 0xAA#8] true).ports.srcOk = true ∧ WithinCap (unpacking [0x01#8, 0xAA#8] true) 16 ∧
    (unpacking [0x01#8, 0xAA#8] true).ports.byteIn = 0x01#8 :: [0xAA#8] ∧ (0x01#8).getLsbD (7 - 7) = true ∧
    (∀ q < 7, (0x01#8).getLsbD (7 - q) = false) ∧ (0x80#8).getLsbD (7 - 0) = true :=
  ⟨rfl, rfl, (fun _ h => by cases h), rfl, by decide, by decide, by decide⟩
theorem witness_BuUnpackDropsAMalformedHeader :
    (unpacking [0x00#8, 0xA5#8] true).ports.byteIn = 0x00#8 :: [0xA5#8] ∧ (unpacking [] true).ports.byteIn = [] ∧
    (unpacking [] true).fault = false ∧ (unpacking [] true).ports.srcOk = true ∧ WithinCap (unpacking [] true) 0 :=
  ⟨rfl, rfl, rfl, rfl, (fun _ h => by cases h)⟩
theorem witness_BuUnpackReportsSourceFailure : (unpacking [0x1E#8] false).fault = false ∧
    (unpacking [0x1E#8] false).ports.srcOk = false := ⟨rfl, rfl⟩
theorem witness_UnpackOfPackGivesTheString :
    exec .bpPack (packing "0001" true) = .next (after .bpPack (packing "0001" true)) ∧
    (after .bpPack (packing "0001" true)).status = .ok ∧ (unpacking [0x11#8] true).fault = false ∧
    (unpacking [0x11#8] true).ports.srcOk = true ∧
    (unpacking [0x11#8] true).ports.byteIn = (after .bpPack (packing "0001" true)).byteOut ∧
    WithinCap (unpacking [0x11#8] true) 8 := ⟨rfl, rfl, rfl, rfl, by decide, (fun _ h => by cases h)⟩
theorem witness_PackOfUnpackGivesTheBytesExactlyWithHeader :
    exec .buUnpack (unpacking [0x11#8] true) = .next (after .buUnpack (unpacking [0x11#8] true)) ∧
    (packing "0001" true).ports.charIn = (after .buUnpack (unpacking [0x11#8] true)).charOut ∧
    exec .bpPack (packing "0001" true) = .next (after .bpPack (packing "0001" true)) ∧
    (packing "0001" true).fault = false ∧ (packing "0001" true).ports.sinkOk = true ∧
    (unpacking [0x11#8] true).ports.srcOk = true := ⟨rfl, by decide, rfl, rfl, rfl, rfl⟩
theorem witness_BuUnpackGivesBitCharactersOnly : (unpacking [0x11#8] true).fault = false ∧
    exec .buUnpack (unpacking [0x11#8] true) = .next (after .buUnpack (unpacking [0x11#8] true)) := ⟨rfl, rfl⟩
theorem witness_Bits8AndByte8AreInverse : (bits8 0xA5#8).length = 8 := rfl

theorem witness_ReadingAndPackingFrame : Instr.tbNode 3 ≠ .tbBuild ∧ Instr.tbNode 3 ≠ .cdDerive ∧
    exec (.tbNode 3) built = .next (after (.tbNode 3) built) ∧
    exec (.cdLookup 0x7A) derived = .next (after (.cdLookup 0x7A) derived) ∧
    exec .bpPack (packing "0001" true) = .next (after .bpPack (packing "0001" true)) ∧
    exec .buUnpack (unpacking [0x11#8] true) = .next (after .buUnpack (unpacking [0x11#8] true)) :=
  ⟨by decide, by decide, rfl, rfl, rfl, rfl⟩
theorem witness_BuildAndDeriveFrame : exec .cdDerive built = .next derived ∧
    exec .tbBuild (listing tieEntries) = .next built ∧ built.fault = (listing tieEntries).fault :=
  ⟨rfl, rfl, by decide⟩
theorem witness_CdDeriveRepeatedGivesTheSameTable : exec .cdDerive built = .next derived := rfl
theorem witness_OperationMapWords : (5 < 512 ∧ (0x2005#16).toNat = 0x2000 + 5) ∧
    0x61 < 256 ∧ (0x4061#16).toNat = 0x4000 + 0x61 := by decide

theorem witness_FreqMeetsTheBuilderContract : chars "aaab" ≠ [] ∧ (wRatio .exact 4).isSome = true ∧
    (wRatio .binary64 4).isSome = true := ⟨by decide, rfl, rfl⟩
theorem witness_FreqOrdersByCountThenSymbol : countsApart .exact (chars "aaab").length = true ∧
    countsApart .binary64 (chars "aaab").length = true ∧
    freq .exact (chars "aaab") = some [entry 0x62 1 4, entry 0x61 3 4] := by decide +kernel
theorem witness_FreqEntriesAreCountsOverTotal :
    freq .exact (chars "aaab") = some [entry 0x62 1 4, entry 0x61 3 4] ∧
    freq .exact (chars "aaaa") = some [entry 0x62 0 1, entry 0x61 1 1] ∧
    freq .binary64 (chars "aaaa") = some [entry 0x62 0 1, entry 0x61 1 1] := by decide +kernel
theorem witness_TextRoundTrip : State.reset.fault = false ∧ WithinCap State.reset (255 * 4 + 8) ∧ chars "aaab" ≠ [] ∧
    (wRatio State.reset.params.arith 4).isSome = true ∧
    WithinCap { State.reset with params := ⟨.binary64, some 1028⟩ } (255 * 4 + 8) := by
  refine ⟨rfl, (fun _ h => by cases h), by decide, rfl, fun c h => ?_⟩
  cases h; decide
theorem witness_SingleSymbolText : State.reset.fault = false ∧ WithinCap State.reset 4 ∧ 1 ≤ 4 ∧
    (wRatio State.reset.params.arith 4).isSome = true :=
  ⟨rfl, (fun _ h => by cases h), by decide, rfl⟩
theorem witness_HostContractViolationsHaveNoResult : built.fault = false ∧ derived.fault = false ∧
    (∃ x ∈ chars "abz", storeRead derived.ct x.toNat = none) ∧ State.reset.root = 0x1FF#9 ∧
    WithinCap State.reset (8 * [0x11#8].length) :=
  ⟨by decide, by decide, by decide, rfl, (fun _ h => by cases h)⟩

end Sys2Proof.Tests
end

section
/-! The capacity of the bit packer and unpacker: a request above `CAP_BITS` is refused, not truncated (R14). -/

namespace Sys2Proof.Machine

theorem exec_bpPack (s : State) : exec .bpPack s = execBpPack s := rfl

theorem exec_buUnpack (s : State) : exec .buUnpack s = execBuUnpack s := rfl

/-- More bits than the capacity are not within it (R14). -/
theorem not_withinCap_of_capBits_lt {s : State} {c n : Nat} (hc : s.params.capBits = some c) (hn : c < n) :
    ¬ WithinCap s n :=
  fun hw => absurd (hw c hc) (Nat.not_le_of_gt hn)

/-- Outside the fault, `BP_PACK` of more characters than the capacity is refused (R173). -/
theorem exec_bpPack_of_not_withinCap {s : State} (hf : s.fault = false)
    (hcap : ¬ WithinCap s s.ports.charIn.length) : exec .bpPack s = .refused .overCapBits := by
  rw [exec_bpPack]
  rcases execBpPack_cases s with ⟨hfault, -⟩ | ⟨-, -, hrefused⟩ | ⟨-, hw, -⟩ | ⟨-, hw, -⟩ | ⟨-, hw, -⟩
  · simp [hf] at hfault
  · exact hrefused
  · exact absurd hw hcap
  · exact absurd hw hcap
  · exact absurd hw hcap

/-- Outside the fault, `BU_UNPACK` of more bits than the capacity from a good source is refused (R191). -/
theorem exec_buUnpack_of_not_withinCap {s : State} (hf : s.fault = false) (hsrc : s.ports.srcOk = true)
    (hcap : ¬ WithinCap s (8 * s.ports.byteIn.length)) : exec .buUnpack s = .refused .overCapBits := by
  rw [exec_buUnpack]
  rcases execBuUnpack_cases s with ⟨hfault, -⟩ | ⟨-, hbad, -⟩ | ⟨-, -, -, hrefused⟩ | ⟨-, -, hw, -⟩
  · simp [hf] at hfault
  · simp [hsrc] at hbad
  · exact hrefused
  · exact absurd hw hcap

/-- Settles O43: both operations refuse what is not within the capacity. -/
theorem requestsAboveCapacityAreRefused : Obligations.RequestsAboveCapacityAreRefused := by
  intro s c hf hc
  exact ⟨fun hn => exec_bpPack_of_not_withinCap hf (not_withinCap_of_capBits_lt hc hn),
    fun hn hsrc => exec_buUnpack_of_not_withinCap hf hsrc (not_withinCap_of_capBits_lt hc hn)⟩

end Sys2Proof.Machine
end

section
/-! The reset state, and what each operation leaves as it is (R37, R38, R47): one lemma per operation says which fields
of the next state it can have written, and the frames follow from them. -/

namespace Sys2Proof.Machine

/-! ## The reset state -/

/-- Settles O9: the tree is `Empty` because the root is `NONE`; the other values are those `State.resetWith` lists. -/
theorem resetStateHoldsTheResetValues : Obligations.ResetStateHoldsTheResetValues :=
  ⟨rfl, rfl, absTree_eq_empty.2 rfl, rfl, rfl, fun _ => rfl, rfl, rfl, rfl, rfl, rfl, rfl, rfl⟩

/-- No tree has been built at reset (R38). -/
theorem reset_treeOk : TreeOk State.reset := .inl ⟨rfl, rfl, rfl⟩

/-- The status and result registers agree at reset: `OK` with no information, empty streams, no hit (R38). -/
theorem reset_resultsOk : ResultsOk State.reset :=
  ⟨by decide, fun _ => rfl, fun _ hc => absurd hc List.not_mem_nil, by decide, fun hhit => absurd hhit (by decide)⟩

/-- Settles O16: nothing is stored, queued or in the fault at reset. -/
theorem invariantHoldsAtReset : Obligations.InvariantHoldsAtReset := by
  obtain ⟨hnode, hct⟩ := reset_storeWf
  exact ⟨hnode, hct, Nat.zero_le _, fun hfault => absurd hfault (by decide),
    fun _ => ⟨rfl, rfl, reset_treeOk, fun _ hp => absurd hp List.not_mem_nil, reset_resultsOk⟩⟩

/-! ## What each operation writes -/

/-- `TB_NODE` writes `node_out`, the status and the counter of free values (R47). -/
theorem execTbNode_next {idx : Nat} {s t : State} (h : execTbNode idx s = .next t) :
    ∃ out d, t = finish { s with nodeOut := out, draws := d } := by
  rcases execTbNode_cases idx s with ⟨-, he⟩ | ⟨-, -, he⟩ | ⟨-, -, he⟩ <;> rw [he] at h <;> cases h
  · exact ⟨_, s.draws, rfl⟩
  · exact ⟨_, _, rfl⟩

/-- `CD_LOOKUP` writes `lookup_out`, the status and the counter of free values (R47). -/
theorem execCdLookup_next {sym : Nat} {s t : State} (h : execCdLookup sym s = .next t) :
    ∃ out d, t = finish { s with lookupOut := out, draws := d } := by
  rcases execCdLookup_cases sym s with ⟨-, he⟩ | ⟨-, r, -, he⟩ | ⟨-, -, he⟩ <;> rw [he] at h <;> cases h
  · exact ⟨_, s.draws, rfl⟩
  · exact ⟨_, _, rfl⟩

/-- `BP_PACK` writes `byte_out`, `status` and `err_info` (R47). -/
theorem execBpPack_next {s t : State} (h : execBpPack s = .next t) :
    ∃ out st info, t = { s with byteOut := out, status := st, errInfo := info } := by
  rcases execBpPack_cases s with ⟨-, he⟩ | ⟨-, -, he⟩ | ⟨-, -, k, -, he⟩ | ⟨-, -, -, -, he⟩ | ⟨-, -, -, -, he⟩ <;>
    rw [he] at h <;> cases h
  all_goals exact ⟨_, _, _, rfl⟩

/-- `BU_UNPACK` writes `char_out`, `status` and `err_info` (R47). -/
theorem execBuUnpack_next {s t : State} (h : execBuUnpack s = .next t) :
    ∃ out st info, t = { s with charOut := out, status := st, errInfo := info } := by
  rcases execBuUnpack_cases s with ⟨-, he⟩ | ⟨-, -, he⟩ | ⟨-, -, -, he⟩ | ⟨-, -, -, he⟩ <;> rw [he] at h <;> cases h
  all_goals exact ⟨_, _, _, rfl⟩

/-- `CD_DERIVE` writes the code table and the status (R47). -/
theorem execCdDerive_next {s t : State} (h : execCdDerive s = .next t) : ∃ table, t = finish { s with ct := table } := by
  rcases execCdDerive_cases s with ⟨-, he⟩ | ⟨-, table, -, he⟩ | ⟨-, -, he⟩ | ⟨-, -, he⟩ <;> rw [he] at h <;> cases h
  exact ⟨table, rfl⟩

/-- The start of a build leaves the code table, the result registers and the host's side (R113, R114). -/
theorem loaded_frame (s : State) :
    (loaded s).ct = s.ct ∧ (loaded s).byteOut = s.byteOut ∧ (loaded s).charOut = s.charOut ∧
    (loaded s).nodeOut = s.nodeOut ∧ (loaded s).lookupOut = s.lookupOut ∧ SameHost s (loaded s) := by
  obtain ⟨-, -, heq⟩ := loadLeaves_frame s.ports.entryIn (startBuild s)
  rw [loaded, heq]
  exact ⟨rfl, rfl, rfl, rfl, rfl, rfl, rfl, rfl⟩

/-- A `TB_BUILD` that does not set the fault has built the tree: it leaves the code table, the result registers and the
host's side (R47, R69). -/
theorem execTbBuild_frame {s t : State} (h : execTbBuild s = .next t) (hfault : t.fault = s.fault) :
    t.ct = s.ct ∧ t.byteOut = s.byteOut ∧ t.charOut = s.charOut ∧ t.nodeOut = s.nodeOut ∧
    t.lookupOut = s.lookupOut ∧ SameHost s t := by
  rcases execTbBuild_cases s with ⟨-, he⟩ | ⟨hf, -, he⟩ | ⟨-, -, -, why, he⟩ | ⟨-, -, u, r, hloop, -, -, he⟩ <;>
    rw [he] at h <;> cases h
  · simp [raise_fault, hf] at hfault
  · obtain ⟨lct, lbyte, lchar, lnode, llook, lports, lreqs, lparams⟩ := loaded_frame s
    obtain ⟨-, -, -, mct, -, mbyte, mchar, mnode, mlook, mports, mreqs, mparams⟩ := mergeLoop_frame hloop
    exact ⟨mct.trans lct, mbyte.trans lbyte, mchar.trans lchar, mnode.trans lnode, mlook.trans llook,
      mports.trans lports, mreqs.trans lreqs, mparams.trans lparams⟩

/-! ## The frames -/

/-- Settles O53: `CD_DERIVE` by what it writes, `TB_BUILD` by its frame without the fault. -/
theorem buildAndDeriveFrame : Obligations.BuildAndDeriveFrame := by
  intro s t
  constructor
  · intro h
    obtain ⟨table, rfl⟩ := execCdDerive_next h
    exact ⟨⟨fun _ => rfl, rfl, rfl, rfl, rfl⟩, ⟨rfl, rfl, rfl⟩, rfl, rfl, rfl, rfl, rfl⟩
  · intro h hfault
    obtain ⟨hct, hbyte, hchar, hnode, hlook, hhost⟩ := execTbBuild_frame h hfault
    exact ⟨fun i => by rw [hct], hhost, hbyte, hchar, hnode, hlook⟩

/-- Settles O52: each of the four operations writes its own result register, the status and at most the counter of free
values. -/
theorem readingAndPackingFrame : Obligations.ReadingAndPackingFrame := by
  intro i s t hbuild hderive h
  cases i with
  | tbBuild => exact absurd rfl hbuild
  | cdDerive => exact absurd rfl hderive
  | tbNode idx =>
    obtain ⟨out, d, rfl⟩ := execTbNode_next h
    exact ⟨⟨fun _ => rfl, rfl, rfl, rfl, rfl⟩, fun _ => rfl, ⟨rfl, rfl, rfl⟩, rfl,
      fun hown => absurd rfl (hown idx), fun _ => rfl, fun _ => rfl, fun _ => rfl⟩
  | cdLookup sym =>
    obtain ⟨out, d, rfl⟩ := execCdLookup_next h
    exact ⟨⟨fun _ => rfl, rfl, rfl, rfl, rfl⟩, fun _ => rfl, ⟨rfl, rfl, rfl⟩, rfl,
      fun _ => rfl, fun hown => absurd rfl (hown sym), fun _ => rfl, fun _ => rfl⟩
  | bpPack =>
    obtain ⟨out, st, info, rfl⟩ := execBpPack_next h
    exact ⟨⟨fun _ => rfl, rfl, rfl, rfl, rfl⟩, fun _ => rfl, ⟨rfl, rfl, rfl⟩, rfl,
      fun _ => rfl, fun _ => rfl, fun hown => absurd rfl hown, fun _ => rfl⟩
  | buUnpack =>
    obtain ⟨out, st, info, rfl⟩ := execBuUnpack_next h
    exact ⟨⟨fun _ => rfl, rfl, rfl, rfl, rfl⟩, fun _ => rfl, ⟨rfl, rfl, rfl⟩, rfl,
      fun _ => rfl, fun _ => rfl, fun _ => rfl, fun hown => absurd rfl hown⟩

end Sys2Proof.Machine
end

section
/-! One step outside the fault: the next command's decoded operation runs (R64, R87). -/

namespace Sys2Proof.Machine

/-- Outside the fault a command at the front of the queue is taken and run (R64). -/
theorem step_of_command {s : State} {c : Command} {rest : List Request} (hf : s.fault = false)
    (hq : s.requests = .command c :: rest) : step s = runCommand c (popRequest s rest) := by
  simp [step, hf, hq, serve]

/-- A legal command is its decoded operation on the presented operands (R55, R87). -/
theorem runCommand_of_decode_ok {c : Command} {i : Instr} (hd : decode c.cw = .ok i) (s : State) :
    runCommand c s = exec i (present s c.operands) := by
  rw [runCommand, hd]

/-- Settles O6: the command leaves the queue, and its decoded operation runs on its operands. -/
theorem stepRunsTheDecodedCommand : Obligations.StepRunsTheDecodedCommand := by
  intro s c rest i hf hq hd
  calc step s = runCommand c (popRequest s rest) := step_of_command hf hq
    _ = exec i (present (popRequest s rest) c.operands) := runCommand_of_decode_ok hd _

end Sys2Proof.Machine
end

section
/-! Bytes and their bits (R58): the number of a bit sequence is `Nat.bit` from its last bit on, so its binary digits are
the sequence read backwards. -/

namespace Sys2Proof.Machine

/-- The last bit of a sequence is the lowest digit of its number. -/
theorem bitsValue_concat (s : List Bit) (b : Bit) : bitsValue (s ++ [b]) = Nat.bit b (bitsValue s) := by
  simp [bitsValue, Nat.bit_val]

theorem bitsValue_lt (s : List Bit) : bitsValue s < 2 ^ s.length := by
  induction s using List.reverseRecOn with
  | nil => exact Nat.one_pos
  | append_singleton s b ih =>
    rw [bitsValue_concat, Nat.bit_val, List.length_append, List.length_singleton, Nat.pow_succ]
    have := b.toNat_lt
    omega

/-- Digit `i` of the number is bit `i` of the sequence counted from its end. -/
theorem testBit_bitsValue (s : List Bit) (i : Nat) : (bitsValue s).testBit i = s.reverse.getD i false := by
  induction s using List.reverseRecOn generalizing i with
  | nil => exact Nat.zero_testBit i
  | append_singleton s b ih =>
    rw [bitsValue_concat, List.reverse_concat]
    cases i with
    | zero => exact Nat.testBit_bit_zero b _
    | succ i => rw [Nat.testBit_bit_succ, ih, List.getD_cons_succ]

theorem getLsbD_byte8 (s : List Bit) {i : Nat} (hi : i < 8) : (byte8 s).getLsbD i = s.reverse.getD i false := by
  rw [byte8, BitVec.getLsbD_ofNat, decide_eq_true hi, Bool.true_and, testBit_bitsValue]

/-- The bits of a byte from bit 0 up. -/
theorem reverse_bits8 (b : Byte) : (bits8 b).reverse = (List.range 8).map b.getLsbD := rfl

theorem byte8_bits8 (b : Byte) : byte8 (bits8 b) = b := by
  apply BitVec.eq_of_getLsbD_eq
  intro i hi
  rw [getLsbD_byte8 _ hi, reverse_bits8]
  simp [hi]

theorem bits8_byte8 {s : List Bit} (hs : s.length = 8) : bits8 (byte8 s) = s := by
  apply List.reverse_injective
  rw [reverse_bits8]
  apply List.ext_getElem
  · simp [hs]
  · intro i hi hi'
    have hlt : i < 8 := by simpa using hi
    rw [List.getElem_map, List.getElem_range, getLsbD_byte8 s hlt, List.getD_eq_getElem _ _ hi']

theorem toNat_byte8 {s : List Bit} (hs : s.length = 8) : (byte8 s).toNat = bitsValue s := by
  rw [byte8, BitVec.toNat_ofNat, Nat.mod_eq_of_lt (hs ▸ bitsValue_lt s)]

/-- The number of eight bits is the sum of R58. -/
theorem bitsValue_eight (a b c d e f g h : Bit) : bitsValue [a, b, c, d, e, f, g, h] =
    a.toNat * 128 + b.toNat * 64 + c.toNat * 32 + d.toNat * 16 + e.toNat * 8 + f.toNat * 4 + g.toNat * 2 + h.toNat := by
  simp only [bitsValue, List.foldl_cons, List.foldl_nil]
  omega

/-- Settles O51: the two inverses come from the digits of `bitsValue`, the sum from its Horner form. -/
theorem bits8AndByte8AreInverse : Obligations.Bits8AndByte8AreInverse :=
  ⟨byte8_bits8, fun _ hs => bits8_byte8 hs, fun _ => rfl,
    fun a b c d e f g h => (toNat_byte8 rfl).trans (bitsValue_eight a b c d e f g h)⟩

end Sys2Proof.Machine
end

section
/-! The command word (R87 to R91): its three fields determine it, and the decoder reads an operation off them exactly when
they are the fields of a well-formed operation. -/

namespace Sys2Proof

/-! ## The fields of a word -/

theorem toNat_cmdOp (cw : CmdWord) : (cmdOp cw).toNat = cw.toNat / 4096 := by
  have := cw.isLt
  simp only [cmdOp, BitVec.extractLsb'_toNat, Nat.shiftRight_eq_div_pow]
  omega

theorem toNat_cmdZ (cw : CmdWord) : (cmdZ cw).toNat = cw.toNat / 512 % 8 := by
  simp only [cmdZ, BitVec.extractLsb'_toNat, Nat.shiftRight_eq_div_pow]

theorem toNat_cmdArg (cw : CmdWord) : (cmdArg cw).toNat = cw.toNat % 512 := by
  simp only [cmdArg, BitVec.extractLsb'_toNat, Nat.shiftRight_zero]

/-- Two words with the same fields are the same word: no bit lies outside them (R87). -/
theorem cmdWord_ext {cw cw' : CmdWord} (hop : cmdOp cw = cmdOp cw') (hz : cmdZ cw = cmdZ cw')
    (harg : cmdArg cw = cmdArg cw') : cw = cw' := by
  apply BitVec.eq_of_toNat_eq
  have hop := congrArg BitVec.toNat hop
  have hz := congrArg BitVec.toNat hz
  have harg := congrArg BitVec.toNat harg
  simp only [toNat_cmdOp, toNat_cmdZ, toNat_cmdArg] at hop hz harg
  omega

@[simp] theorem cmdOp_encode (i : Instr) : cmdOp (encode i) = i.op := (Laws.Fields.fields_of_cmdWord _ _ _).1

@[simp] theorem cmdZ_encode (i : Instr) : cmdZ (encode i) = 0#3 := (Laws.Fields.fields_of_cmdWord _ _ _).2.1

@[simp] theorem cmdArg_encode (i : Instr) : cmdArg (encode i) = i.arg := (Laws.Fields.fields_of_cmdWord _ _ _).2.2

/-- A word is the encoding of an operation exactly when it has its fields (R90). -/
theorem encode_eq_iff {i : Instr} {cw : CmdWord} :
    encode i = cw ↔ cmdOp cw = i.op ∧ cmdZ cw = 0#3 ∧ cmdArg cw = i.arg := by
  constructor
  · rintro rfl
    exact ⟨cmdOp_encode i, cmdZ_encode i, cmdArg_encode i⟩
  · rintro ⟨hop, hz, harg⟩
    exact cmdWord_ext (by simp [hop]) (by simp [hz]) (by simp [harg])

theorem toNat_encode (i : Instr) : (encode i).toNat = i.op.toNat * 4096 + i.arg.toNat := by
  have hop := congrArg BitVec.toNat (cmdOp_encode i)
  have hz := congrArg BitVec.toNat (cmdZ_encode i)
  have harg := congrArg BitVec.toNat (cmdArg_encode i)
  rw [toNat_cmdOp] at hop
  rw [toNat_cmdZ, BitVec.toNat_ofNat] at hz
  rw [toNat_cmdArg] at harg
  omega

/-! ## The decoder -/

/-- An `arg` with bit 8 clear is a symbol (R88). -/
theorem getLsbD_eight_eq_false_iff (arg : BitVec 9) : arg.getLsbD 8 = false ↔ arg.toNat < 256 := by
  have := arg.isLt
  rw [BitVec.getLsbD, Nat.testBit_eq_decide_div_mod_eq, decide_eq_false_iff_not]
  omega

theorem decodeNoArg_eq_ok_iff {cw : CmdWord} {i j : Instr} :
    decodeNoArg cw i = .ok j ↔ cmdArg cw = 0#9 ∧ i = j := by
  rw [decodeNoArg]
  split <;> simp [*]

/-- The word of a well-formed operation decodes to it: the immediate is read back from its field (R88, R90). -/
theorem decode_encode {i : Instr} (hi : i.wellFormed = true) : decode (encode i) = .ok i := by
  rw [decode, if_neg (by simp)]
  cases i with
  | tbBuild | cdDerive | bpPack | buUnpack =>
    rw [cmdOp_encode]
    exact decodeNoArg_eq_ok_iff.2 ⟨cmdArg_encode _, rfl⟩
  | tbNode idx =>
    have hlt : idx < 512 := of_decide_eq_true hi
    simp [Instr.op, Instr.arg, Nat.mod_eq_of_lt hlt]
  | cdLookup sym =>
    have hlt : sym < 256 := of_decide_eq_true hi
    have harg : (cmdArg (encode (.cdLookup sym))).toNat = sym := by
      rw [cmdArg_encode, Instr.arg, BitVec.toNat_ofNat, Nat.mod_eq_of_lt (by omega)]
    rw [cmdOp_encode]
    refine (if_neg ?_).trans (congrArg (Except.ok ∘ Instr.cdLookup) ?_)
    · rw [(getLsbD_eight_eq_false_iff _).2 (by omega)]
      decide
    · rw [BitVec.extractLsb'_toNat, harg]
      exact Nat.mod_eq_of_lt hlt

/-- An operation without immediate has the fields of the word it was decoded from, `arg` 0 among them (R88). -/
theorem fields_of_decodeNoArg_eq_ok {cw : CmdWord} {i j : Instr} (h : decodeNoArg cw j = .ok i) (hz : cmdZ cw = 0#3)
    (hop : (cmdOp cw).toNat = j.op.toNat) (hj : j.wellFormed = true) (harg : j.arg = 0#9) :
    i.wellFormed = true ∧ cmdOp cw = i.op ∧ cmdZ cw = 0#3 ∧ cmdArg cw = i.arg := by
  obtain ⟨hzero, rfl⟩ := decodeNoArg_eq_ok_iff.1 h
  exact ⟨hj, BitVec.eq_of_toNat_eq hop, hz, hzero.trans harg.symm⟩

/-- What decodes to an operation has its fields, and the operation is well-formed (R88, R91). -/
theorem fields_of_decode_eq_ok {cw : CmdWord} {i : Instr} (h : decode cw = .ok i) :
    i.wellFormed = true ∧ cmdOp cw = i.op ∧ cmdZ cw = 0#3 ∧ cmdArg cw = i.arg := by
  rw [decode] at h
  split at h
  · cases h
  next hz =>
    have hz : cmdZ cw = 0#3 := not_not.1 hz
    split at h
    next hop => exact fields_of_decodeNoArg_eq_ok h hz hop rfl rfl
    next hop =>
      cases h
      exact ⟨decide_eq_true (cmdArg cw).isLt, BitVec.eq_of_toNat_eq hop, hz, by simp [Instr.arg]⟩
    next hop => exact fields_of_decodeNoArg_eq_ok h hz hop rfl rfl
    next hop =>
      split at h
      · cases h
      next hbit =>
        have hlt := (getLsbD_eight_eq_false_iff _).1 (Bool.eq_false_iff.2 hbit)
        cases h
        refine ⟨decide_eq_true (BitVec.isLt _), BitVec.eq_of_toNat_eq hop, hz, BitVec.eq_of_toNat_eq ?_⟩
        rw [Instr.arg, BitVec.toNat_ofNat, BitVec.extractLsb'_toNat, Nat.shiftRight_zero]
        omega
    next hop => exact fields_of_decodeNoArg_eq_ok h hz hop rfl rfl
    next hop => exact fields_of_decodeNoArg_eq_ok h hz hop rfl rfl
    next => cases h

/-- The decoder answers an operation exactly on the word of that operation (R87, R90). -/
theorem decode_eq_ok_iff {cw : CmdWord} {i : Instr} : decode cw = .ok i ↔ i.wellFormed = true ∧ encode i = cw := by
  constructor
  · intro h
    obtain ⟨hwf, hfields⟩ := fields_of_decode_eq_ok h
    exact ⟨hwf, encode_eq_iff.2 hfields⟩
  · rintro ⟨hwf, rfl⟩
    exact decode_encode hwf

/-- Settles O1: the decoder reads each field of the word back. -/
theorem decodeOfEncodeIsTheInstruction : Obligations.DecodeOfEncodeIsTheInstruction := fun _ hi => decode_encode hi

/-- Settles O2: the fields of a word determine it, and the decoder has looked at all three. -/
theorem legalWordIsEncodingOfItsInstruction : Obligations.LegalWordIsEncodingOfItsInstruction :=
  fun _ _ h => decode_eq_ok_iff.1 h

/-! ## The operation map -/

theorem toNat_encode_tbNode {idx : Nat} (h : idx < 512) : (encode (.tbNode idx)).toNat = 0x2000 + idx := by
  simp [toNat_encode, Instr.op, Instr.arg, Nat.mod_eq_of_lt h]

theorem toNat_encode_cdLookup {sym : Nat} (h : sym < 256) : (encode (.cdLookup sym)).toNat = 0x4000 + sym := by
  have hlt : sym < 512 := by omega
  simp [toNat_encode, Instr.op, Instr.arg, Nat.mod_eq_of_lt hlt]

theorem decode_eq_tbNode_iff {cw : CmdWord} {idx : Nat} :
    decode cw = .ok (.tbNode idx) ↔ idx < 512 ∧ cw.toNat = 0x2000 + idx := by
  rw [decode_eq_ok_iff, Instr.wellFormed, decide_eq_true_iff]
  refine and_congr_right fun h => ?_
  rw [← BitVec.toNat_inj, toNat_encode_tbNode h, eq_comm]

theorem decode_eq_cdLookup_iff {cw : CmdWord} {sym : Nat} :
    decode cw = .ok (.cdLookup sym) ↔ sym < 256 ∧ cw.toNat = 0x4000 + sym := by
  rw [decode_eq_ok_iff, Instr.wellFormed, decide_eq_true_iff]
  refine and_congr_right fun h => ?_
  rw [← BitVec.toNat_inj, toNat_encode_cdLookup h, eq_comm]

/-- An operation without immediate has one word (R90). -/
theorem decode_eq_iff_of_encode {cw : CmdWord} {i : Instr} {w : CmdWord} (hwf : i.wellFormed = true)
    (hw : encode i = w) : decode cw = .ok i ↔ cw = w := by
  rw [decode_eq_ok_iff, hw]
  exact (and_iff_right hwf).trans eq_comm

/-- Settles O3: each row of the map is the word of its operation. -/
theorem operationMapWords : Obligations.OperationMapWords := fun _ =>
  ⟨decode_eq_iff_of_encode rfl (by decide), fun _ => decode_eq_tbNode_iff, decode_eq_iff_of_encode rfl (by decide),
    fun _ => decode_eq_cdLookup_iff, decode_eq_iff_of_encode rfl (by decide), decode_eq_iff_of_encode rfl (by decide)⟩

/-- Settles O5: the decoder evaluates on each of the eleven words. -/
theorem sampleWordsDecode : Obligations.SampleWordsDecode := by
  unfold Obligations.SampleWordsDecode
  decide

/-! ## Legal and illegal words -/

/-- The legal words as ranges of numbers (R90). -/
theorem exists_decode_eq_ok_iff {cw : CmdWord} :
    (∃ i, decode cw = .ok i) ↔
      cw.toNat = 0x1000 ∨ (0x2000 ≤ cw.toNat ∧ cw.toNat < 0x2200) ∨ cw.toNat = 0x3000 ∨
      (0x4000 ≤ cw.toNat ∧ cw.toNat < 0x4100) ∨ cw.toNat = 0x5000 ∨ cw.toNat = 0x6000 := by
  obtain ⟨hbuild, hnode, hderive, hlookup, hpack, hunpack⟩ := operationMapWords cw
  simp only [← BitVec.toNat_inj, BitVec.toNat_ofNat, Nat.reducePow, Nat.reduceMod] at hbuild hderive hpack hunpack
  constructor
  · rintro ⟨i, h⟩
    cases i with
    | tbBuild => have := hbuild.1 h; omega
    | tbNode idx => have := (hnode idx).1 h; omega
    | cdDerive => have := hderive.1 h; omega
    | cdLookup sym => have := (hlookup sym).1 h; omega
    | bpPack => have := hpack.1 h; omega
    | buUnpack => have := hunpack.1 h; omega
  · rintro (h | h | h | h | h | h)
    · exact ⟨_, hbuild.2 h⟩
    · exact ⟨_, (hnode (cw.toNat - 0x2000)).2 (by omega)⟩
    · exact ⟨_, hderive.2 h⟩
    · exact ⟨_, (hlookup (cw.toNat - 0x4000)).2 (by omega)⟩
    · exact ⟨_, hpack.2 h⟩
    · exact ⟨_, hunpack.2 h⟩

theorem exists_decode_eq_error_iff {cw : CmdWord} : (∃ e, decode cw = .error e) ↔ ¬ ∃ i, decode cw = .ok i := by
  cases decode cw <;> simp

end Sys2Proof
end

section
/-! An illegal command word executes nothing (R91, R234). -/

namespace Sys2Proof.Machine

/-- The words R91 lists are those in none of the legal ranges. -/
theorem illegalWord_iff {cw : CmdWord} : IllegalWord cw ↔ ∃ e, decode cw = .error e := by
  rw [exists_decode_eq_error_iff, exists_decode_eq_ok_iff]
  have := cw.isLt
  unfold IllegalWord
  omega

/-- A word that does not decode is reported on the presented operands (R91). -/
theorem runCommand_of_decode_error {c : Command} {e : DecodeError} (hd : decode c.cw = .error e) (s : State) :
    runCommand c s = execIllegal c.cw (present s c.operands) := by
  rw [runCommand, hd]

/-- An illegal word is reported and not executed (R91). -/
theorem runCommand_of_illegalWord {c : Command} (hc : IllegalWord c.cw) {s : State} (hf : s.fault = false) :
    runCommand c s = .next { s with ports := c.operands, status := .illegalCommand, errInfo := c.cw.toNat } := by
  obtain ⟨e, he⟩ := illegalWord_iff.1 hc
  rw [runCommand_of_decode_error he, execIllegal, if_neg (by simp [hf]), raise_reported _ _ (by simp)]
  rfl

/-- Settles O4: the listed words are those outside the operation map, and such a word is only reported. -/
theorem illegalWordsOnlyReport : Obligations.IllegalWordsOnlyReport := by
  refine ⟨fun cw => illegalWord_iff, by decide, by decide, fun s cw o rest hcw hf hq => ?_⟩
  calc step s = runCommand { cw := cw, operands := o } (popRequest s rest) := step_of_command hf hq
    _ = .next { s with ports := o, requests := rest, status := .illegalCommand, errInfo := cw.toNat } :=
      runCommand_of_illegalWord hcw hf

end Sys2Proof.Machine
end

section
/-! The numbers of the status codes (R93). -/

namespace Sys2Proof.Machine

/-- Settles O13: the codes are the values of `statusCode`, and the bound is looked up for each status. -/
theorem statusCodesAreNumberedAsGiven : Obligations.StatusCodesAreNumberedAsGiven := by
  refine ⟨rfl, rfl, rfl, rfl, rfl, fun st => ?_⟩
  cases st <;> decide

end Sys2Proof.Machine
end

section
/-! The packed stream bit by bit (R59, R75, R77): cutting bits into bytes and reading them back is the identity, so the
bytes `BP_PACK` leaves show the frame. -/

namespace Sys2Proof.Machine

/-! ## Bits cut into bytes -/

/-- The first eight bits are the first byte (R59). -/
theorem tobytes_append {a : List Bit} (ha : a.length = 8) (s : List Bit) :
    tobytes (a ++ s) = byte8 a :: tobytes s := by
  match a, ha with
  | [_, _, _, _, _, _, _, _], _ => rfl

theorem tobytes_eq_cons {s : List Bit} (hs : 8 ≤ s.length) : tobytes s = byte8 (s.take 8) :: tobytes (s.drop 8) := by
  conv_lhs => rw [← List.take_append_drop 8 s]
  exact tobytes_append (List.length_take_of_le hs) _

/-- The bits of the bytes are the bits that were cut (R59). -/
theorem unbits_tobytes {n : Nat} {s : List Bit} (hs : s.length = 8 * n) : unbits (tobytes s) = s := by
  induction n generalizing s with
  | zero => rw [List.length_eq_zero_iff.1 hs]; rfl
  | succ n ih =>
    have hle : 8 ≤ s.length := by omega
    rw [tobytes_eq_cons hle, unbits_cons, bits8_byte8 (List.length_take_of_le hle),
      ih (by rw [List.length_drop]; omega), List.take_append_drop]

/-- Bit `k` of a byte is digit `7 - k` of its number (R58). -/
theorem getD_bits8 (b : Byte) {k : Nat} (hk : k < 8) : (bits8 b).getD k false = b.getLsbD (7 - k) := by
  interval_cases k <;> rfl

/-- Bit `k` of a byte sequence lies in byte `k / 8` (R59). -/
theorem getD_unbits (bs : List Byte) (k : Nat) :
    (unbits bs).getD k false = (bs.getD (k / 8) 0#8).getLsbD (7 - k % 8) := by
  induction bs generalizing k with
  | nil => simp
  | cons b bs ih =>
    rw [unbits_cons]
    rcases Nat.lt_or_ge k 8 with hk | hk
    · rw [List.getD_append _ _ _ _ hk, getD_bits8 b hk, Nat.div_eq_of_lt hk, Nat.mod_eq_of_lt hk, List.getD_cons_zero]
    · obtain ⟨j, rfl⟩ := Nat.exists_eq_add_of_le' hk
      rw [List.getD_append_right _ _ _ _ hk, bits8_length, Nat.add_sub_cancel, ih, Nat.add_mod_right,
        Nat.add_div_right _ (by decide), List.getD_cons_succ]

/-! ## The frame -/

/-- Header zeros, header one, payload (R75). -/
theorem getD_frame (p : List Bit) (k : Nat) :
    (frame p).getD k false = true ↔
      k + 1 = padding p.length ∨ (padding p.length ≤ k ∧ p.getD (k - padding p.length) false = true) := by
  obtain ⟨m, hm⟩ := Nat.exists_eq_add_of_le' (padding_range p.length).1
  rw [frame, hm, Nat.add_sub_cancel, List.append_assoc, List.singleton_append]
  rcases Nat.lt_trichotomy k m with hlt | rfl | hgt
  · rw [List.getD_append _ _ _ _ (by simpa using hlt), List.getD_replicate _ hlt, Bool.false_eq_true, false_iff]
    omega
  · rw [List.getD_append_right _ _ _ _ (by simp)]
    simp
  · obtain ⟨j, rfl⟩ := Nat.exists_eq_add_of_lt hgt
    rw [List.getD_append_right _ _ _ _ (by rw [List.length_replicate]; omega), List.length_replicate,
      show m + j + 1 - m = j + 1 by omega, List.getD_cons_succ, show m + j + 1 - (m + 1) = j by omega]
    rw [or_iff_right (by omega), and_iff_right (by omega)]

/-- A bit of the payload is 1 where the character is '1' (R80). -/
theorem getD_payload (cs : List Byte) (k : Nat) : (payload cs).getD k false = true ↔ cs.getD k charZero = charOne := by
  rw [payload, show false = bitOf charZero from rfl, List.getD_map]
  exact beq_iff_eq

/-- The frame's first eight bits: the header and the `L mod 8` bits of the payload that complete its byte (R76). -/
theorem take_frame (p : List Bit) :
    (frame p).take 8 = List.replicate (padding p.length - 1) false ++ true :: p.take (p.length % 8) := by
  have hlen : 8 = (List.replicate (padding p.length - 1) false ++ [true]).length + p.length % 8 := by
    simp only [padding, List.length_append, List.length_replicate, List.length_singleton]
    omega
  conv_lhs => rw [frame, hlen, List.take_length_add_append]
  simp

/-! ## Numbers of bit sequences -/

theorem bitsValue_append (s u : List Bit) : bitsValue (s ++ u) = bitsValue s * 2 ^ u.length + bitsValue u := by
  induction u using List.reverseRecOn with
  | nil => simp [bitsValue]
  | append_singleton u b ih =>
    rw [← List.append_assoc, bitsValue_concat, bitsValue_concat, ih, List.length_append, List.length_singleton,
      Nat.pow_succ, Nat.bit_val, Nat.bit_val]
    ring

theorem bitsValue_replicate_false (n : Nat) : bitsValue (List.replicate n false) = 0 := by
  induction n with
  | zero => rfl
  | succ n ih => rw [List.replicate_succ', bitsValue_concat, ih]; rfl

/-- The highest 1 of a bit sequence bounds its number on both sides. -/
theorem bitsValue_leading_one (n : Nat) (s : List Bit) :
    2 ^ s.length ≤ bitsValue (List.replicate n false ++ true :: s) ∧
    bitsValue (List.replicate n false ++ true :: s) < 2 ^ (s.length + 1) := by
  have hs := bitsValue_lt s
  have hone : bitsValue (true :: s) = 2 ^ s.length + bitsValue s := by
    rw [← List.singleton_append, bitsValue_append, show bitsValue [true] = 1 from rfl, Nat.one_mul]
  rw [bitsValue_append, bitsValue_replicate_false, Nat.zero_mul, Nat.zero_add, hone, Nat.pow_succ]
  omega

/-! ## What `BP_PACK` leaves -/

/-- A `BP_PACK` that ends with `OK` leaves the frame cut into bytes (R167). -/
theorem byteOut_of_bpPack_ok {s t : State} (h : exec .bpPack s = .next t) (hok : t.status = .ok) :
    t.byteOut = tobytes (frame (payload s.ports.charIn)) := by
  rw [exec_bpPack] at h
  rcases execBpPack_cases s with ⟨-, he⟩ | ⟨-, -, he⟩ | ⟨-, -, k, -, he⟩ | ⟨-, -, -, -, he⟩ | ⟨-, -, -, -, he⟩ <;>
    rw [he] at h <;> cases h
  · cases hok
  · cases hok
  · rfl

/-- A `BP_PACK` of a valid string with a good sink that ends in a next state ends with `OK` (R169). -/
theorem status_of_bpPack {s t : State} (hchars : BitChars s.ports.charIn) (hsink : s.ports.sinkOk = true)
    (h : exec .bpPack s = .next t) : t.status = .ok := by
  rw [exec_bpPack] at h
  rcases execBpPack_cases s with ⟨-, he⟩ | ⟨-, -, he⟩ | ⟨-, -, k, hbad, -⟩ | ⟨-, -, -, hbad, -⟩ | ⟨-, -, -, -, he⟩
  · rw [he] at h; cases h
  · rw [he] at h; cases h
  · rw [firstBadChar_eq_none.2 hchars] at hbad; cases hbad
  · rw [hsink] at hbad; cases hbad
  · rw [he] at h; cases h; rfl

/-- The frame of the characters fills `L div 8 + 1` bytes (R78). -/
theorem frame_payload_length (cs : List Byte) : (frame (payload cs)).length = 8 * (cs.length / 8 + 1) := by
  rw [frame_length, payload, List.length_map]

/-- Settles O39: the bits of the bytes are those of the frame, and the frame is header and payload. -/
theorem packedStreamHoldsHeaderAndPayload : Obligations.PackedStreamHoldsHeaderAndPayload := by
  intro s t _ hchars hsink h
  have hlen := frame_payload_length s.ports.charIn
  rw [byteOut_of_bpPack_ok h (status_of_bpPack hchars hsink h)]
  refine ⟨tobytes_length _ _ hlen, fun k _ => ?_⟩
  rw [← getD_unbits, unbits_tobytes hlen, getD_frame, getD_payload, payload, List.length_map]
  rfl

/-- Settles O42: byte 0 holds the header and `L mod 8` bits of the payload, and the header's one leads it. -/
theorem firstPackedByteLiesInItsRange : Obligations.FirstPackedByteLiesInItsRange := by
  intro s t _ h hok
  have hlen : 8 ≤ (frame (payload s.ports.charIn)).length := by rw [frame_payload_length]; omega
  refine ⟨_, _, (byteOut_of_bpPack_ok h hok).trans (tobytes_eq_cons hlen), ?_⟩
  rw [toNat_byte8 (List.length_take_of_le hlen), take_frame]
  have hrest : ((payload s.ports.charIn).take ((payload s.ports.charIn).length % 8)).length =
      s.ports.charIn.length % 8 := by
    rw [List.length_take_of_le (Nat.mod_le _ _), payload, List.length_map]
  rw [← hrest]
  exact bitsValue_leading_one _ _

end Sys2Proof.Machine
end

section
/-! The operations of the tree builder one by one (R112, R116 to R118, R130): what `TB_BUILD` answers on a list that
breaks its contract, what one selection and one merge step do, and what `TB_NODE` answers. -/

namespace Sys2Proof.Machine

theorem exec_tbBuild (s : State) : exec .tbBuild s = execTbBuild s := rfl

theorem exec_tbNode (idx : Nat) (s : State) : exec (.tbNode idx) s = execTbNode idx s := rfl

/-! ## The operand of `TB_BUILD` -/

/-- Settles O18: the short list raises the structural precondition. -/
theorem tbBuildOfShortListFaults : Obligations.TbBuildOfShortListFaults := by
  intro s hf hshort
  rw [exec_tbBuild]
  rcases execTbBuild_cases s with ⟨hfault, -⟩ | ⟨-, -, he⟩ | ⟨-, hlen, -⟩ | ⟨-, ⟨hlen, -⟩, -⟩
  · simp [hf] at hfault
  · exact ⟨_, he, by simp [raise_fault], raise_status _ _, raise_errInfo _ _, raise_ports _ _, raise_requests _ _,
      raise_params _ _⟩
  · exact absurd hlen (by omega)
  · exact absurd hlen (Nat.not_le_of_gt hshort)

/-- Settles O19: on 2 or more entries the two outcomes are told apart by the rest of the contract. -/
theorem tbBuildRunsExactlyOnTheContract : Obligations.TbBuildRunsExactlyOnTheContract := by
  intro s hf hlen
  rw [exec_tbBuild]
  rcases execTbBuild_cases s with ⟨hfault, -⟩ | ⟨-, hshort, -⟩ | ⟨-, -, hbroken, hrefused⟩ |
    ⟨-, ⟨-, hcontract⟩, u, r, -, -, -, he⟩
  · simp [hf] at hfault
  · exact absurd hlen (by omega)
  · exact ⟨fun hcontract => absurd hcontract hbroken, fun _ => hrefused⟩
  · exact ⟨fun _ => ⟨_, he⟩, fun hbroken => absurd hcontract hbroken⟩

/-! ## One selection -/

theorem select_both_empty {s : State} (hs : s.source = []) (ht : s.target = []) : select s = none := by
  simp [select, hs, ht]

theorem select_target_empty {s : State} {a : NodeRef} {src : List NodeRef} (hs : s.source = a :: src)
    (ht : s.target = []) : select s = some (a, { s with source := src }) := by
  simp [select, hs, ht]

theorem select_source_empty {s : State} {b : NodeRef} {tgt : List NodeRef} (hs : s.source = [])
    (ht : s.target = b :: tgt) : select s = some (b, { s with target := tgt }) := by
  simp [select, hs, ht]

theorem select_both {s : State} {a b : NodeRef} {src tgt : List NodeRef} (hs : s.source = a :: src)
    (ht : s.target = b :: tgt) :
    select s = if wLe s.params.arith (refWeight s a) (refWeight s b) then some (a, { s with source := src })
      else some (b, { s with target := tgt }) := by
  simp [select, hs, ht]

/-- Settles O25: the four cases of the two queues, the last one split by the comparison of the fronts. -/
theorem selectionFollowsTheTieBreak : Obligations.SelectionFollowsTheTieBreak := by
  refine fun s => ⟨select_both_empty, fun a src => select_target_empty, fun b tgt => select_source_empty,
    fun a src b tgt hs ht => ⟨fun hle => ?_, fun hgt => ?_⟩⟩
  · exact (select_both hs ht).trans (if_pos hle)
  · exact (select_both hs ht).trans (if_neg (by simpa [refWeight] using hgt))

/-- The selected node is one of those queued, and the others stay queued (R115). -/
theorem select_perm {s s1 : State} {a : NodeRef} (h : select s = some (a, s1)) :
    (a :: (s1.source ++ s1.target)).Perm (s.source ++ s.target) := by
  rcases select_cases h with ⟨src, hs, rfl, -⟩ | ⟨tgt, ht, rfl, -⟩
  · rw [hs]; exact .refl _
  · rw [ht]; exact List.perm_middle.symm

theorem select_sublist {s s1 : State} {a : NodeRef} (h : select s = some (a, s1)) :
    s1.source.Sublist s.source ∧ s1.target.Sublist s.target := by
  rcases select_cases h with ⟨src, hs, rfl, -⟩ | ⟨tgt, ht, rfl, -⟩
  · rw [hs]; exact ⟨List.sublist_cons_self _ _, .refl _⟩
  · rw [ht]; exact ⟨.refl _, List.sublist_cons_self _ _⟩

theorem select_nnodes {s s1 : State} {a : NodeRef} (h : select s = some (a, s1)) : s1.nnodes = s.nnodes := by
  rcases select_cases h with ⟨_, -, rfl, -⟩ | ⟨_, -, rfl, -⟩ <;> rfl

theorem select_params {s s1 : State} {a : NodeRef} (h : select s = some (a, s1)) : s1.params = s.params := by
  rcases select_cases h with ⟨_, -, rfl, -⟩ | ⟨_, -, rfl, -⟩ <;> rfl

theorem select_refWeight {s s1 : State} {a : NodeRef} (h : select s = some (a, s1)) (x : NodeRef) :
    refWeight s1 x = refWeight s x := by
  rcases select_cases h with ⟨_, -, rfl, -⟩ | ⟨_, -, rfl, -⟩ <;> rfl

/-! ## One merge step -/

theorem mergeStep_of_select {s s1 s2 : State} {a b : NodeRef} (h1 : select s = some (a, s1))
    (h2 : select s1 = some (b, s2)) : mergeStep s = some (mergeNodes s2 a b) := by
  simp [mergeStep, h1, h2]

/-- Two selections change the queues only. -/
theorem select_select_frame {s s1 s2 : State} {a b : NodeRef} (h1 : select s = some (a, s1))
    (h2 : select s1 = some (b, s2)) : s2 = { s with source := s2.source, target := s2.target } := by
  obtain ⟨-, he1⟩ := select_frame h1
  obtain ⟨-, he2⟩ := select_frame h2
  rw [he1] at he2
  exact he2

/-- A merge step takes two queued nodes, writes the next record as the Internal node of them, and enqueues it (R117,
R118). -/
theorem mergeStep_spec {s t : State} (h : mergeStep s = some t) :
    ∃ a b tgt, (a :: b :: (t.source ++ tgt)).Perm (s.source ++ s.target) ∧
      t.target = tgt ++ [BitVec.ofNat 9 s.nnodes] ∧ t.nnodes = s.nnodes + 1 ∧
      t.node = storeWrite s.node s.nnodes (internalRec (Config.freeSym s.draws)
        (wAdd s.params.arith (refWeight s a) (refWeight s b)) a b) := by
  obtain ⟨a, s1, b, s2, h1, h2, rfl⟩ := mergeStep_cases h
  have hperm := ((select_perm h2).cons a).trans (select_perm h1)
  have hframe := select_select_frame h1 h2
  generalize s2.source = src, s2.target = tgt at hframe hperm
  subst hframe
  exact ⟨a, b, tgt, hperm, rfl, rfl, rfl⟩

/-- Settles O26: the merge step is `mergeNodes` on the queues the two selections leave. -/
theorem mergeStepAppendsTheInternalNode : Obligations.MergeStepAppendsTheInternalNode := by
  intro s s1 s2 a b h1 h2
  rw [mergeStep_of_select h1 h2]
  have hframe := select_select_frame h1 h2
  generalize s2.source = src, s2.target = tgt at hframe
  subst hframe
  exact ⟨_, _, rfl, storeRead_write_same _ _ _, fun i hi => storeRead_write_other _ _ hi, rfl, rfl, rfl⟩

/-! ## Reading a record -/

theorem nodeAt_of_storeRead {s : State} {i : Nat} {r : NodeRec} (h : storeRead s.node i = some r) :
    nodeAt s i = r := by
  rw [nodeAt, h, Option.getD_some]

/-- `TB_NODE` of an index in use (R130). -/
theorem exec_tbNode_in_use {s : State} {idx : Nat} (hf : s.fault = false) (hi : idx < s.nnodes) :
    exec (.tbNode idx) s = .next (finish { s with nodeOut := .ofRec true (nodeAt s idx) }) := by
  rw [exec_tbNode]
  rcases execTbNode_cases idx s with ⟨hfault, -⟩ | ⟨-, -, he⟩ | ⟨-, hge, -⟩
  · simp [hf] at hfault
  · exact he
  · exact absurd hi (Nat.not_lt_of_ge hge)

/-- `TB_NODE` of an index not in use (R130). -/
theorem exec_tbNode_not_in_use {s : State} {idx : Nat} (hf : s.fault = false) (hi : s.nnodes ≤ idx) :
    exec (.tbNode idx) s =
      .next (finish { s with nodeOut := .ofRec false (Config.freeNodeOut s.draws), draws := s.draws + 1 }) := by
  rw [exec_tbNode]
  rcases execTbNode_cases idx s with ⟨hfault, -⟩ | ⟨-, hlt, -⟩ | ⟨-, -, he⟩
  · simp [hf] at hfault
  · exact absurd hi (Nat.not_le_of_gt hlt)
  · exact he

/-- Settles O30: the fault, a record in use, an index not in use. -/
theorem tbNodeReadsOneRecord : Obligations.TbNodeReadsOneRecord := by
  refine fun s idx => ⟨fun hfault => exec_in_fault hfault _, fun hf hi r hr => ?_, fun hf hi => ?_⟩
  · rw [exec_tbNode_in_use hf hi, nodeAt_of_storeRead hr]
    rfl
  · exact ⟨.ofRec false (Config.freeNodeOut s.draws), s.draws + 1, rfl, exec_tbNode_not_in_use hf hi⟩

end Sys2Proof.Machine
end

section
/-! A store whose records stand at the indices from 0 on without a gap, as `TB_BUILD` writes it (R114, R118), and the
references its Internal records hold. -/

namespace Sys2Proof.Machine

variable {α : Type} {m : List (Nat × α)} {k : Nat}

theorem storeWfFrom_of_indices {lo : Nat} (h : m.map (·.1) = List.range' lo k) : storeWfFrom (lo + k) lo m = true := by
  induction m generalizing lo k with
  | nil => rfl
  | cons p m ih =>
    cases k with
    | zero => cases h
    | succ k =>
      rw [List.map_cons, List.range'_succ, List.cons.injEq] at h
      obtain ⟨hp, hm⟩ := h
      have hrest := ih hm
      rw [Nat.add_right_comm] at hrest
      simp only [storeWfFrom, Bool.and_eq_true, decide_eq_true_eq, hp]
      exact ⟨⟨le_rfl, by omega⟩, hrest⟩

theorem storeWf_of_indices (h : m.map (·.1) = List.range k) : storeWf k m = true := by
  have := storeWfFrom_of_indices (h.trans List.range_eq_range')
  rwa [Nat.zero_add] at this

/-- In a store without gaps an index reads as the record listed for it. -/
theorem storeRead_of_mem_indices (h : m.map (·.1) = List.range k) {i : Nat} {v : α} (hv : (i, v) ∈ m) :
    storeRead m i = some v :=
  storeRead_of_mem (storeWf_of_indices h) hv

theorem lt_of_mem_indices (h : m.map (·.1) = List.range k) {p : Nat × α} (hp : p ∈ m) : p.1 < k :=
  List.mem_range.1 (h ▸ List.mem_map_of_mem hp)

theorem exists_mem_of_lt_indices (h : m.map (·.1) = List.range k) {i : Nat} (hi : i < k) : ∃ v, (i, v) ∈ m := by
  obtain ⟨⟨_, v⟩, hv, rfl⟩ := List.mem_map.1 (h ▸ List.mem_range.2 hi)
  exact ⟨v, hv⟩

theorem length_of_indices (h : m.map (·.1) = List.range k) : m.length = k := by
  simpa using congrArg List.length h

/-- The next record is listed last. -/
theorem storeWrite_next (h : m.map (·.1) = List.range k) (v : α) : storeWrite m k v = m ++ [(k, v)] :=
  storeWrite_append v fun _ hp => lt_of_mem_indices h hp

theorem indices_storeWrite_next (h : m.map (·.1) = List.range k) (v : α) :
    (storeWrite m k v).map (·.1) = List.range (k + 1) := by
  rw [storeWrite_next h, List.map_append, h, List.range_succ]
  rfl

/-- A record in use is listed under its index. -/
theorem mem_nodeAt {s : State} {k i : Nat} (h : s.node.map (·.1) = List.range k) (hi : i < k) :
    (i, nodeAt s i) ∈ s.node := by
  obtain ⟨r, hr⟩ := exists_mem_of_lt_indices h hi
  rwa [nodeAt_of_storeRead (storeRead_of_mem_indices h hr)]

/-- What a record in use reads as depends on the store only, not on the free values. -/
theorem nodeAt_congr {s t : State} {k i : Nat} (h : s.node.map (·.1) = List.range k) (hi : i < k)
    (heq : storeRead t.node i = storeRead s.node i) : nodeAt t i = nodeAt s i :=
  nodeAt_of_storeRead (heq.trans (storeRead_of_mem_indices h (mem_nodeAt h hi)))

/-! ## The references of a store -/

theorem childRefs_append (m m' : List (Nat × NodeRec)) : childRefs (m ++ m') = childRefs m ++ childRefs m' :=
  List.flatMap_append

theorem childRefs_internal (i : Nat) (sym : Sym) (w : Weight) (a b : NodeRef) :
    childRefs [(i, internalRec sym w a b)] = [a.toNat, b.toNat] := rfl

theorem childRefs_leaves {m : List (Nat × NodeRec)} (h : ∀ p ∈ m, p.2.kind = .leaf) : childRefs m = [] :=
  List.flatMap_eq_nil_iff.2 fun p hp => by rw [h p hp]

/-- Leaves refer to no record and Internal records to records below them, so none refers to the last record (R124). -/
theorem childRefs_lt {s : State} {k n : Nat} (hidx : s.node.map (·.1) = List.range k)
    (hleaves : ∀ p ∈ s.node, p.1 < n → LeafOk p.2) (hinternals : ∀ p ∈ s.node, n ≤ p.1 → InternalOk s p.1 p.2)
    {c : Nat} (hc : c ∈ childRefs s.node) : c + 1 < k := by
  obtain ⟨p, hp, hcp⟩ := List.mem_flatMap.1 hc
  have hlt := lt_of_mem_indices hidx hp
  rcases Nat.lt_or_ge p.1 n with hleaf | hinternal
  · obtain ⟨hkind, -⟩ := hleaves p hp hleaf
    simp [hkind] at hcp
  · obtain ⟨hkind, hleft, hright, -⟩ := hinternals p hp hinternal
    simp only [hkind, List.mem_cons, List.not_mem_nil, or_false] at hcp
    omega

end Sys2Proof.Machine
end

section
/-! `TB_BUILD` between its merge steps (R119): what the store and the queues hold when the leaves are loaded and after
every merge step, and that the loop is `n - 1` merge steps (R122). -/

namespace Sys2Proof.Machine

/-! ## The loaded state -/

/-- The leaf records of an entry list, from an index on (R114). -/
def leafRecords (i : Nat) (es : List Entry) : List (Nat × NodeRec) := (es.zipIdx i).map fun p => (p.2, leafRec p.1)

theorem leafRecords_cons (i : Nat) (e : Entry) (es : List Entry) :
    leafRecords i (e :: es) = (i, leafRec e) :: leafRecords (i + 1) es := rfl

@[simp] theorem leafRecords_length (i : Nat) (es : List Entry) : (leafRecords i es).length = es.length := by
  simp [leafRecords]

theorem leafRecords_indices (i : Nat) (es : List Entry) : (leafRecords i es).map (·.1) = List.range' i es.length := by
  rw [leafRecords, List.map_map]
  exact List.zipIdx_map_snd i es

theorem mem_leafRecords {es : List Entry} {p : Nat × NodeRec} :
    p ∈ leafRecords 0 es ↔ ∃ h : p.1 < es.length, p.2 = leafRec es[p.1] := by
  obtain ⟨i, r⟩ := p
  simp only [leafRecords, List.mem_map, Prod.exists, Prod.mk.injEq, List.mk_mem_zipIdx_iff_getElem?,
    List.getElem?_eq_some_iff]
  constructor
  · rintro ⟨e, j, ⟨h, rfl⟩, rfl, rfl⟩; exact ⟨h, rfl⟩
  · rintro ⟨h, hr⟩; exact ⟨_, i, ⟨h, rfl⟩, rfl, hr.symm⟩

theorem leafRecords_syms (i : Nat) (es : List Entry) : (leafRecords i es).map (·.2.sym) = es.map (·.sym) := by
  induction es generalizing i with
  | nil => rfl
  | cons e es ih => rw [leafRecords_cons, List.map_cons, ih, List.map_cons]; rfl

/-- Loading appends one Leaf record per entry (R114). -/
theorem loadLeaves_node {es : List Entry} {s : State} (h : s.node.map (·.1) = List.range s.nnodes) :
    (loadLeaves s es).node = s.node ++ leafRecords s.nnodes es := by
  induction es generalizing s with
  | nil => simp [leafRecords]
  | cons e es ih =>
    rw [loadLeaves_cons, ih (indices_storeWrite_next h _), loadLeaf_node, loadLeaf_nnodes, storeWrite_next h,
      leafRecords_cons, List.append_assoc, List.singleton_append]

theorem loaded_node (s : State) : (loaded s).node = leafRecords 0 s.ports.entryIn :=
  loadLeaves_node (s := startBuild s) rfl

@[simp] theorem loaded_nnodes (s : State) : (loaded s).nnodes = s.ports.entryIn.length := by
  obtain ⟨-, h, -⟩ := loadLeaves_frame s.ports.entryIn (startBuild s)
  exact h.trans (Nat.zero_add _)

theorem loaded_source (s : State) :
    (loaded s).source = (List.range s.ports.entryIn.length).map (BitVec.ofNat 9) := by
  obtain ⟨h, -, -⟩ := loadLeaves_frame s.ports.entryIn (startBuild s)
  rw [List.range_eq_range']
  exact h

@[simp] theorem loaded_target (s : State) : (loaded s).target = [] := by
  obtain ⟨-, -, h⟩ := loadLeaves_frame s.ports.entryIn (startBuild s)
  exact (congrArg State.target h).trans rfl

theorem loaded_params (s : State) : (loaded s).params = s.params := by
  obtain ⟨-, -, -, -, -, -, -, h⟩ := loaded_frame s
  exact h

theorem loaded_fault (s : State) : (loaded s).fault = s.fault := by
  obtain ⟨-, -, h⟩ := loadLeaves_frame s.ports.entryIn (startBuild s)
  exact (congrArg State.fault h).trans rfl

/-! ## Counting the merge steps -/

theorem afterMerges_succ {j : Nat} {s t : State} (hm : mergeStep s = some t) :
    afterMerges (j + 1) s = afterMerges j t := by
  simp only [afterMerges, hm]

theorem afterMerges_succ_none {j : Nat} {s : State} (hm : mergeStep s = none) : afterMerges (j + 1) s = none := by
  simp only [afterMerges, hm]

/-- What every merge step keeps holds after any number of them. -/
theorem afterMerges_induction {P : State → Prop} (hstep : ∀ s t, P s → mergeStep s = some t → P t) {j : Nat}
    {s u : State} (hs : P s) (h : afterMerges j s = some u) : P u := by
  induction j generalizing s with
  | zero => exact Option.some.inj h ▸ hs
  | succ j ih =>
    cases hm : mergeStep s with
    | none =>
      rw [afterMerges_succ_none hm] at h
      cases h
    | some t =>
      rw [afterMerges_succ hm] at h
      exact ih (hstep s t hs hm) h

theorem mergeStep_params {s t : State} (h : mergeStep s = some t) : t.params = s.params := by
  obtain ⟨-, -, -, -, -, -, -, -, -, -, -, -, -, -, -, hparams, -⟩ := mergeStep_frame h
  exact hparams

theorem mergeStep_fault {s t : State} (h : mergeStep s = some t) : t.fault = s.fault := by
  obtain ⟨-, -, -, -, -, -, -, -, hfault, -⟩ := mergeStep_frame h
  exact hfault

theorem afterMerges_fault {j : Nat} {s u : State} (h : afterMerges j s = some u) : u.fault = s.fault :=
  afterMerges_induction (P := fun u => u.fault = s.fault) (fun _ _ hs hm => (mergeStep_fault hm).trans hs) rfl h

theorem afterMerges_params {j : Nat} {s u : State} (h : afterMerges j s = some u) : u.params = s.params :=
  afterMerges_induction (P := fun u => u.params = s.params) (fun _ _ hs hm => (mergeStep_params hm).trans hs) rfl h

/-- The loop that starts with `m + 1` queued nodes is `m` merge steps (R122). -/
theorem mergeLoop_eq_afterMerges {m : Nat} {s u : State} (hq : s.source.length + s.target.length = m + 1)
    (h : mergeLoop (m + 1) s = some u) : afterMerges m s = some u := by
  induction m generalizing s with
  | zero =>
    rw [mergeLoop] at h
    split at h
    · exact h
    · split at h <;> cases h
  | succ m ih =>
    rw [mergeLoop] at h
    split at h
    next hend =>
      simp only [Bool.and_eq_true, List.isEmpty_iff, beq_iff_eq] at hend
      rw [hend.1, hend.2] at hq
      simp at hq
    next =>
      split at h
      next => cases h
      next t hm =>
        rw [afterMerges_succ hm]
        obtain ⟨hlen, -⟩ := mergeStep_frame hm
        exact ih (by omega) h

/-- Settles O24: the loop ends, and it is as many merge steps as nodes are queued, less one. -/
theorem tbBuildRunsOneMergeLessThanEntries : Obligations.TbBuildRunsOneMergeLessThanEntries := by
  intro s hlen
  have hq : (loaded s).source.length + (loaded s).target.length = s.ports.entryIn.length := by
    simp [loaded_source]
  obtain ⟨u, r, hu, hsrc, htgt⟩ := mergeLoop_ends _ _ hq (.inl hlen)
  obtain ⟨m, hm⟩ := Nat.exists_eq_add_of_le' (show 1 ≤ s.ports.entryIn.length by omega)
  refine ⟨u, r, ?_, hsrc, htgt, fun hf hcontract => ?_⟩
  · rw [hm] at hu hq ⊢
    exact mergeLoop_eq_afterMerges hq hu
  · rw [exec_tbBuild]
    rcases execTbBuild_cases s with ⟨hfault, -⟩ | ⟨-, hshort, -⟩ | ⟨-, -, hbroken, -⟩ |
      ⟨-, -, u', r', hu', -, htgt', he⟩
    · simp [hf] at hfault
    · exact absurd hlen (by omega)
    · exact absurd hcontract hbroken
    · obtain rfl : u' = u := Option.some.inj (hu'.symm.trans hu)
      obtain rfl : r' = r := List.singleton_inj.1 (htgt'.symm.trans htgt)
      exact he

/-- The state a `TB_BUILD` on the contract ends in is that after `n - 1` merge steps, the one queued node the root. -/
theorem tbBuild_next {s t : State} (hf : s.fault = false) (hc : ContractOk s) (h : exec .tbBuild s = .next t) :
    ∃ u r, afterMerges (s.ports.entryIn.length - 1) (loaded s) = some u ∧ u.source = [] ∧ u.target = [r] ∧
      t = { u with root := r, target := [], status := .ok, errInfo := 0 } := by
  obtain ⟨u, r, hu, hsrc, htgt, he⟩ := tbBuildRunsOneMergeLessThanEntries s hc.1
  rw [he hf hc.2] at h
  cases h
  exact ⟨u, r, hu, hsrc, htgt, rfl⟩

/-! ## The invariant of the loop -/

theorem toNat_ref {i : Nat} (h : i < 512) : (BitVec.ofNat 9 i).toNat = i := by
  rw [BitVec.toNat_ofNat, Nat.mod_eq_of_lt h]

/-- Distinct symbols are at most 256. -/
theorem EntryContract.length_le {A : WeightArith} {es : List Entry} (h : EntryContract A es) :
    es.length ≤ Config.maxLeaves := by
  obtain ⟨-, hnodup, -⟩ := h
  have hsub : (es.map (·.sym)).map BitVec.toNat ⊆ List.range Config.maxLeaves := fun x hx => by
    obtain ⟨y, -, rfl⟩ := List.mem_map.1 hx
    exact List.mem_range.2 y.isLt
  simpa using (List.subperm_of_subset (hnodup.map BitVec.toNat_injective) hsub).length_le

/-- The store and the queues at an end test of the loop of R119: the leaves of `es` first, then Internal records, and
every record in use either the child of exactly one record or queued exactly once (R124). -/
structure Building (es : List Entry) (u : State) : Prop where
  few : es.length ≤ Config.maxLeaves
  indices : u.node.map (·.1) = List.range u.nnodes
  loaded : es.length ≤ u.nnodes
  leaves : u.node.take es.length = leafRecords 0 es
  internals : ∀ p ∈ u.node, es.length ≤ p.1 → InternalOk u p.1 p.2
  refs : (childRefs u.node ++ (u.source ++ u.target).map BitVec.toNat).Perm (List.range u.nnodes)
  count : u.source.length + u.target.length + u.nnodes = 2 * es.length

theorem building_loaded {s : State} (hlen : s.ports.entryIn.length ≤ Config.maxLeaves) :
    Building s.ports.entryIn (Machine.loaded s) := by
  have hidx : (Machine.loaded s).node.map (·.1) = List.range (Machine.loaded s).nnodes := by
    rw [loaded_node, leafRecords_indices, loaded_nnodes, List.range_eq_range']
  have hleaves : childRefs (Machine.loaded s).node = [] := by
    rw [loaded_node]
    refine childRefs_leaves fun p hp => ?_
    obtain ⟨_, hr⟩ := mem_leafRecords.1 hp
    rw [hr]; rfl
  have hrefs : ((Machine.loaded s).source ++ (Machine.loaded s).target).map BitVec.toNat =
      List.range (Machine.loaded s).nnodes := by
    rw [loaded_source, loaded_target, loaded_nnodes, List.append_nil, List.map_map]
    refine (List.map_congr_left fun i hi => ?_).trans (List.map_id _)
    have := List.mem_range.1 hi
    exact toNat_ref (by simp only [Config.maxLeaves] at hlen; omega)
  refine ⟨hlen, hidx, by simp, ?_, fun p hp hge => ?_, ?_, ?_⟩
  · rw [loaded_node, List.take_of_length_le (by simp)]
  · have := lt_of_mem_indices hidx hp
    rw [loaded_nnodes] at this
    omega
  · rw [hleaves, hrefs]; exact .refl _
  · simp [loaded_source]; omega

namespace Building

variable {es : List Entry} {s t : State}

/-- A queued node has a record in use (R29). -/
theorem queued_lt (h : Building es s) {x : NodeRef} (hx : x ∈ s.source ++ s.target) : x.toNat < s.nnodes :=
  List.mem_range.1 (h.refs.subset (List.mem_append_right _ (List.mem_map_of_mem hx)))

/-- The leaf of entry `i` is record `i` (R114). -/
theorem mem_leaf (h : Building es s) {i : Nat} (hi : i < es.length) : (i, leafRec es[i]) ∈ s.node :=
  List.mem_of_mem_take (h.leaves ▸ mem_leafRecords.2 ⟨hi, rfl⟩)

theorem storeRead_leaf (h : Building es s) {i : Nat} (hi : i < es.length) :
    storeRead s.node i = some (leafRec es[i]) :=
  storeRead_of_mem_indices h.indices (h.mem_leaf hi)

theorem nodeAt_leaf (h : Building es s) {i : Nat} (hi : i < es.length) : nodeAt s i = leafRec es[i] :=
  nodeAt_of_storeRead (h.storeRead_leaf hi)

/-- With a node queued the number of records is a reference (R24). -/
theorem nnodes_lt (h : Building es s) {x : NodeRef} (hx : x ∈ s.source ++ s.target) : s.nnodes < 512 := by
  have := h.few
  have := h.count
  have := List.length_pos_of_mem hx
  simp only [Config.maxLeaves, List.length_append] at *
  omega

/-- A merge step leaves every record in use as it is (R118). -/
theorem nodeAt_mergeStep (h : Building es s) (hm : mergeStep s = some t) {i : Nat} (hi : i < s.nnodes) :
    nodeAt t i = nodeAt s i := by
  obtain ⟨a, b, tgt, -, -, -, hnode⟩ := mergeStep_spec hm
  exact nodeAt_congr h.indices hi (by rw [hnode, storeRead_write_other _ _ hi.ne])

theorem refWeight_mergeStep (h : Building es s) (hm : mergeStep s = some t) {x : NodeRef} (hx : x.toNat < s.nnodes) :
    refWeight t x = refWeight s x :=
  congrArg NodeRec.w (h.nodeAt_mergeStep hm hx)

/-- A merge step leaves the Internal records in use as they have to be (R22). -/
theorem internalOk_mergeStep (h : Building es s) (hm : mergeStep s = some t) {i : Nat} {r : NodeRec}
    (hi : i ≤ s.nnodes) (hr : InternalOk s i r) : InternalOk t i r := by
  obtain ⟨hkind, hleft, hright, hw⟩ := hr
  refine ⟨hkind, hleft, hright, ?_⟩
  rw [hw, mergeStep_params hm, h.refWeight_mergeStep hm (hleft.trans_le hi),
    h.refWeight_mergeStep hm (hright.trans_le hi)]

/-- Every merge step keeps the invariant of the loop. -/
theorem mergeStep (h : Building es s) (hm : mergeStep s = some t) : Building es t := by
  have hmono : ∀ {i r}, i ≤ s.nnodes → InternalOk s i r → InternalOk t i r := h.internalOk_mergeStep hm
  obtain ⟨a, b, tgt, hperm, htgt, hnn, hnode⟩ := mergeStep_spec hm
  have hqueued : a ∈ s.source ++ s.target := hperm.subset List.mem_cons_self
  have hnew := toNat_ref (h.nnodes_lt hqueued)
  have ha := h.queued_lt hqueued
  have hb : b.toNat < s.nnodes := h.queued_lt (hperm.subset (by simp))
  have hlen := length_of_indices h.indices
  have hidx := hnn ▸ hnode ▸ indices_storeWrite_next h.indices _
  rw [storeWrite_next h.indices] at hnode
  refine ⟨h.few, hidx, by rw [hnn]; exact Nat.le_succ_of_le h.loaded, ?_, fun p hp hge => ?_, ?_, ?_⟩
  · rw [hnode, List.take_append_of_le_length (by rw [hlen]; exact h.loaded), h.leaves]
  · rcases List.mem_append.1 (hnode ▸ hp) with hp | hp
    · exact hmono (lt_of_mem_indices h.indices hp).le (h.internals p hp hge)
    · obtain rfl := List.mem_singleton.1 hp
      exact hmono le_rfl ⟨rfl, ha, hb, rfl⟩
  · have hrefs := ((hperm.map BitVec.toNat).append_left (childRefs s.node)).trans h.refs
    rw [hnn, List.range_succ, hnode, htgt, childRefs_append, childRefs_internal]
    simpa [hnew] using hrefs.append_right [s.nnodes]
  · have := h.count
    have := hperm.length_eq
    simp only [hnn, htgt, List.length_append, List.length_cons, List.length_nil] at *
    omega

end Building

/-- The invariant holds after every number of merge steps from the loaded leaves. -/
theorem building_afterMerges {s u : State} {j : Nat} (hlen : s.ports.entryIn.length ≤ Config.maxLeaves)
    (h : afterMerges j (loaded s) = some u) : Building s.ports.entryIn u :=
  afterMerges_induction (fun _ _ hs hm => hs.mergeStep hm) (building_loaded hlen) h

end Sys2Proof.Machine
end

section
/-! The store after `TB_BUILD` (R120, R124): a strict binary tree with the leaves of the entries in list order. -/

namespace Sys2Proof.Machine

namespace Building

variable {es : List Entry} {u : State} {r : NodeRef}

theorem leafOk (h : Building es u) {p : Nat × NodeRec} (hp : p ∈ u.node) (hlt : p.1 < es.length) : LeafOk p.2 := by
  have hr := (storeRead_of_mem_indices h.indices hp).symm.trans (h.storeRead_leaf hlt)
  rw [Option.some.inj hr]
  exact ⟨rfl, rfl, rfl⟩

theorem nnodes_of_one_queued (h : Building es u) (hsrc : u.source = []) (htgt : u.target = [r]) :
    u.nnodes = 2 * es.length - 1 := by
  have := h.count
  simp only [hsrc, htgt, List.length_nil, List.length_singleton] at this
  omega

/-- The one queued node is the last record, and the others are the children (R120). -/
theorem root_of_one_queued (h : Building es u) (hlen : Config.minLeaves ≤ es.length) (hsrc : u.source = [])
    (htgt : u.target = [r]) :
    r.toNat = 2 * es.length - 2 ∧ (childRefs u.node).Perm (List.range (2 * es.length - 2)) := by
  have hrefs := h.refs
  have hnn := h.nnodes_of_one_queued hsrc htgt
  have hlast : u.nnodes = 2 * es.length - 2 + 1 := by simp only [Config.minLeaves] at hlen; omega
  rw [hsrc, htgt, hlast, List.range_succ] at hrefs
  have hr : r.toNat = 2 * es.length - 2 := by
    rcases List.mem_append.1 (hrefs.symm.subset (List.mem_append_right _ (List.mem_singleton_self _))) with hc | hc
    · exact absurd (childRefs_lt h.indices (fun _ => h.leafOk) h.internals hc) (by omega)
    · exact (List.mem_singleton.1 hc).symm
  rw [← hr] at hrefs ⊢
  exact ⟨rfl, (List.perm_append_right_iff _).1 hrefs⟩

/-- The loop ends in a strict binary tree (R124). -/
theorem storeOk (h : Building es u) (hlen : Config.minLeaves ≤ es.length) (hsyms : (es.map (·.sym)).Nodup)
    (hsrc : u.source = []) (htgt : u.target = [r]) :
    StoreOk { u with root := r, target := [], status := .ok, errInfo := 0 } es.length := by
  obtain ⟨hroot, hchildren⟩ := h.root_of_one_queued hlen hsrc htgt
  have hnn := h.nnodes_of_one_queued hsrc htgt
  refine ⟨hlen, h.few, hnn, hroot, hnn ▸ h.indices, fun p => h.leafOk, h.internals, fun i hi => ?_, ?_, ?_⟩
  · exact (hchildren.count_eq i).trans (by simp [List.count_range, hi])
  · exact (hchildren.count_eq _).trans (by simp [List.count_range])
  · show ((u.node.take es.length).map (·.2.sym)).Nodup
    rw [h.leaves, leafRecords_syms]
    exact hsyms

end Building

/-- A `TB_BUILD` on the contract ends the loop with the invariant and one queued node, the root. -/
theorem building_of_tbBuild {s t : State} (hf : s.fault = false) (hc : ContractOk s)
    (h : exec .tbBuild s = .next t) :
    ∃ u r, afterMerges (s.ports.entryIn.length - 1) (loaded s) = some u ∧ Building s.ports.entryIn u ∧
      u.source = [] ∧ u.target = [r] ∧ t = { u with root := r, target := [], status := .ok, errInfo := 0 } := by
  obtain ⟨u, r, hu, hsrc, htgt, ht⟩ := tbBuild_next hf hc h
  exact ⟨u, r, hu, building_afterMerges hc.2.length_le hu, hsrc, htgt, ht⟩

/-- Settles O21: the loop leaves the loaded leaves as they are. -/
theorem tbBuildKeepsLeavesInListOrder : Obligations.TbBuildKeepsLeavesInListOrder := by
  intro s t hf hc h i hi
  obtain ⟨u, r, -, hb, -, -, rfl⟩ := building_of_tbBuild hf hc h
  exact hb.storeRead_leaf hi

/-- Settles O22: the invariant of the loop at its end. -/
theorem tbBuildLeavesAStrictTree : Obligations.TbBuildLeavesAStrictTree := by
  intro s t hf hc h
  obtain ⟨u, r, -, hb, hsrc, htgt, rfl⟩ := building_of_tbBuild hf hc h
  obtain ⟨hlen, -, hsyms, -⟩ := hc
  exact hb.storeOk hlen hsyms hsrc htgt

/-- Settles O20: the loop ends on the contract, and what it leaves is a strict tree and the frame of `TB_BUILD`. -/
theorem tbBuildCompletes : Obligations.TbBuildCompletes := by
  intro s hf hc
  obtain ⟨t, h⟩ := (tbBuildRunsExactlyOnTheContract s hf hc.1).1 hc.2
  obtain ⟨-, -, hnn, hroot, -⟩ := tbBuildLeavesAStrictTree s t hf hc h
  obtain ⟨u, r, hu, hsrc, htgt, rfl⟩ := tbBuild_next hf hc h
  have hfault : u.fault = false := (afterMerges_fault hu).trans ((loaded_fault s).trans hf)
  obtain ⟨hct, hbyte, hchar, hnode, hlook, hhost⟩ := execTbBuild_frame h (hfault.trans hf.symm)
  exact ⟨_, h, ⟨rfl, rfl, hfault⟩, hnn, hroot, hsrc, rfl, fun i => by rw [hct], hbyte, hchar, hnode, hlook, hhost⟩

end Sys2Proof.Machine
end

section
/-! A store that holds a tree (R124), read record by record, and its abstract tree (R25). -/

namespace Sys2Proof.Machine

namespace StoreOk

variable {s : State} {n i : Nat}

theorem indices (h : StoreOk s n) : s.node.map (·.1) = List.range (2 * n - 1) := by
  obtain ⟨-, -, -, -, hidx, -⟩ := h
  exact hidx

theorem nnodes_eq (h : StoreOk s n) : s.nnodes = 2 * n - 1 := by
  obtain ⟨-, -, hnn, -⟩ := h
  exact hnn

theorem root_eq (h : StoreOk s n) : s.root.toNat = 2 * n - 2 := by
  obtain ⟨-, -, -, hroot, -⟩ := h
  exact hroot

theorem bounds (h : StoreOk s n) : 2 ≤ n ∧ n ≤ 256 := by
  obtain ⟨hmin, hmax, -⟩ := h
  exact ⟨hmin, hmax⟩

/-- The number of leaves is the one read off `nnodes` (R120). -/
theorem leafCount_eq (h : StoreOk s n) : leafCount s = n := by
  have := h.bounds
  rw [leafCount, h.nnodes_eq]
  omega

theorem nodeAt_leaf (h : StoreOk s n) (hi : i < n) : LeafOk (nodeAt s i) := by
  have hmem := mem_nodeAt h.indices (show i < 2 * n - 1 by omega)
  obtain ⟨-, -, -, -, -, hleaves, -⟩ := h
  exact hleaves _ hmem hi

theorem nodeAt_internal (h : StoreOk s n) (hge : n ≤ i) (hi : i < 2 * n - 1) : InternalOk s i (nodeAt s i) := by
  have hmem := mem_nodeAt h.indices hi
  obtain ⟨-, -, -, -, -, -, hinternals, -⟩ := h
  exact hinternals _ hmem hge

theorem root_ne (h : StoreOk s n) : s.root ≠ Config.noneRef := by
  intro hroot
  have hr := h.root_eq
  have := h.bounds
  rw [hroot, show Config.noneRef.toNat = 511 from rfl] at hr
  omega

/-- The children of a store are all its records but the root, each once (R124). -/
theorem childRefs_perm (h : StoreOk s n) : (childRefs s.node).Perm (List.range (2 * n - 2)) := by
  have hidx := h.indices
  obtain ⟨-, -, -, -, -, hleaves, hinternals, hcount, hroot, -⟩ := h
  refine List.perm_iff_count.2 fun c => ?_
  rw [List.count_range]
  rcases Nat.lt_trichotomy c (2 * n - 2) with hlt | rfl | hgt
  · rw [hcount c hlt, if_pos hlt]
  · rw [hroot, if_neg (Nat.lt_irrefl _)]
  · rw [if_neg (Nat.lt_asymm hgt)]
    refine List.count_eq_zero_of_not_mem fun hc => ?_
    have := childRefs_lt hidx hleaves hinternals hc
    omega

end StoreOk

end Sys2Proof.Machine
end

section
/-! The abstract tree of a store that holds a tree (R25, R120), and what `TB_NODE` answers on such a store (R131). -/

namespace Sys2Proof.Machine

/-! ## The tree below a record -/

theorem absAt_leaf {s : State} {fuel i : Nat} (hi : i < s.nnodes) (hkind : (nodeAt s i).kind = .leaf) :
    absAt s (fuel + 1) i = some (.leaf (nodeAt s i).sym (nodeAt s i).w) := by
  simp [absAt, hi, hkind]

theorem absAt_internal {s : State} {fuel i : Nat} {l r : Tree} (hi : i < s.nnodes)
    (hkind : (nodeAt s i).kind = .internal) (hl : absAt s fuel (nodeAt s i).left.toNat = some l)
    (hr : absAt s fuel (nodeAt s i).right.toNat = some r) :
    absAt s (fuel + 1) i = some (.node l r (nodeAt s i).w) := by
  simp [absAt, hi, hkind, hl, hr]

/-- The tree below record `i`: children lie below their parent (R124), so it is at most `i + 1` deep. -/
def treeAt (s : State) (i : Nat) : Tree := (absAt s (i + 1) i).getD default

/-- The leaves of the tree below record `i`. -/
def leavesBelow (s : State) (i : Nat) : List Entry := treeLeaves (treeAt s i)

/-- The entry a Leaf record was made of (R114). -/
def leafEntry (s : State) (i : Nat) : Entry := { sym := (nodeAt s i).sym, w := (nodeAt s i).w }

namespace StoreOk

variable {s : State} {n i fuel : Nat}

theorem exists_absAt (h : StoreOk s n) : i < 2 * n - 1 → ∃ t, ∀ fuel, i < fuel → absAt s fuel i = some t := by
  induction i using Nat.strongRecOn with
  | ind i ih =>
    intro hi
    have huse : i < s.nnodes := h.nnodes_eq ▸ hi
    rcases Nat.lt_or_ge i n with hleaf | hinternal
    · obtain ⟨hkind, -⟩ := h.nodeAt_leaf hleaf
      refine ⟨.leaf (nodeAt s i).sym (nodeAt s i).w, fun fuel hfuel => ?_⟩
      obtain ⟨f, rfl⟩ := Nat.exists_eq_add_of_lt hfuel
      exact absAt_leaf huse hkind
    · obtain ⟨hkind, hleft, hright, -⟩ := h.nodeAt_internal hinternal hi
      obtain ⟨l, hl⟩ := ih _ hleft (hleft.trans hi)
      obtain ⟨r, hr⟩ := ih _ hright (hright.trans hi)
      refine ⟨.node l r (nodeAt s i).w, fun fuel hfuel => ?_⟩
      obtain ⟨f, rfl⟩ := Nat.exists_eq_add_of_lt hfuel
      exact absAt_internal huse hkind (hl _ (by omega)) (hr _ (by omega))

/-- Any depth above the index is enough. -/
theorem absAt_eq (h : StoreOk s n) (hi : i < 2 * n - 1) (hfuel : i < fuel) : absAt s fuel i = some (treeAt s i) := by
  obtain ⟨t, ht⟩ := h.exists_absAt hi
  rw [treeAt, ht _ hfuel, ht _ (Nat.lt_succ_self i), Option.getD_some]

theorem treeAt_leaf (h : StoreOk s n) (hi : i < n) : treeAt s i = .leaf (nodeAt s i).sym (nodeAt s i).w := by
  obtain ⟨hkind, -⟩ := h.nodeAt_leaf hi
  rw [treeAt, absAt_leaf (h.nnodes_eq ▸ (by omega)) hkind, Option.getD_some]

theorem treeAt_internal (h : StoreOk s n) (hge : n ≤ i) (hi : i < 2 * n - 1) :
    treeAt s i = .node (treeAt s (nodeAt s i).left.toNat) (treeAt s (nodeAt s i).right.toNat) (nodeAt s i).w := by
  obtain ⟨hkind, hleft, hright, -⟩ := h.nodeAt_internal hge hi
  rw [treeAt, absAt_internal (h.nnodes_eq ▸ hi) hkind (h.absAt_eq (hleft.trans hi) hleft)
    (h.absAt_eq (hright.trans hi) hright), Option.getD_some]

theorem absTree_eq (h : StoreOk s n) : absTree s = .tree (treeAt s (2 * n - 2)) := by
  have := h.bounds
  rw [absTree, if_neg h.root_ne, h.root_eq, h.absAt_eq (by omega) (by simp only [Config.maxNodes]; omega)]

/-! ## The leaves of the tree -/

theorem leavesBelow_leaf (h : StoreOk s n) (hi : i < n) : leavesBelow s i = [leafEntry s i] := by
  rw [leavesBelow, h.treeAt_leaf hi]
  rfl

theorem leavesBelow_internal (h : StoreOk s n) (hge : n ≤ i) (hi : i < 2 * n - 1) :
    leavesBelow s i = leavesBelow s (nodeAt s i).left.toNat ++ leavesBelow s (nodeAt s i).right.toNat := by
  rw [leavesBelow, h.treeAt_internal hge hi]
  rfl

/-- The leaves below the children of all records are the leaves below the Internal records. -/
theorem leaves_childRefs (h : StoreOk s n) :
    (childRefs s.node).flatMap (leavesBelow s) =
      (List.range' n (n - 1)).flatMap (leavesBelow s) := by
  have hbelow : ∀ p ∈ s.node, (childRefs [p]).flatMap (leavesBelow s) =
      if p.1 < n then [] else leavesBelow s p.1 := by
    intro p hp
    have hp1 := lt_of_mem_indices h.indices hp
    have hnode : p.2 = nodeAt s p.1 := (nodeAt_of_storeRead (storeRead_of_mem_indices h.indices hp)).symm
    split
    next hleaf =>
      obtain ⟨hkind, -⟩ := h.nodeAt_leaf hleaf
      simp [childRefs, hnode, hkind]
    next hge =>
      obtain ⟨hkind, -⟩ := h.nodeAt_internal (Nat.le_of_not_lt hge) hp1
      rw [h.leavesBelow_internal (Nat.le_of_not_lt hge) hp1]
      simp [childRefs, hnode, hkind]
  have hrange : List.range (2 * n - 1) = List.range n ++ List.range' n (n - 1) := by
    have := h.bounds
    rw [List.range_eq_range', List.range_eq_range', show 2 * n - 1 = n + (n - 1) by omega, ← List.range'_append_1,
      Nat.zero_add]
  have hsplit : childRefs s.node = s.node.flatMap fun p => childRefs [p] := by simp [childRefs]
  rw [hsplit, List.flatMap_assoc, List.flatMap_congr hbelow]
  calc s.node.flatMap (fun p => if p.1 < n then [] else leavesBelow s p.1)
      = (s.node.map (·.1)).flatMap (fun i => if i < n then [] else leavesBelow s i) :=
        by rw [List.flatMap_map]
    _ = _ := by
      rw [h.indices, hrange, List.flatMap_append, List.flatMap_eq_nil_iff.2, List.nil_append]
      · exact List.flatMap_congr fun i hi => if_neg (by have := List.mem_range'_1.1 hi; omega)
      · exact fun i hi => if_pos (List.mem_range.1 hi)

/-- The leaves of the tree are the Leaf records, each once: the leaves below the children are, on one side, those below
every record but the root, and on the other those below every Internal record. -/
theorem leavesBelow_root (h : StoreOk s n) :
    (leavesBelow s (2 * n - 2)).Perm ((List.range n).map (leafEntry s)) := by
  have hn := h.bounds
  have hperm := h.childRefs_perm.flatMap_right (leavesBelow s)
  have hrecords : List.range (2 * n - 2) = List.range n ++ List.range' n (n - 2) := by
    rw [List.range_eq_range', List.range_eq_range', show 2 * n - 2 = n + (n - 2) by omega, ← List.range'_append_1,
      Nat.zero_add]
  have hinternals : List.range' n (n - 1) = List.range' n (n - 2) ++ [2 * n - 2] := by
    rw [show n - 1 = n - 2 + 1 by omega, List.range'_1_concat, show n + (n - 2) = 2 * n - 2 by omega]
  have hleaves : (List.range n).flatMap (leavesBelow s) = (List.range n).map (leafEntry s) := by
    rw [← List.flatMap_pure_eq_map]
    exact List.flatMap_congr fun i hi => h.leavesBelow_leaf (List.mem_range.1 hi)
  rw [h.leaves_childRefs, hinternals, hrecords, List.flatMap_append, List.flatMap_append, List.flatMap_singleton,
    hleaves] at hperm
  exact (List.perm_append_left_iff _).1 (hperm.trans List.perm_append_comm)

end StoreOk

/-- Settles O23: the root is Internal and the Leaf records are those of the entries. -/
theorem tbBuildTreeHasTheEntriesAsLeaves : Obligations.TbBuildTreeHasTheEntriesAsLeaves := by
  intro s t hf hc h
  have hstore := tbBuildLeavesAStrictTree s t hf hc h
  have hn := hstore.bounds
  have hentries : (List.range s.ports.entryIn.length).map (leafEntry t) = s.ports.entryIn := by
    refine List.ext_getElem (by simp) fun i hi hi' => ?_
    rw [List.getElem_map, List.getElem_range, leafEntry,
      nodeAt_of_storeRead (tbBuildKeepsLeavesInListOrder s t hf hc h i hi')]
  have hleaves := hstore.leavesBelow_root
  have habs := hstore.absTree_eq
  rw [hentries] at hleaves
  rw [leavesBelow, hstore.treeAt_internal (by omega) (by omega)] at hleaves
  rw [hstore.treeAt_internal (by omega) (by omega)] at habs
  exact ⟨_, _, _, habs, hleaves⟩

/-! ## `TB_NODE` on a built store -/

/-- Settles O31: a record in use is listed, a Leaf has no children, and `NONE` is above every record. -/
theorem tbNodeAnswersForEveryRecordInUse : Obligations.TbNodeAnswersForEveryRecordInUse := by
  rintro s ⟨⟨-, -, hmax, -, hinv⟩, hf⟩
  refine ⟨fun idx hi => ?_, _, exec_tbNode_not_in_use hf hmax, ⟨rfl, rfl, hf⟩, rfl⟩
  obtain ⟨-, -, htree, -⟩ := hinv hf
  rcases htree with ⟨hnone, -⟩ | hstore
  · omega
  · have hlt : idx < 2 * leafCount s - 1 := hstore.nnodes_eq ▸ hi
    refine ⟨_, _, storeRead_of_mem_indices hstore.indices (mem_nodeAt hstore.indices hlt), exec_tbNode_in_use hf hi,
      ⟨rfl, rfl, hf⟩, rfl, rfl, rfl, rfl, fun hkind => ?_⟩
    rcases Nat.lt_or_ge idx (leafCount s) with hleaf | hinternal
    · obtain ⟨-, hleft, hright⟩ := hstore.nodeAt_leaf hleaf
      exact ⟨hleft, hright⟩
    · obtain ⟨hkind', -⟩ := hstore.nodeAt_internal hinternal hlt
      rw [hkind] at hkind'
      cases hkind'

end Sys2Proof.Machine
end

section
/-! `TB_BUILD` is a function of the list and of `WeightArith` (R121): two runs side by side differ in the unspecified
symbols of their Internal records only. -/

namespace Sys2Proof.Machine

/-- Two records are the same but for the symbol of an Internal one, which is unspecified (U3). -/
structure AlikeRec (r r' : NodeRec) : Prop where
  kind : r'.kind = r.kind
  w : r'.w = r.w
  left : r'.left = r.left
  right : r'.right = r.right
  sym : r.kind = .leaf → r'.sym = r.sym

/-- Two states hold the same tree under construction. -/
structure Alike (s s' : State) : Prop where
  nnodes : s'.nnodes = s.nnodes
  source : s'.source = s.source
  target : s'.target = s.target
  arith : s'.params.arith = s.params.arith
  records : ∀ i < s.nnodes, AlikeRec (nodeAt s i) (nodeAt s' i)

theorem nodeAt_mergeNodes_new (s : State) (a b : NodeRef) :
    nodeAt (mergeNodes s a b) s.nnodes =
      internalRec (Config.freeSym s.draws) (wAdd s.params.arith (refWeight s a) (refWeight s b)) a b :=
  nodeAt_of_storeRead (storeRead_write_same _ _ _)

namespace Alike

variable {es : List Entry} {s s' s1 s1' t t' : State} {a a' : NodeRef}

theorem refWeight (h : Alike s s') {x : NodeRef} (hx : x.toNat < s.nnodes) :
    Machine.refWeight s' x = Machine.refWeight s x :=
  (h.records _ hx).w

/-- The same node is selected, and the queues stay the same (R116). -/
theorem select (h : Alike s s') (hq : ∀ x ∈ s.source ++ s.target, x.toNat < s.nnodes)
    (h1 : Machine.select s = some (a, s1)) (h1' : Machine.select s' = some (a', s1')) : a' = a ∧ Alike s1 s1' := by
  have hcompare : ∀ x ∈ s.source ++ s.target, ∀ y ∈ s.source ++ s.target,
      wLe s'.params.arith (Machine.refWeight s' x) (Machine.refWeight s' y) =
        wLe s.params.arith (Machine.refWeight s x) (Machine.refWeight s y) := fun x hx y hy => by
    rw [h.arith, h.refWeight (hq x hx), h.refWeight (hq y hy)]
  rcases select_cases h1 with ⟨src, hs, rfl, hle⟩ | ⟨tgt, ht, rfl, hgt⟩ <;>
    rcases select_cases h1' with ⟨src', hs', rfl, hle'⟩ | ⟨tgt', ht', rfl, hgt'⟩
  · obtain ⟨rfl, rfl⟩ := List.cons.inj (hs'.symm.trans (h.source.trans hs))
    exact ⟨rfl, h.nnodes, rfl, h.target, h.arith, h.records⟩
  · have ht := h.target ▸ ht'
    have := hgt' a src (h.source.trans hs)
    rw [hcompare a (by simp [hs]) a' (by simp [ht]), hle a' tgt' ht] at this
    cases this
  · have hs := h.source ▸ hs'
    have := hle' a tgt (h.target.trans ht)
    rw [hcompare a' (by simp [hs]) a (by simp [ht]), hgt a' src' hs] at this
    cases this
  · obtain ⟨rfl, rfl⟩ := List.cons.inj (ht'.symm.trans (h.target.trans ht))
    exact ⟨rfl, h.nnodes, h.source, rfl, h.arith, h.records⟩

/-- A merge step makes the same node of both (R118). -/
theorem mergeStep (h : Alike s s') (hb : Building es s) (hb' : Building es s')
    (hm : Machine.mergeStep s = some t) (hm' : Machine.mergeStep s' = some t') : Alike t t' := by
  have hold : ∀ i < s.nnodes, AlikeRec (nodeAt t i) (nodeAt t' i) := fun i hi => by
    rw [hb.nodeAt_mergeStep hm hi, hb'.nodeAt_mergeStep hm' (h.nnodes ▸ hi)]
    exact h.records i hi
  have hq : ∀ x ∈ s.source ++ s.target, x.toNat < s.nnodes := fun x => hb.queued_lt
  obtain ⟨a, s1, b, s2, h1, h2, rfl⟩ := mergeStep_cases hm
  obtain ⟨a', s1', b', s2', h1', h2', rfl⟩ := mergeStep_cases hm'
  have hnn1 := select_nnodes h1
  have hnn2 := (select_nnodes h2).trans hnn1
  have hq1 : ∀ x ∈ s1.source ++ s1.target, x ∈ s.source ++ s.target := fun x hx =>
    (select_perm h1).subset (List.mem_cons_of_mem _ hx)
  obtain ⟨rfl, hl1⟩ := h.select hq h1 h1'
  obtain ⟨rfl, hl2⟩ := hl1.select (fun x hx => hnn1 ▸ hq x (hq1 x hx)) h2 h2'
  have ha : a'.toNat < s2.nnodes := hnn2 ▸ hq _ ((select_perm h1).subset List.mem_cons_self)
  have hb2 : b'.toNat < s2.nnodes :=
    hnn2 ▸ hq _ (hq1 _ ((select_perm h2).subset List.mem_cons_self))
  refine ⟨by simp [hl2.nnodes], by simp [hl2.source], by simp [hl2.target, hl2.nnodes], hl2.arith, fun i hi => ?_⟩
  rcases Nat.lt_succ_iff_lt_or_eq.1 hi with hlt | rfl
  · exact hold i (hnn2 ▸ hlt)
  · have hnew := nodeAt_mergeNodes_new s2' a' b'
    rw [hl2.nnodes, hl2.arith, hl2.refWeight ha, hl2.refWeight hb2] at hnew
    rw [hnew, nodeAt_mergeNodes_new]
    exact ⟨rfl, rfl, rfl, rfl, fun hkind => by cases hkind⟩

theorem afterMerges {j : Nat} (h : Alike s s') (hb : Building es s) (hb' : Building es s')
    (hm : Machine.afterMerges j s = some t) (hm' : Machine.afterMerges j s' = some t') : Alike t t' := by
  induction j generalizing s s' with
  | zero =>
    cases hm
    cases hm'
    exact h
  | succ j ih =>
    cases h1 : Machine.mergeStep s with
    | none =>
      rw [afterMerges_succ_none h1] at hm
      cases hm
    | some s1 =>
      cases h1' : Machine.mergeStep s' with
      | none =>
        rw [afterMerges_succ_none h1'] at hm'
        cases hm'
      | some s1' =>
        rw [afterMerges_succ h1] at hm
        rw [afterMerges_succ h1'] at hm'
        exact ih (h.mergeStep hb hb' h1 h1') (hb.mergeStep h1) (hb'.mergeStep h1') hm hm'

/-- The loaded leaves are the same (R114). -/
theorem loaded (hlen : s.ports.entryIn.length ≤ Config.maxLeaves) (hlist : s'.ports.entryIn = s.ports.entryIn)
    (harith : s'.params.arith = s.params.arith) : Alike (Machine.loaded s) (Machine.loaded s') := by
  refine ⟨by simp [hlist], by simp [loaded_source, hlist], by simp, by simp [loaded_params, harith], fun i hi => ?_⟩
  have hb' := building_loaded (hlist.symm ▸ hlen)
  rw [hlist] at hb'
  rw [loaded_nnodes] at hi
  rw [(building_loaded hlen).nodeAt_leaf hi, hb'.nodeAt_leaf hi]
  exact ⟨rfl, rfl, rfl, rfl, fun _ => rfl⟩

/-- The tree below every record is the same (R25): the symbol of an Internal record is no part of it. -/
theorem absAt (h : Alike s s') (fuel i : Nat) : Machine.absAt s' fuel i = Machine.absAt s fuel i := by
  induction fuel generalizing i with
  | zero => rfl
  | succ fuel ih =>
    rw [Machine.absAt, Machine.absAt, h.nnodes]
    split
    next hi =>
      obtain ⟨hkind, hw, hleft, hright, hsym⟩ := h.records i hi
      rw [hkind, hw, hleft, hright, ih, ih]
      cases hk : (nodeAt s i).kind with
      | leaf => rw [hsym hk]
      | internal => rfl
    next => rfl

theorem absTree (h : Alike s s') (hroot : s'.root = s.root) : Machine.absTree s' = Machine.absTree s := by
  rw [Machine.absTree, Machine.absTree, hroot, h.absAt]

end Alike

/-- Settles O27: the two runs stay alike from the loaded leaves to the last merge step. -/
theorem tbBuildDependsOnListAndArithmeticOnly : Obligations.TbBuildDependsOnListAndArithmeticOnly := by
  intro s s' t t' hf hf' hc hlist harith h h'
  have hc' : ContractOk s' := by rw [ContractOk, hlist, harith]; exact hc
  obtain ⟨l, r, w, htree, -⟩ := tbBuildTreeHasTheEntriesAsLeaves s t hf hc h
  obtain ⟨u, x, hu, -, -, htgt, rfl⟩ := building_of_tbBuild hf hc h
  obtain ⟨u', x', hu', -, -, htgt', rfl⟩ := building_of_tbBuild hf' hc' h'
  have hlen := hc.2.length_le
  have hb' := building_loaded hc'.2.length_le
  rw [hlist] at hb' hu'
  have hl : Alike u u' := (Alike.loaded hlen hlist harith).afterMerges (building_loaded hlen) hb' hu hu'
  obtain rfl : x' = x := List.singleton_inj.1 (htgt'.symm.trans (hl.target.trans htgt))
  have hl' : Alike { u with root := x', target := [], status := .ok, errInfo := 0 }
      { u' with root := x', target := [], status := .ok, errInfo := 0 } :=
    ⟨hl.nnodes, hl.source, rfl, hl.arith, hl.records⟩
  exact ⟨_, htree, (hl'.absTree rfl).trans htree, hl.nnodes, rfl⟩

end Sys2Proof.Machine
end

section
/-! The order invariant of `TB_BUILD` (R123): under the laws W1 to W4 both queues stay sorted, every selection takes a
least-weight node, and the weights of successive Internal nodes never decrease. -/

namespace Sys2Proof.Machine

/-! ## The contract sorts the list -/

/-- An entry list in order is sorted by weight as a whole (R111): `w_le` is transitive on `W`. -/
theorem EntryContract.sorted {A : WeightArith} (L : LawfulArith A) {es : List Entry} (h : EntryContract A es) :
    es.Pairwise fun a b => wLe A a.w b.w = true := by
  obtain ⟨hw, -, hchain⟩ := h
  induction es with
  | nil => exact .nil
  | cons e es ih =>
    have hrest := ih (fun x hx => hw x (List.mem_cons_of_mem _ hx)) hchain.tail
    refine List.pairwise_cons.2 ⟨fun x hx => ?_, hrest⟩
    cases es with
    | nil => cases hx
    | cons e' es =>
      obtain ⟨⟨hle, -⟩, -⟩ := List.isChain_cons_cons.1 hchain
      rcases List.mem_cons.1 hx with rfl | hx
      · exact hle
      · exact L.transitive _ _ _ (hw _ (by simp)) (hw _ (by simp)) (hw _ (by simp [hx])) hle
          (List.rel_of_pairwise_cons hrest hx)

/-! ## Queues -/

theorem queueSorted_congr {s t : State} {q : List NodeRef} (hparams : t.params = s.params)
    (hweight : ∀ x ∈ q, refWeight t x = refWeight s x) (h : QueueSorted s q) : QueueSorted t q :=
  List.Pairwise.imp_of_mem (fun {a b} ha hb hle => by rw [hparams, hweight a ha, hweight b hb]; exact hle) h

/-- The front of a sorted queue weighs least in it. -/
theorem queueSorted_front {s : State} {a : NodeRef} {q : List NodeRef} (L : LawfulArith s.params.arith)
    (ha : hasWeight s.params.arith (refWeight s a) = true) (h : QueueSorted s (a :: q)) :
    ∀ x ∈ a :: q, wLe s.params.arith (refWeight s a) (refWeight s x) = true := by
  intro x hx
  rcases List.mem_cons.1 hx with rfl | hx
  · exact L.reflexive _ ha
  · exact List.rel_of_pairwise_cons h hx

/-- Of two sorted queues the selection takes a least node: the lesser of the two fronts (R116, R123). -/
theorem select_least {s s1 : State} {a : NodeRef} (L : LawfulArith s.params.arith)
    (hw : ∀ x ∈ s.source ++ s.target, hasWeight s.params.arith (refWeight s x) = true)
    (hsrc : QueueSorted s s.source) (htgt : QueueSorted s s.target) (h : select s = some (a, s1)) :
    ∀ x ∈ s.source ++ s.target, wLe s.params.arith (refWeight s a) (refWeight s x) = true := by
  have ha := hw a ((select_perm h).subset List.mem_cons_self)
  rcases select_cases h with ⟨src, hs, -, hle⟩ | ⟨tgt, ht, -, hgt⟩
  · have hfront := queueSorted_front L ha (hs ▸ hsrc)
    intro x hx
    rcases List.mem_append.1 hx with hx | hx
    · exact hfront x (hs ▸ hx)
    · cases ht : s.target with
      | nil => rw [ht] at hx; cases hx
      | cons b tgt =>
        have hb := hw b (by simp [ht])
        exact L.transitive _ _ _ ha hb (hw x (List.mem_append_right _ hx)) (hle b tgt ht)
          (queueSorted_front L hb (ht ▸ htgt) x (ht ▸ hx))
  · have hfront := queueSorted_front L ha (ht ▸ htgt)
    intro x hx
    rcases List.mem_append.1 hx with hx | hx
    · cases hs : s.source with
      | nil => rw [hs] at hx; cases hx
      | cons b src =>
        have hb := hw b (by simp [hs])
        have hle := (L.total _ _ ha hb).resolve_right (by simp [hgt b src hs])
        exact L.transitive _ _ _ ha hb (hw x (List.mem_append_left _ hx)) hle
          (queueSorted_front L hb (hs ▸ hsrc) x (hs ▸ hx))
    · exact hfront x (ht ▸ hx)

/-! ## The invariant -/

/-- The order at an end test of the loop, `n` the number of entries: besides the sorted queues, no Internal node weighs
more than the sum of any two queued nodes, so not more than the next Internal node (R123). -/
structure Ordered (n : Nat) (s : State) : Prop where
  inW : ∀ i < s.nnodes, hasWeight s.params.arith (nodeAt s i).w = true
  source : QueueSorted s s.source
  target : QueueSorted s s.target
  created : ∀ x ∈ s.target, n ≤ x.toNat
  belowNext : ∀ k, n ≤ k → k < s.nnodes → ∀ a ∈ s.source ++ s.target, ∀ b ∈ s.source ++ s.target,
    wLe s.params.arith (nodeAt s k).w (wAdd s.params.arith (refWeight s a) (refWeight s b)) = true
  rising : ∀ k l, n ≤ k → k ≤ l → l < s.nnodes → wLe s.params.arith (nodeAt s k).w (nodeAt s l).w = true

theorem ordered_loaded {s : State} (L : LawfulArith s.params.arith)
    (hc : EntryContract s.params.arith s.ports.entryIn) :
    Ordered s.ports.entryIn.length (loaded s) := by
  have hleaf : ∀ i (hi : i < s.ports.entryIn.length), nodeAt (loaded s) i = leafRec s.ports.entryIn[i] := fun i hi =>
    (building_loaded hc.length_le).nodeAt_leaf hi
  have hlen := hc.length_le
  simp only [Config.maxLeaves] at hlen
  refine ⟨fun i hi => ?_, ?_, ?_, ?_, fun k hge hlt => ?_, fun k l hk hkl hl => ?_⟩
  · rw [loaded_nnodes] at hi
    rw [loaded_params, hleaf i hi]
    exact hc.1 _ (List.getElem_mem _)
  · rw [loaded_source, QueueSorted, List.pairwise_map, loaded_params]
    refine List.Pairwise.imp_of_mem (fun {i j} hi hj hij => ?_) List.pairwise_lt_range
    have hi := List.mem_range.1 hi
    have hj := List.mem_range.1 hj
    rw [refWeight, refWeight, toNat_ref (by omega), toNat_ref (by omega), hleaf i hi, hleaf j hj]
    exact List.pairwise_iff_getElem.1 (hc.sorted L) i j hi hj hij
  · rw [loaded_target]; exact .nil
  · rw [loaded_target]; exact fun x hx => absurd hx List.not_mem_nil
  · rw [loaded_nnodes] at hlt; omega
  · rw [loaded_nnodes] at hl; omega

namespace Ordered

variable {es : List Entry} {s s1 s2 t : State} {a b : NodeRef}

theorem queued_inW (h : Ordered es.length s) (hb : Building es s) {x : NodeRef} (hx : x ∈ s.source ++ s.target) :
    hasWeight s.params.arith (refWeight s x) = true :=
  h.inW _ (hb.queued_lt hx)

/-- The first node selected is a least one (R123). -/
theorem first_least (h : Ordered es.length s) (hb : Building es s) (L : LawfulArith s.params.arith)
    (h1 : select s = some (a, s1)) :
    ∀ x ∈ s.source ++ s.target, wLe s.params.arith (refWeight s a) (refWeight s x) = true :=
  select_least L (fun _ => h.queued_inW hb) h.source h.target h1

/-- The second node selected is a least one of those left (R123). -/
theorem second_least (h : Ordered es.length s) (hb : Building es s) (L : LawfulArith s.params.arith)
    (h1 : select s = some (a, s1)) (h2 : select s1 = some (b, s2)) :
    ∀ x ∈ s1.source ++ s1.target, wLe s.params.arith (refWeight s b) (refWeight s x) = true := by
  have hparams := select_params h1
  have hweight := select_refWeight h1
  obtain ⟨hsrc, htgt⟩ := select_sublist h1
  have hsub := (hsrc.append htgt).subset
  have hleast := select_least (hparams ▸ L)
    (fun x hx => by rw [hparams, hweight]; exact h.queued_inW hb (hsub hx))
    (queueSorted_congr hparams (fun x _ => hweight x) (h.source.sublist hsrc))
    (queueSorted_congr hparams (fun x _ => hweight x) (h.target.sublist htgt)) h2
  intro x hx
  rw [← hparams, ← hweight b, ← hweight x]
  exact hleast x hx

end Ordered

/-- What a merge step does to the weights: its node is the sum of two queued nodes that weigh no more than any node left
in the queues, and goes behind those left of `target`. -/
structure MergesLeast (s t : State) (a b : NodeRef) (tgt : List NodeRef) : Prop where
  left : a ∈ s.source ++ s.target
  right : b ∈ s.source ++ s.target
  source : t.source.Sublist s.source
  kept : tgt.Sublist s.target
  target : t.target = tgt ++ [BitVec.ofNat 9 s.nnodes]
  weight : (nodeAt t s.nnodes).w = wAdd s.params.arith (refWeight s a) (refWeight s b)
  ordered : wLe s.params.arith (refWeight s a) (refWeight s b) = true
  least : ∀ x ∈ t.source ++ tgt, wLe s.params.arith (refWeight s b) (refWeight s x) = true

namespace Ordered

variable {es : List Entry} {s t : State} {a b : NodeRef} {tgt : List NodeRef}

theorem mergesLeast (h : Ordered es.length s) (hb : Building es s) (L : LawfulArith s.params.arith)
    (hm : mergeStep s = some t) : ∃ a b tgt, MergesLeast s t a b tgt := by
  obtain ⟨a, s1, b, s2, h1, h2, rfl⟩ := mergeStep_cases hm
  obtain ⟨hsrc1, htgt1⟩ := select_sublist h1
  obtain ⟨hsrc2, htgt2⟩ := select_sublist h2
  have hb1 : b ∈ s1.source ++ s1.target := (select_perm h2).subset List.mem_cons_self
  have hbs := (hsrc1.append htgt1).subset hb1
  have hnn := (select_nnodes h2).trans (select_nnodes h1)
  refine ⟨a, b, s2.target, (select_perm h1).subset List.mem_cons_self, hbs, hsrc2.trans hsrc1, htgt2.trans htgt1,
    ?_, ?_, h.first_least hb L h1 b hbs,
    fun x hx => h.second_least hb L h1 h2 x ((hsrc2.append htgt2).subset hx)⟩
  · rw [mergeNodes_target, hnn]
  · have hnew := congrArg NodeRec.w (nodeAt_mergeNodes_new s2 a b)
    rw [hnn] at hnew
    rw [hnew, internalRec, select_params h2, select_params h1, select_refWeight h2, select_refWeight h2,
      select_refWeight h1, select_refWeight h1]

/-- The sum of two queued nodes is a value of `W` (R13). -/
theorem sum_inW (h : Ordered es.length s) (hb : Building es s) (L : LawfulArith s.params.arith)
    (ha : a ∈ s.source ++ s.target) (hb' : b ∈ s.source ++ s.target) :
    hasWeight s.params.arith (wAdd s.params.arith (refWeight s a) (refWeight s b)) = true :=
  L.closed _ _ (h.queued_inW hb ha) (h.queued_inW hb hb')

section
variable (h : Ordered es.length s) (hb : Building es s) (L : LawfulArith s.params.arith)
  (hm : mergeStep s = some t) (hl : MergesLeast s t a b tgt)
include h hb L hm hl

/-- After a merge step every weight is a value of `W`. -/
theorem inW_mergeStep {i : Nat} (hi : i < t.nnodes) : hasWeight s.params.arith (nodeAt t i).w = true := by
  obtain ⟨-, -, hnn, -⟩ := mergeStep_frame hm
  rcases Nat.lt_succ_iff_lt_or_eq.1 (hnn ▸ hi) with hlt | rfl
  · rw [hb.nodeAt_mergeStep hm hlt]; exact h.inW i hlt
  · rw [hl.weight]; exact h.sum_inW hb L hl.left hl.right

/-- No Internal node weighs more than the newest one. -/
theorem le_newest {k : Nat} (hge : es.length ≤ k) (hk : k < t.nnodes) : wLe s.params.arith (nodeAt t k).w
    (wAdd s.params.arith (refWeight s a) (refWeight s b)) = true := by
  obtain ⟨-, -, hnn, -⟩ := mergeStep_frame hm
  rcases Nat.lt_succ_iff_lt_or_eq.1 (hnn ▸ hk) with hlt | rfl
  · rw [hb.nodeAt_mergeStep hm hlt]; exact h.belowNext k hge hlt a hl.left b hl.right
  · rw [hl.weight]; exact L.reflexive _ (h.sum_inW hb L hl.left hl.right)

/-- The children of the newest node weigh no more than any queued node, itself included (W4). -/
theorem children_le_queued {x : NodeRef} (hx : x ∈ t.source ++ t.target) :
    hasWeight s.params.arith (refWeight t x) = true ∧
      wLe s.params.arith (refWeight s a) (refWeight t x) = true ∧
      wLe s.params.arith (refWeight s b) (refWeight t x) = true := by
  have hwa := h.queued_inW hb hl.left
  have hwb := h.queued_inW hb hl.right
  rw [hl.target, ← List.append_assoc] at hx
  rcases List.mem_append.1 hx with hx | hx
  · have hxs := (hl.source.append hl.kept).subset hx
    have hwx := h.queued_inW hb hxs
    have hle := hl.least x hx
    rw [hb.refWeight_mergeStep hm (hb.queued_lt hxs)]
    exact ⟨hwx, L.transitive _ _ _ hwa hwb hwx hl.ordered hle, hle⟩
  · rw [List.mem_singleton.1 hx, refWeight, toNat_ref (hb.nnodes_lt hl.left), hl.weight]
    exact ⟨L.closed _ _ hwa hwb, L.leftLe _ _ hwa hwb, L.rightLe _ _ hwa hwb⟩

end

/-- Every merge step keeps the order (R123): no Internal node weighs more than the newest, and that no more than any sum
of two queued nodes, by W2. -/
theorem mergeStep (h : Ordered es.length s) (hb : Building es s) (L : LawfulArith s.params.arith)
    (hm : Machine.mergeStep s = some t) : Ordered es.length t := by
  obtain ⟨a, b, tgt, hl⟩ := h.mergesLeast hb L hm
  obtain ⟨-, -, hnn, -⟩ := mergeStep_frame hm
  have hparams := mergeStep_params hm
  have hweight : ∀ x ∈ s.source ++ s.target, refWeight t x = refWeight s x := fun x hx =>
    hb.refWeight_mergeStep hm (hb.queued_lt hx)
  have href := toNat_ref (hb.nnodes_lt hl.left)
  have hinW : ∀ i < t.nnodes, hasWeight s.params.arith (nodeAt t i).w = true := fun i => h.inW_mergeStep hb L hm hl
  refine ⟨hparams ▸ hinW, ?_, ?_, fun x hx => ?_, fun k hge hk c hc d hd => ?_, fun k l hge hkl hlt => ?_⟩
  · exact queueSorted_congr hparams (fun x hx => hweight x (List.mem_append_left _ (hl.source.subset hx)))
      (h.source.sublist hl.source)
  · rw [hl.target]
    refine List.pairwise_append.2 ⟨queueSorted_congr hparams
      (fun x hx => hweight x (List.mem_append_right _ (hl.kept.subset hx))) (h.target.sublist hl.kept),
      List.pairwise_singleton _ _, fun x hx y hy => ?_⟩
    have hx := hl.kept.subset hx
    have hlt := hb.queued_lt (List.mem_append_right _ hx)
    rw [List.mem_singleton.1 hy, hparams, refWeight, refWeight, href, hl.weight]
    exact h.le_newest hb L hm hl (h.created x hx) (by omega)
  · rw [hl.target] at hx
    rcases List.mem_append.1 hx with hx | hx
    · exact h.created x (hl.kept.subset hx)
    · rw [List.mem_singleton.1 hx, href]; exact hb.loaded
  · obtain ⟨hwc, hac, -⟩ := h.children_le_queued hb L hm hl hc
    obtain ⟨hwd, -, hbd⟩ := h.children_le_queued hb L hm hl hd
    have hwa := h.queued_inW hb hl.left
    have hwb := h.queued_inW hb hl.right
    rw [hparams]
    exact L.transitive _ _ _ (hinW k hk) (L.closed _ _ hwa hwb) (L.closed _ _ hwc hwd)
      (h.le_newest hb L hm hl hge hk) (L.monotone _ _ _ _ hwa hwc hwb hwd hac hbd)
  · rw [hparams]
    rcases Nat.lt_succ_iff_lt_or_eq.1 (hnn ▸ hlt) with hlt | rfl
    · rw [hb.nodeAt_mergeStep hm (by omega), hb.nodeAt_mergeStep hm hlt]
      exact h.rising k l hge hkl hlt
    · rw [hl.weight]
      exact h.le_newest hb L hm hl hge (by omega)

end Ordered

/-- The order holds after every number of merge steps from the loaded leaves. -/
theorem ordered_afterMerges {s u : State} {j : Nat} (L : LawfulArith s.params.arith)
    (hc : EntryContract s.params.arith s.ports.entryIn) (h : afterMerges j (loaded s) = some u) :
    Ordered s.ports.entryIn.length u := by
  have hstart : (loaded s).params = s.params ∧ Building s.ports.entryIn (loaded s) ∧
      Ordered s.ports.entryIn.length (loaded s) :=
    ⟨loaded_params s, building_loaded hc.length_le, ordered_loaded L hc⟩
  obtain ⟨-, -, hordered⟩ := afterMerges_induction
    (P := fun u => u.params = s.params ∧ Building s.ports.entryIn u ∧ Ordered s.ports.entryIn.length u)
    (fun _ _ ⟨hp, hb, ho⟩ hm => ⟨(mergeStep_params hm).trans hp, hb.mergeStep hm, ho.mergeStep hb (hp ▸ L) hm⟩)
    hstart h
  exact hordered

/-- Settles O28: the invariant at every end test, and what it says of the two selections. -/
theorem tbBuildQueuesStaySorted : Obligations.TbBuildQueuesStaySorted := by
  rintro s u j L ⟨-, hc⟩ h
  have hb := building_afterMerges hc.length_le h
  have ho := ordered_afterMerges L hc h
  have hparams := (afterMerges_params h).trans (loaded_params s)
  rw [← hparams] at L ⊢
  exact ⟨ho.source, ho.target, fun a u1 h1 => ⟨ho.first_least hb L h1, fun b u2 h2 => ho.second_least hb L h1 h2⟩⟩

/-- Settles O29: the invariant at the end of the loop. -/
theorem tbBuildInternalWeightsNeverDecrease : Obligations.TbBuildInternalWeightsNeverDecrease := by
  intro s t L hf hc h k hge hk
  obtain ⟨u, r, hu, -, -, -, rfl⟩ := building_of_tbBuild hf hc h
  have hrising := (ordered_afterMerges L hc.2 hu).rising k (k + 1) hge (Nat.le_succ k) hk
  rw [(afterMerges_params hu).trans (loaded_params s)] at hrising
  exact hrising

end Sys2Proof.Machine
end

section
/-! Every step keeps the invariant (R124, R46, R241): one lemma per operation, from a safe state to the next state. -/

namespace Sys2Proof.Machine

variable {s t : State}

/-! ## The tree -/

/-- What a store holds depends on the records, `nnodes`, `root` and the arithmetic only. -/
theorem StoreOk.congr {n : Nat} (h : StoreOk s n) (hnode : t.node = s.node) (hnn : t.nnodes = s.nnodes)
    (hroot : t.root = s.root) (hparams : t.params = s.params) : StoreOk t n := by
  have hweight : ∀ x : NodeRef, x.toNat < 2 * n - 1 → refWeight t x = refWeight s x := fun x hx =>
    congrArg NodeRec.w (nodeAt_congr h.indices hx (by rw [hnode]))
  have hidx := h.indices
  obtain ⟨hmin, hmax, hnn', hroot', -, hleaves, hinternals, hchildren⟩ := h
  rw [StoreOk, hnode, hnn, hroot]
  refine ⟨hmin, hmax, hnn', hroot', hidx, hleaves, fun p hp hge => ?_, hchildren⟩
  have hlt := lt_of_mem_indices hidx hp
  obtain ⟨hkind, hleft, hright, hw⟩ := hinternals p hp hge
  refine ⟨hkind, hleft, hright, ?_⟩
  rw [hw, hparams, hweight _ (hleft.trans hlt), hweight _ (hright.trans hlt)]

theorem TreeOk.congr (h : TreeOk s) (hnode : t.node = s.node) (hnn : t.nnodes = s.nnodes) (hroot : t.root = s.root)
    (hparams : t.params = s.params) : TreeOk t := by
  rcases h with ⟨hn, hr, hempty⟩ | hstore
  · exact .inl ⟨hnn.trans hn, hroot.trans hr, hnode.trans hempty⟩
  · refine .inr ?_
    rw [leafCount, hnn]
    exact hstore.congr hnode hnn hroot hparams

/-- An operation that leaves the tree, the queues and the fault flag, and the table and the results as the rules have
them, keeps the invariant. -/
theorem Safe.next (h : Safe s) (htree : t.node = s.node ∧ t.nnodes = s.nnodes ∧ t.root = s.root)
    (hqueues : t.source = s.source ∧ t.target = s.target) (hparams : t.params = s.params) (hfault : t.fault = s.fault)
    (htable : storeWf Config.maxLeaves t.ct = true ∧ ∀ p ∈ t.ct, CodeOk p.2) (hresults : ResultsOk t) : Inv t := by
  obtain ⟨⟨hwf, -, hmax, -, hinv⟩, hf⟩ := h
  obtain ⟨hsrc, htgt, htreeOk, -⟩ := hinv hf
  obtain ⟨hnode, hnn, hroot⟩ := htree
  obtain ⟨hsource, htarget⟩ := hqueues
  obtain ⟨hctwf, hcodes⟩ := htable
  refine ⟨hnode ▸ hwf, hctwf, hnn ▸ hmax, fun hbad => ?_, fun _ => ⟨hsource.trans hsrc, htarget.trans htgt,
    htreeOk.congr hnode hnn hroot hparams, hcodes, hresults⟩⟩
  rw [hfault, hf] at hbad
  cases hbad

theorem Safe.table (h : Safe s) : storeWf Config.maxLeaves s.ct = true ∧ ∀ p ∈ s.ct, CodeOk p.2 := by
  obtain ⟨⟨-, hctwf, -, -, hinv⟩, hf⟩ := h
  obtain ⟨-, -, -, hcodes, -⟩ := hinv hf
  exact ⟨hctwf, hcodes⟩

theorem Safe.treeOk (h : Safe s) : TreeOk s := by
  obtain ⟨⟨-, -, -, -, hinv⟩, hf⟩ := h
  obtain ⟨-, -, htree, -⟩ := hinv hf
  exact htree

/-- The result registers of a safe state: bit characters, a header in byte 0, a hit with its length. -/
theorem Safe.results (h : Safe s) : (∀ c ∈ s.charOut, isBitChar c = true) ∧ s.byteOut.head? ≠ some 0#8 ∧
    (s.lookupOut.hit = true → s.lookupOut.len.toNat = s.lookupOut.code.length) := by
  obtain ⟨⟨-, -, -, -, hinv⟩, hf⟩ := h
  obtain ⟨-, -, -, -, -, -, hresults⟩ := hinv hf
  exact hresults

/-- `OK` with no information agrees (R35). -/
theorem resultsOk_finish (h : (∀ c ∈ s.charOut, isBitChar c = true) ∧ s.byteOut.head? ≠ some 0#8 ∧
    (s.lookupOut.hit = true → s.lookupOut.len.toNat = s.lookupOut.code.length)) : ResultsOk (finish s) :=
  ⟨by simp, fun _ => rfl, h⟩

/-! ## Reset and the fault -/

/-- Reset meets the invariant whatever the state before it (R38). -/
theorem inv_resetBlock (s : State) : Inv (resetBlock s) :=
  ⟨rfl, rfl, Nat.zero_le _, (fun hbad => by cases hbad), fun _ => ⟨rfl, rfl, .inl ⟨rfl, rfl, rfl⟩,
    fun _ hp => absurd hp List.not_mem_nil, by simp, fun _ => rfl, fun _ hc => absurd hc List.not_mem_nil, by simp,
    fun hhit => by cases hhit⟩⟩

/-- The fault meets the invariant: its status, and stores that are canonical whatever they hold (R240). -/
theorem inv_raise_structuralPrecondition (s : State) : Inv (raise .structuralPrecondition s) :=
  ⟨rfl, freeTable_storeWf _, Nat.le_of_lt_succ (Nat.mod_lt _ (by decide)), fun _ => ⟨rfl, rfl⟩,
    fun hbad => by cases hbad⟩

/-! ## The operations -/

theorem execIllegal_keeps_inv {cw : CmdWord} (h : Safe s) (he : execIllegal cw s = .next t) : Inv t := by
  rw [execIllegal, if_neg (by simp [h.2]), raise_reported _ _ (by simp)] at he
  cases he
  exact h.next ⟨rfl, rfl, rfl⟩ ⟨rfl, rfl⟩ rfl rfl h.table ⟨by simp [causeStatus], by simp [causeStatus], h.results⟩

theorem execTbNode_keeps_inv {idx : Nat} (h : Safe s) (he : execTbNode idx s = .next t) : Inv t := by
  obtain ⟨out, d, rfl⟩ := execTbNode_next he
  exact h.next ⟨rfl, rfl, rfl⟩ ⟨rfl, rfl⟩ rfl rfl h.table (resultsOk_finish h.results)

theorem execCdLookup_keeps_inv {sym : Nat} (h : Safe s) (he : execCdLookup sym s = .next t) : Inv t := by
  obtain ⟨hchars, hbytes, -⟩ := h.results
  rcases execCdLookup_cases sym s with ⟨-, hx⟩ | ⟨-, r, hr, hx⟩ | ⟨-, -, hx⟩ <;> rw [hx] at he <;> cases he
  · obtain ⟨-, hcodes⟩ := h.table
    exact h.next ⟨rfl, rfl, rfl⟩ ⟨rfl, rfl⟩ rfl rfl h.table
      (resultsOk_finish ⟨hchars, hbytes, fun _ => hcodes _ (storeRead_mem hr)⟩)
  · exact h.next ⟨rfl, rfl, rfl⟩ ⟨rfl, rfl⟩ rfl rfl h.table
      (resultsOk_finish ⟨hchars, hbytes, fun hhit => by cases hhit⟩)

/-- Byte 0 of a packed stream is not 0x00: it holds the header (R77). -/
theorem bpPack_head_ne (hf : s.fault = false) (he : exec .bpPack s = .next t) (hok : t.status = .ok) :
    t.byteOut.head? ≠ some 0#8 := by
  obtain ⟨b, bs, hout, hge, -⟩ := firstPackedByteLiesInItsRange s t hf he hok
  rw [hout]
  intro hzero
  rw [Option.some.inj hzero] at hge
  exact absurd hge (Nat.not_le_of_gt (Nat.two_pow_pos _))

theorem execBpPack_keeps_inv (h : Safe s) (he : execBpPack s = .next t) : Inv t := by
  obtain ⟨hchars, -, hlook⟩ := h.results
  have hhead := bpPack_head_ne h.2 he
  rcases execBpPack_cases s with ⟨-, hx⟩ | ⟨-, -, hx⟩ | ⟨-, -, k, -, hx⟩ | ⟨-, -, -, -, hx⟩ | ⟨-, -, -, -, hx⟩ <;>
    rw [hx] at he <;> cases he
  · exact h.next ⟨rfl, rfl, rfl⟩ ⟨rfl, rfl⟩ rfl rfl h.table ⟨by simp, by simp, hchars, by simp, hlook⟩
  · exact h.next ⟨rfl, rfl, rfl⟩ ⟨rfl, rfl⟩ rfl rfl h.table ⟨by simp, fun _ => rfl, hchars, by simp, hlook⟩
  · exact h.next ⟨rfl, rfl, rfl⟩ ⟨rfl, rfl⟩ rfl rfl h.table ⟨by simp, fun _ => rfl, hchars, hhead rfl, hlook⟩

theorem execBuUnpack_keeps_inv (h : Safe s) (he : execBuUnpack s = .next t) : Inv t := by
  obtain ⟨-, hbytes, hlook⟩ := h.results
  rcases execBuUnpack_cases s with ⟨-, hx⟩ | ⟨-, -, hx⟩ | ⟨-, -, -, hx⟩ | ⟨-, -, -, hx⟩ <;> rw [hx] at he <;> cases he
  · exact h.next ⟨rfl, rfl, rfl⟩ ⟨rfl, rfl⟩ rfl rfl h.table ⟨by simp, fun _ => rfl, by simp, hbytes, hlook⟩
  · refine h.next ⟨rfl, rfl, rfl⟩ ⟨rfl, rfl⟩ rfl rfl h.table ⟨by simp, fun _ => rfl, fun c hc => ?_, hbytes, hlook⟩
    obtain ⟨b, -, rfl⟩ := List.mem_map.1 hc
    exact isBitChar_charOf b

/-! ## `CD_DERIVE` -/

theorem mem_storeWrite {α : Type} {m : List (Nat × α)} {i : Nat} {v : α} {p : Nat × α} (hp : p ∈ storeWrite m i v) :
    p = (i, v) ∨ p ∈ m := by
  induction m with
  | nil => exact .inl (List.mem_singleton.1 hp)
  | cons q m ih =>
    obtain ⟨k, u⟩ := q
    rw [storeWrite] at hp
    split at hp
    · exact List.mem_cons.1 hp
    · split at hp
      · exact (List.mem_cons.1 hp).imp_right (List.mem_cons_of_mem _)
      · rcases List.mem_cons.1 hp with rfl | hp
        · exact .inr List.mem_cons_self
        · exact (ih hp).imp_right (List.mem_cons_of_mem _)

/-- A path of at most 255 bits has its length in `len` (R12, R27). -/
theorem codeOk_codeRec {path : List Bit} (h : path.length < 256) : CodeOk (codeRec path) :=
  (BitVec.toNat_ofNat _ _).trans (Nat.mod_eq_of_lt h)

/-- Every step down goes to a lower record, and all but the last to an Internal one, so a path to a leaf has at most
`n - 1` bits (R12). -/
theorem walk_codeOk {n fuel i : Nat} {path : List Bit} {table table' : List (Nat × CodeRec)} (h : StoreOk s n)
    (hi : i + path.length ≤ 2 * n - 2) (hpath : path.length < n) (htable : ∀ p ∈ table, CodeOk p.2)
    (hw : walk s fuel i path table = .ok table') : ∀ p ∈ table', CodeOk p.2 := by
  have hn := h.bounds
  induction fuel generalizing i path table table' with
  | zero => cases hw
  | succ fuel ih =>
    rw [walk_succ] at hw
    split at hw
    next hkind =>
      split at hw
      next => cases hw
      next =>
        cases hw
        intro p hp
        rcases mem_storeWrite hp with rfl | hp
        · exact codeOk_codeRec (by omega)
        · exact htable p hp
    next hkind =>
      have hge : n ≤ i := by
        by_contra hlt
        obtain ⟨hleaf, -⟩ := h.nodeAt_leaf (Nat.lt_of_not_le hlt)
        rw [hleaf] at hkind
        cases hkind
      obtain ⟨-, hleft, hright, -⟩ := h.nodeAt_internal hge (by omega)
      split at hw
      next => cases hw
      next table1 hw1 =>
        refine ih ?_ ?_ (ih ?_ ?_ htable hw1) hw <;> simp only [List.length_append, List.length_singleton] <;> omega

theorem deriveTable_ok {table : List (Nat × CodeRec)} (htree : TreeOk s) (h : deriveTable s = .ok table) :
    storeWf Config.maxLeaves table = true ∧ ∀ p ∈ table, CodeOk p.2 := by
  rw [deriveTable] at h
  split at h
  next =>
    cases h
    exact ⟨rfl, fun _ hp => absurd hp List.not_mem_nil⟩
  next hroot =>
    rcases htree with ⟨-, hempty, -⟩ | hstore
    · exact absurd hempty hroot
    · have := hstore.bounds
      refine ⟨walk_storeWf rfl h, walk_codeOk hstore ?_ ?_ (fun _ hp => absurd hp List.not_mem_nil) h⟩
      · exact hstore.root_eq.le
      · rw [List.length_nil]; omega

theorem execCdDerive_keeps_inv (h : Safe s) (he : execCdDerive s = .next t) : Inv t := by
  rcases execCdDerive_cases s with ⟨-, hx⟩ | ⟨-, table, htable, hx⟩ | ⟨-, -, hx⟩ | ⟨-, -, hx⟩ <;> rw [hx] at he <;>
    cases he
  exact h.next ⟨rfl, rfl, rfl⟩ ⟨rfl, rfl⟩ rfl rfl (deriveTable_ok h.treeOk htable) (resultsOk_finish h.results)

/-! ## `TB_BUILD` -/

theorem storeWf_mono {α : Type} {bound bound' lo : Nat} {m : List (Nat × α)} (hb : bound ≤ bound')
    (h : storeWfFrom bound lo m = true) : storeWfFrom bound' lo m = true := by
  induction m generalizing lo with
  | nil => rfl
  | cons p m ih =>
    simp only [storeWfFrom, Bool.and_eq_true, decide_eq_true_eq] at h ⊢
    obtain ⟨⟨hlo, hlt⟩, hrest⟩ := h
    exact ⟨⟨hlo, hlt.trans_le hb⟩, ih hrest⟩

theorem execTbBuild_keeps_inv (h : Safe s) (he : execTbBuild s = .next t) : Inv t := by
  rcases execTbBuild_cases s with ⟨-, hx⟩ | ⟨-, -, hx⟩ | ⟨-, -, -, why, hx⟩ | ⟨-, hc, -⟩
  · rw [hx] at he; cases he
  · rw [hx] at he; cases he; exact inv_raise_structuralPrecondition s
  · rw [hx] at he; cases he
  · obtain ⟨t', he', ⟨hstatus, hinfo, hfault⟩, -, -, hsrc, htgt, -, hbyte, hchar, -, hlook, -⟩ :=
      tbBuildCompletes s h.2 hc
    obtain rfl : t' = t := Host.Outcome.next.inj (he'.symm.trans he)
    obtain ⟨hctwf, hcodes⟩ := h.table
    obtain ⟨hct, -⟩ := execTbBuild_frame he (hfault.trans h.2.symm)
    have hstore := tbBuildLeavesAStrictTree s t' h.2 hc he
    have hn := hstore.bounds
    have hmax : 2 * s.ports.entryIn.length - 1 ≤ Config.maxNodes := by simp only [Config.maxNodes]; omega
    refine ⟨storeWf_mono hmax (storeWf_of_indices hstore.indices), hct ▸ hctwf, hstore.nnodes_eq ▸ hmax, ?_,
      fun _ => ⟨hsrc, htgt, .inr (hstore.leafCount_eq.symm ▸ hstore), hct ▸ hcodes, ?_⟩⟩
    · rw [hfault]; exact fun hbad => by cases hbad
    · rw [ResultsOk, hstatus, hchar, hbyte, hlook]
      exact ⟨by simp, fun _ => hinfo, h.results⟩

/-! ## Steps -/

/-- Every operation keeps the invariant. -/
theorem exec_keeps_inv {i : Instr} (h : Safe s) (he : exec i s = .next t) : Inv t := by
  cases i with
  | tbBuild => exact execTbBuild_keeps_inv h he
  | tbNode idx => exact execTbNode_keeps_inv h he
  | cdDerive => exact execCdDerive_keeps_inv h he
  | cdLookup sym => exact execCdLookup_keeps_inv h he
  | bpPack => exact execBpPack_keeps_inv h he
  | buUnpack => exact execBuUnpack_keeps_inv h he

/-- A command keeps the invariant: its operands and the queue of requests are no part of it (R55). -/
theorem runCommand_keeps_inv {c : Command} (h : Safe s) (he : runCommand c s = .next t) : Inv t := by
  have hpresent : Safe (present s c.operands) := h
  rcases runCommand_cases c s with ⟨i, -, hx⟩ | ⟨e, -, hx⟩ <;> rw [hx] at he
  · exact exec_keeps_inv hpresent he
  · exact execIllegal_keeps_inv hpresent he

/-- Settles O17: a step is an idle one, a command outside the fault, or a reset. -/
theorem everyStepKeepsTheInvariant : Obligations.EveryStepKeepsTheInvariant := by
  intro s t hinv h
  rcases step_cases s with ⟨-, -, hx⟩ | ⟨hf, c, rest, -, hx⟩ | ⟨cs, r, rest, -, -, -, hx⟩ | ⟨-, -, hx⟩ <;> rw [hx] at h
  · cases h; exact hinv
  · exact runCommand_keeps_inv (s := popRequest s rest) ⟨hinv, hf⟩ h
  · cases h; exact inv_resetBlock _
  · cases h

end Sys2Proof.Machine
end

section
/-! The codes of an abstract tree (R142): they are the paths to its leaves, so none begins another (R147), none is
longer than the tree has leaves, and their Kraft sum is 1 (R148). -/

namespace Sys2Proof.Machine

variable {t : Tree} {p : List Bit}

/-- Every code extends the path to the root of its tree. -/
theorem prefix_of_mem_treeCodes {q : Sym × List Bit} (hq : q ∈ treeCodes t p) : p <+: q.2 := by
  induction t generalizing p with
  | leaf sym w => rw [List.mem_singleton.1 hq]
  | node l r w ihl ihr =>
    rcases List.mem_append.1 hq with hl | hr
    · exact (List.prefix_append p [false]).trans (ihl hl)
    · exact (List.prefix_append p [true]).trans (ihr hr)

/-- Two paths that part at a node are no prefixes of one path. -/
theorem eq_of_concat_prefix {a b : Bit} {c : List Bit} (ha : p ++ [a] <+: c) (hb : p ++ [b] <+: c) : a = b := by
  have hpre : p ++ [a] <+: p ++ [b] := List.prefix_of_prefix_length_le ha hb (by simp)
  simpa using hpre.eq_of_length (by simp)

/-- A code that another code begins with leads to the same leaf. -/
theorem eq_of_mem_treeCodes_of_prefix {a b : Sym × List Bit} (ha : a ∈ treeCodes t p) (hb : b ∈ treeCodes t p)
    (hab : a.2 <+: b.2) : a = b := by
  induction t generalizing p with
  | leaf sym w => rw [List.mem_singleton.1 ha, List.mem_singleton.1 hb]
  | node l r w ihl ihr =>
    rcases List.mem_append.1 ha with ha | ha <;> rcases List.mem_append.1 hb with hb | hb
    · exact ihl ha hb
    · cases eq_of_concat_prefix ((prefix_of_mem_treeCodes ha).trans hab) (prefix_of_mem_treeCodes hb)
    · cases eq_of_concat_prefix ((prefix_of_mem_treeCodes ha).trans hab) (prefix_of_mem_treeCodes hb)
    · exact ihr ha hb

/-- The symbols that have a code are those of the leaves, left to right. -/
theorem treeCodes_syms (t : Tree) (p : List Bit) : (treeCodes t p).map (·.1) = (treeLeaves t).map (·.sym) := by
  induction t generalizing p with
  | leaf sym w => rfl
  | node l r w ihl ihr => rw [treeCodes, treeLeaves, List.map_append, List.map_append, ihl, ihr]

theorem treeCodes_length (t : Tree) (p : List Bit) : (treeCodes t p).length = (treeLeaves t).length := by
  simpa using congrArg List.length (treeCodes_syms t p)

theorem treeLeaves_length_pos (t : Tree) : 0 < (treeLeaves t).length := by
  induction t with
  | leaf sym w => exact Nat.one_pos
  | node l r w ihl ihr => rw [treeLeaves, List.length_append]; omega

/-- Every step down leaves at least one leaf aside. -/
theorem length_of_mem_treeCodes {q : Sym × List Bit} (hq : q ∈ treeCodes t p) :
    q.2.length + 1 ≤ p.length + (treeLeaves t).length := by
  induction t generalizing p with
  | leaf sym w => rw [List.mem_singleton.1 hq]; rfl
  | node l r w ihl ihr =>
    have hposl := treeLeaves_length_pos l
    have hposr := treeLeaves_length_pos r
    rw [treeLeaves, List.length_append]
    rcases List.mem_append.1 hq with hl | hr
    · have := ihl hl
      rw [List.length_append, List.length_singleton] at this
      omega
    · have := ihr hr
      rw [List.length_append, List.length_singleton] at this
      omega

/-- The Kraft sum, scaled by `2 ^ N`: each half of a tree holds half of its share. -/
theorem treeCodes_kraft {N : Nat} (h : p.length + (treeLeaves t).length ≤ N + 1) :
    ((treeCodes t p).map fun q => 2 ^ (N - q.2.length)).sum = 2 ^ (N - p.length) := by
  induction t generalizing p with
  | leaf sym w => exact List.sum_singleton
  | node l r w ihl ihr =>
    have hposl := treeLeaves_length_pos l
    have hposr := treeLeaves_length_pos r
    rw [treeLeaves, List.length_append] at h
    rw [treeCodes, List.map_append, List.sum_append, ihl (by rw [List.length_append, List.length_singleton]; omega),
      ihr (by rw [List.length_append, List.length_singleton]; omega), List.length_append, List.length_append,
      List.length_singleton, List.length_singleton, ← Nat.two_mul, ← Nat.pow_succ']
    congr 1
    omega

end Sys2Proof.Machine
end

section
/-! The walk of `CD_DERIVE` on a store that holds a tree: it ends, and the table it answers lists the codes of the
abstract tree (R141, R142, R143). -/

namespace Sys2Proof.Machine

/-! ## Writing a record that is not listed -/

section
variable {α : Type} {m : List (Nat × α)} {i : Nat}

theorem storeRead_eq_none (h : i ∉ m.map (·.1)) : storeRead m i = none := by
  rw [Option.eq_none_iff_forall_ne_some]
  exact fun v hv => h (List.mem_map_of_mem (storeRead_mem hv))

theorem storeWrite_perm (h : i ∉ m.map (·.1)) (v : α) : (storeWrite m i v).Perm ((i, v) :: m) := by
  induction m with
  | nil => exact .refl _
  | cons q m ih =>
    obtain ⟨k, u⟩ := q
    rw [List.map_cons, List.mem_cons, not_or] at h
    obtain ⟨hk, hm⟩ := h
    rw [storeWrite, if_neg (c := i = k) hk]
    split
    · exact .refl _
    · exact ((ih hm).cons _).trans (.swap _ _ _)

end

/-! ## The walk -/

/-- The code table record of a symbol and its path, under the symbol's index (R27). -/
def tableEntry (q : Sym × List Bit) : Nat × CodeRec := (q.1.toNat, codeRec q.2)

/-- The two ways in which a record is the root of a tree (R25). -/
theorem absAt_cases {s : State} {fuel i : Nat} {t : Tree} (h : absAt s (fuel + 1) i = some t) :
    ((nodeAt s i).kind = .leaf ∧ t = .leaf (nodeAt s i).sym (nodeAt s i).w) ∨
    ((nodeAt s i).kind = .internal ∧ ∃ l r, absAt s fuel (nodeAt s i).left.toNat = some l ∧
      absAt s fuel (nodeAt s i).right.toNat = some r ∧ t = .node l r (nodeAt s i).w) := by
  rw [absAt] at h
  split at h
  next =>
    split at h
    next hkind => cases h; exact .inl ⟨hkind, rfl⟩
    next hkind =>
      split at h
      next l r hl hr => cases h; exact .inr ⟨hkind, l, r, hl, hr, rfl⟩
      next => cases h
  next => cases h

/-- Where no symbol is written twice, the walk from a record adds the codes of the tree below it to the table. -/
theorem walk_of_absAt {s : State} {fuel i : Nat} {t : Tree} {path : List Bit} {table : List (Nat × CodeRec)}
    (h : absAt s fuel i = some t) (hnodup : (((treeCodes t path).map tableEntry ++ table).map (·.1)).Nodup) :
    ∃ table', walk s fuel i path table = .ok table' ∧
      table'.Perm ((treeCodes t path).map tableEntry ++ table) := by
  induction fuel generalizing i t path table with
  | zero => cases h
  | succ fuel ih =>
    rcases absAt_cases h with ⟨hkind, rfl⟩ | ⟨hkind, l, r, hl, hr, rfl⟩
    · have hfresh : (nodeAt s i).sym.toNat ∉ table.map (·.1) := (List.nodup_cons.1 hnodup).1
      refine ⟨_, ?_, storeWrite_perm hfresh (codeRec path)⟩
      simp only [walk_succ, hkind, storeRead_eq_none hfresh]
    · have hsplit : ((treeCodes (.node l r (nodeAt s i).w) path).map tableEntry ++ table).Perm
          ((treeCodes r (path ++ [true])).map tableEntry ++
            ((treeCodes l (path ++ [false])).map tableEntry ++ table)) := by
        rw [treeCodes, List.map_append, ← List.append_assoc]
        exact List.perm_append_comm.append_right _
      have hnodup' := (hsplit.map (·.1)).nodup hnodup
      obtain ⟨table1, hw1, hp1⟩ := ih hl (hnodup'.sublist ((List.sublist_append_right _ _).map _))
      have hp2 := hp1.append_left ((treeCodes r (path ++ [true])).map tableEntry)
      obtain ⟨table2, hw2, hp⟩ := ih hr ((hp2.map (·.1)).nodup_iff.2 hnodup')
      exact ⟨table2, by simp only [walk_succ, hkind, hw1, hw2], hp.trans (hp2.trans hsplit.symm)⟩

/-! ## The table of a built tree -/

namespace StoreOk

variable {s : State} {n : Nat}

theorem node_eq (h : StoreOk s n) : s.node = (List.range (2 * n - 1)).map fun i => (i, nodeAt s i) := by
  rw [← h.indices, List.map_map]
  refine (List.map_id s.node).symm.trans (List.map_congr_left fun p hp => ?_)
  exact congrArg (Prod.mk p.1) (nodeAt_of_storeRead (storeRead_of_mem_indices h.indices hp)).symm

/-- No symbol labels two leaves of a built tree (R111, R124). -/
theorem treeLeaves_syms_nodup (h : StoreOk s n) : ((treeLeaves (treeAt s (2 * n - 2))).map (·.sym)).Nodup := by
  have hn := h.bounds
  have hrecords : (s.node.take n).map (·.2.sym) = ((List.range n).map (leafEntry s)).map (·.sym) := by
    rw [h.node_eq, ← List.map_take, List.take_range, Nat.min_eq_left (by omega), List.map_map, List.map_map]
    rfl
  have hperm := h.leavesBelow_root.map (·.sym)
  obtain ⟨-, -, -, -, -, -, -, -, -, hsyms⟩ := h
  exact hperm.nodup_iff.2 (hrecords ▸ hsyms)

theorem treeLeaves_length (h : StoreOk s n) : (treeLeaves (treeAt s (2 * n - 2))).length = n :=
  h.leavesBelow_root.length_eq.trans (by rw [List.length_map, List.length_range])

/-- The table of a built tree lists the codes of the abstract tree. -/
theorem deriveTable_perm (h : StoreOk s n) :
    ∃ table, deriveTable s = .ok table ∧ table.Perm ((treeCodes (treeAt s (2 * n - 2)) []).map tableEntry) := by
  have hn := h.bounds
  have habs := h.absAt_eq (i := 2 * n - 2) (fuel := Config.maxNodes) (by omega) (by simp only [Config.maxNodes]; omega)
  have hindices : List.map (·.1) ((treeCodes (treeAt s (2 * n - 2)) []).map tableEntry ++ []) =
      ((treeLeaves (treeAt s (2 * n - 2))).map (·.sym)).map BitVec.toNat := by
    rw [List.append_nil, ← treeCodes_syms _ [], List.map_map, List.map_map]
    rfl
  obtain ⟨table, hwalk, hperm⟩ := walk_of_absAt (path := []) (table := []) habs
    (hindices ▸ h.treeLeaves_syms_nodup.map fun _ _ => BitVec.eq_of_toNat_eq)
  rw [List.append_nil] at hperm
  exact ⟨table, by rw [deriveTable, if_neg h.root_ne, h.root_eq, hwalk], hperm⟩

end StoreOk

end Sys2Proof.Machine
end

section
/-! The code table deriver: `CD_DERIVE` on the empty tree and on a built one (R142 to R149), and `CD_LOOKUP` (R150). -/

namespace Sys2Proof.Machine

variable {s t : State}

/-! ## Reading a code -/

/-- In a canonical table the code of a symbol is that of the record listed for it. -/
theorem codeOf_eq_some_iff {bound : Nat} {m : List (Nat × CodeRec)} (h : storeWf bound m = true) {x : Nat}
    {c : List Bit} : codeOf m x = some c ↔ ∃ r, (x, r) ∈ m ∧ r.code = c := by
  rw [codeOf, Option.map_eq_some_iff]
  exact exists_congr fun r => and_congr_left fun _ => ⟨storeRead_mem, storeRead_of_mem h⟩

/-- In a canonical table that lists some codes, those are the codes of its symbols. -/
theorem codeOf_eq_some_iff_of_perm {bound : Nat} {m : List (Nat × CodeRec)} {codes : List (Sym × List Bit)}
    (hwf : storeWf bound m = true) (hperm : m.Perm (codes.map tableEntry)) {x : Nat} {c : List Bit} :
    codeOf m x = some c ↔ ∃ q ∈ codes, q.1.toNat = x ∧ q.2 = c := by
  rw [codeOf_eq_some_iff hwf]
  constructor
  · rintro ⟨r, hr, rfl⟩
    obtain ⟨q, hq, heq⟩ := List.mem_map.1 (hperm.mem_iff.1 hr)
    cases heq
    exact ⟨q, hq, rfl, rfl⟩
  · rintro ⟨q, hq, rfl, rfl⟩
    exact ⟨codeRec q.2, hperm.mem_iff.2 (List.mem_map_of_mem hq), rfl⟩

theorem prefixFree_nil : PrefixFree [] := fun _ _ _ _ hx => by cases hx

/-- Whether a table is free of prefixes depends on what it reads as only. -/
theorem PrefixFree.congr (h : PrefixFree s.ct) (htable : SameTable s t) : PrefixFree t.ct := by
  have hcode : ∀ x, codeOf t.ct x = codeOf s.ct x := fun x => by rw [codeOf, codeOf, htable]
  intro x y cx cy hx hy
  rw [hcode] at hx hy
  exact h x y cx cy hx hy

/-! ## `CD_DERIVE` -/

theorem exec_cdDerive (s : State) : exec .cdDerive s = execCdDerive s := rfl

theorem exec_cdDerive_of_deriveTable {table : List (Nat × CodeRec)} (hf : s.fault = false)
    (h : deriveTable s = .ok table) : exec .cdDerive s = .next (finish { s with ct := table }) := by
  rw [exec_cdDerive, execCdDerive, if_neg (by simp [hf]), h]

/-- A `CD_DERIVE` with a next state has written the table of the current tree. -/
theorem deriveTable_of_exec_cdDerive (h : exec .cdDerive s = .next t) :
    s.fault = false ∧ ∃ table, deriveTable s = .ok table ∧ t = finish { s with ct := table } := by
  rw [exec_cdDerive] at h
  rcases execCdDerive_cases s with ⟨-, he⟩ | ⟨hf, table, htable, he⟩ | ⟨-, -, he⟩ | ⟨-, -, he⟩ <;> rw [he] at h <;>
    cases h
  exact ⟨hf, table, htable, rfl⟩

theorem deriveTable_of_empty (h : s.root = Config.noneRef) : deriveTable s = .ok [] := by
  rw [deriveTable, if_pos h]

/-- The table depends on the root and the records only (R47). -/
theorem deriveTable_congr (hroot : t.root = s.root) (hnode : ∀ i, nodeAt t i = nodeAt s i) :
    deriveTable t = deriveTable s := by
  rw [deriveTable, deriveTable, hroot, walk_congr hnode]

/-- A safe state with a root holds a tree. -/
theorem Safe.storeOk (h : Safe s) (hroot : s.root ≠ Config.noneRef) : StoreOk s (leafCount s) := by
  rcases h.treeOk with ⟨-, hempty, -⟩ | hstore
  · exact absurd hempty hroot
  · exact hstore

/-- The table `CD_DERIVE` leaves on a built tree lists the codes of that tree, its leaves as many as `leafCount` says. -/
theorem ct_perm_of_exec_cdDerive (h : Safe s) (hroot : s.root ≠ Config.noneRef) (he : exec .cdDerive s = .next t) :
    t.ct.Perm ((treeCodes (treeAt s (2 * leafCount s - 2)) []).map tableEntry) := by
  obtain ⟨table, htable, hperm⟩ := (h.storeOk hroot).deriveTable_perm
  obtain ⟨-, table', htable', rfl⟩ := deriveTable_of_exec_cdDerive he
  cases htable.symm.trans htable'
  exact hperm

/-- Settles O32: the walk is not begun. -/
theorem cdDeriveOfEmptyTreeIsEmpty : Obligations.CdDeriveOfEmptyTreeIsEmpty :=
  fun _ hf hroot => exec_cdDerive_of_deriveTable hf (deriveTable_of_empty hroot)

/-- Settles O33: the derived table lists the codes of the abstract tree under their symbols. -/
theorem cdDeriveGivesThePathsOfTheTree : Obligations.CdDeriveGivesThePathsOfTheTree := by
  intro s h hroot
  have hstore := h.storeOk hroot
  obtain ⟨table, htable, hperm⟩ := hstore.deriveTable_perm
  obtain ⟨hwf, hcodes⟩ := deriveTable_ok h.treeOk htable
  refine ⟨_, _, _, hstore.absTree_eq, rfl, exec_cdDerive_of_deriveTable h.2 htable, ⟨rfl, rfl, h.2⟩,
    fun x code => (codeOf_eq_some_iff_of_perm hwf hperm).trans ?_,
    fun k r hr => ⟨storeRead_lt hwf hr, hcodes _ (storeRead_mem hr)⟩,
    ⟨fun _ => rfl, rfl, rfl, rfl, rfl⟩, ⟨rfl, rfl, rfl⟩, rfl, rfl, rfl, rfl⟩
  constructor
  · rintro ⟨q, hq, hsym, rfl⟩
    rwa [← BitVec.eq_of_toNat_eq hsym]
  · exact fun hq => ⟨_, hq, rfl, rfl⟩

/-- Settles O34: two codes of which one begins the other lead to one leaf. -/
theorem derivedCodesArePrefixFree : Obligations.DerivedCodesArePrefixFree := by
  intro s t h he
  by_cases hroot : s.root = Config.noneRef
  · obtain ⟨-, table, htable, rfl⟩ := deriveTable_of_exec_cdDerive he
    cases (deriveTable_of_empty hroot).symm.trans htable
    exact prefixFree_nil
  · have hperm := ct_perm_of_exec_cdDerive h hroot he
    obtain ⟨-, hwf, -⟩ := exec_keeps_inv h he
    intro x y cx cy hx hy hne hpre
    obtain ⟨a, ha, rfl, rfl⟩ := (codeOf_eq_some_iff_of_perm hwf hperm).1 hx
    obtain ⟨b, hb, rfl, rfl⟩ := (codeOf_eq_some_iff_of_perm hwf hperm).1 hy
    exact hne (congrArg (·.1.toNat) (eq_of_mem_treeCodes_of_prefix ha hb hpre))

/-- Settles O35: the codes of a tree with `n` leaves, the root among the Internal records. -/
theorem derivedCodeLengthsMeetKraft : Obligations.DerivedCodeLengthsMeetKraft := by
  intro s t h hroot he
  have hstore := h.storeOk hroot
  have hn := hstore.bounds
  have hlen := hstore.treeLeaves_length
  have hperm := ct_perm_of_exec_cdDerive h hroot he
  refine ⟨by rw [hperm.length_eq, List.length_map, treeCodes_length, hlen], fun p hp => ?_, ?_⟩
  · obtain ⟨q, hq, rfl⟩ := List.mem_map.1 (hperm.mem_iff.1 hp)
    have hmax := length_of_mem_treeCodes hq
    rw [hlen, List.length_nil, Nat.zero_add] at hmax
    refine ⟨?_, hmax⟩
    rw [hstore.treeAt_internal (by omega) (by omega)] at hq
    rcases List.mem_append.1 hq with hl | hr
    · exact (prefix_of_mem_treeCodes hl).length_le
    · exact (prefix_of_mem_treeCodes hr).length_le
  · rw [(hperm.map _).sum_eq, List.map_map]
    exact treeCodes_kraft (N := 255) (by rw [hlen, List.length_nil]; omega)

/-- Settles O36: the table is no input of the walk. -/
theorem cdDeriveRepeatedGivesTheSameTable : Obligations.CdDeriveRepeatedGivesTheSameTable := by
  intro s t he
  obtain ⟨hf, table, htable, rfl⟩ := deriveTable_of_exec_cdDerive he
  have hsame : deriveTable (finish { s with ct := table }) = deriveTable s := deriveTable_congr rfl fun _ => rfl
  exact exec_cdDerive_of_deriveTable hf (hsame.trans htable)

/-! ## `CD_LOOKUP` -/

/-- `CD_LOOKUP` of a symbol with an entry (R150). -/
theorem exec_cdLookup_hit {sym : Nat} {r : CodeRec} (hf : s.fault = false) (hr : storeRead s.ct sym = some r) :
    exec (.cdLookup sym) s = .next (finish { s with lookupOut := .ofRec true r }) := by
  rw [exec, execCdLookup, if_neg (by simp [hf]), hr]

/-- `CD_LOOKUP` of a symbol without an entry (R150). -/
theorem exec_cdLookup_miss {sym : Nat} (hf : s.fault = false) (hr : storeRead s.ct sym = none) :
    exec (.cdLookup sym) s =
      .next (finish { s with lookupOut := .ofRec false (Config.freeCode s.draws), draws := s.draws + 1 }) := by
  rw [exec, execCdLookup, if_neg (by simp [hf]), hr]

/-- Settles O37: the fault, a symbol with an entry, a symbol without. -/
theorem cdLookupReadsOneEntry : Obligations.CdLookupReadsOneEntry :=
  fun s _ => ⟨fun hfault => exec_in_fault hfault _, fun hf _ hr => exec_cdLookup_hit hf hr,
    fun hf hr => ⟨.ofRec false (Config.freeCode s.draws), s.draws + 1, rfl, exec_cdLookup_miss hf hr⟩⟩

end Sys2Proof.Machine
end

section
/-! Every step keeps the code table free of prefixes (R147): `CD_DERIVE` leaves such a table, every other operation the table
there was, and reset the empty one. -/

namespace Sys2Proof.Machine

variable {s t : State}

/-- Every operation but `CD_DERIVE` leaves the code table, unless it sets the fault (R47). -/
theorem sameTable_of_exec {i : Instr} (hf : s.fault = false) (he : exec i s = .next t) (hderive : i ≠ .cdDerive)
    (hft : t.fault = false) : SameTable s t := by
  by_cases hbuild : i = .tbBuild
  · subst hbuild
    obtain ⟨-, hframe⟩ := buildAndDeriveFrame s t
    exact (hframe he (hft.trans hf.symm)).1
  · obtain ⟨-, htable, -⟩ := readingAndPackingFrame i s t hbuild hderive he
    exact htable

theorem exec_keeps_prefixFree {i : Instr} (h : Safe s) (hpf : PrefixFree s.ct) (he : exec i s = .next t)
    (hft : t.fault = false) : PrefixFree t.ct := by
  by_cases hderive : i = .cdDerive
  · subst hderive
    exact derivedCodesArePrefixFree s t h he
  · exact hpf.congr (sameTable_of_exec h.2 he hderive hft)

theorem execIllegal_ct {cw : CmdWord} (he : execIllegal cw s = .next t) : t.ct = s.ct := by
  rw [execIllegal] at he
  split at he
  · cases he
  · rw [raise_reported _ _ (by simp)] at he
    cases he
    rfl

/-- A command keeps the table free of prefixes: its operands and the queue of requests do not touch it (R55). -/
theorem runCommand_keeps_prefixFree {c : Command} (h : Safe s) (hpf : PrefixFree s.ct) (he : runCommand c s = .next t)
    (hft : t.fault = false) : PrefixFree t.ct := by
  have hpresent : Safe (present s c.operands) := h
  rcases runCommand_cases c s with ⟨i, -, hx⟩ | ⟨e, -, hx⟩ <;> rw [hx] at he
  · exact exec_keeps_prefixFree hpresent hpf he hft
  · rw [execIllegal_ct he]
    exact hpf

/-- Settles O60: a step is an idle one, a command outside the fault, or a reset, which empties the table. -/
theorem everyStepKeepsTheTablePrefixFree : Obligations.EveryStepKeepsTheTablePrefixFree := by
  refine ⟨fun s t hinv hpf h hft => ?_, prefixFree_nil⟩
  rcases step_cases s with ⟨hf, -, hx⟩ | ⟨hf, c, rest, -, hx⟩ | ⟨cs, r, rest, -, -, -, hx⟩ | ⟨-, -, hx⟩ <;>
    rw [hx] at h
  · cases h; exact hpf hf
  · exact runCommand_keeps_prefixFree (s := popRequest s rest) ⟨hinv, hf⟩ (hpf hf) h hft
  · cases h; exact prefixFree_nil
  · cases h

end Sys2Proof.Machine
end

section
/-! The outcomes of `BP_PACK` one by one (R162 to R170), and that the packed bytes tell the string (R172): the unpacker's
reading of them gives it back. -/

namespace Sys2Proof.Machine

variable {s t : State}

/-! ## Outcomes of a served request -/

/-- Without fault and within the capacity the characters decide first, then the sink (R169, R170). -/
theorem exec_bpPack_cases (hf : s.fault = false) (hcap : WithinCap s s.ports.charIn.length) :
    (∃ k, firstBadChar s.ports.charIn = some k ∧
      exec .bpPack s = .next { s with byteOut := [], status := .invalidBitstring, errInfo := k }) ∨
    (BitChars s.ports.charIn ∧ s.ports.sinkOk = false ∧
      exec .bpPack s = .next { s with byteOut := [], status := .ioFailure, errInfo := 0 }) ∨
    (BitChars s.ports.charIn ∧ s.ports.sinkOk = true ∧
      exec .bpPack s = .next { s with
        byteOut := tobytes (frame (payload s.ports.charIn)), status := .ok, errInfo := 0 }) := by
  rw [exec_bpPack]
  rcases execBpPack_cases s with ⟨hfault, -⟩ | ⟨-, hover, -⟩ | ⟨-, -, hbad⟩ | ⟨-, -, hsink⟩ | ⟨-, -, hok⟩
  · rw [hf] at hfault; cases hfault
  · exact absurd hcap hover
  · exact .inl hbad
  · exact .inr (.inl hsink)
  · exact .inr (.inr hok)

theorem exec_bpPack_of_firstBadChar {k : Nat} (hf : s.fault = false) (hcap : WithinCap s s.ports.charIn.length)
    (hbad : firstBadChar s.ports.charIn = some k) :
    exec .bpPack s = .next { s with byteOut := [], status := .invalidBitstring, errInfo := k } := by
  have hnot : ¬ BitChars s.ports.charIn := by rw [← firstBadChar_eq_none, hbad]; simp
  rcases exec_bpPack_cases hf hcap with ⟨k', hk', he⟩ | ⟨hchars, -⟩ | ⟨hchars, -⟩
  · rw [he, Option.some.inj (hk'.symm.trans hbad)]
  · exact absurd hchars hnot
  · exact absurd hchars hnot

theorem exec_bpPack_of_bitChars (hf : s.fault = false) (hcap : WithinCap s s.ports.charIn.length)
    (hchars : BitChars s.ports.charIn) :
    exec .bpPack s = .next (if s.ports.sinkOk then
      { s with byteOut := tobytes (frame (payload s.ports.charIn)), status := .ok, errInfo := 0 }
      else { s with byteOut := [], status := .ioFailure, errInfo := 0 }) := by
  rcases exec_bpPack_cases hf hcap with ⟨k, hk, -⟩ | ⟨-, hsink, he⟩ | ⟨-, hsink, he⟩
  · rw [firstBadChar_eq_none.2 hchars] at hk; cases hk
  · simp [he, hsink]
  · simp [he, hsink]

/-- A character that is no bit character, with only bit characters before it, is the first bad one (R163). -/
theorem firstBadChar_eq_some_of_getElem {cs : List Byte} {k : Nat} (hk : k < cs.length)
    (hbad : ¬ isBitChar cs[k] = true) (hbefore : ∀ j (hj : j < k), isBitChar cs[j] = true) :
    firstBadChar cs = some k :=
  List.findIdx?_eq_some_iff_getElem.2 ⟨hk, by simpa using hbad, fun j hj => by simpa using hbefore j hj⟩

/-- Settles O40: the character at `k` is the first bad one. -/
theorem bpPackReportsTheFirstBadCharacter : Obligations.BpPackReportsTheFirstBadCharacter := by
  intro s k hk hf hcap ⟨hne0, hne1⟩ hbefore
  refine exec_bpPack_of_firstBadChar hf hcap (firstBadChar_eq_some_of_getElem hk (fun hbit => ?_) fun j hj => ?_)
  · rcases (isBitChar_iff _).1 hbit with h0 | h1
    · exact hne0 h0
    · exact hne1 h1
  · exact (isBitChar_iff _).2 (hbefore j hj)

/-- Settles O41: the characters are valid, so the sink decides. -/
theorem bpPackReportsSinkFailure : Obligations.BpPackReportsSinkFailure := by
  intro s hf hcap hchars hsink
  simp [exec_bpPack_of_bitChars hf hcap hchars, hsink]

/-- Settles O38: the characters and the sink are good, and the frame of R75 is written out. -/
theorem bpPackWritesTheFrame : Obligations.BpPackWritesTheFrame := by
  intro s hf hchars hsink hcap
  simp [exec_bpPack_of_bitChars hf hcap hchars, hsink, frame, padding, payload]

/-- In the fault an illegal word is not reported (R241, U14). -/
theorem execIllegal_in_fault (hfault : s.fault = true) (cw : CmdWord) : execIllegal cw s = .fault .blockFaulted := by
  rw [execIllegal, if_pos hfault]

/-- Settles O12: the fault stops operation and word alike; a string that is not valid has a first bad character. -/
theorem firstCauseIsTheOneReported : Obligations.FirstCauseIsTheOneReported := by
  refine ⟨fun s i hfault => exec_in_fault hfault i, fun s cw hfault => execIllegal_in_fault hfault cw, ?_, ?_⟩
  · intro s hf hcap hnot
    obtain ⟨k, hk⟩ := Option.ne_none_iff_exists'.1 (mt firstBadChar_eq_none.1 hnot)
    exact ⟨_, exec_bpPack_of_firstBadChar hf hcap hk, rfl⟩
  · intro s hf hcap hchars hsink
    exact ⟨_, bpPackReportsSinkFailure s hf hcap hchars hsink, rfl⟩

/-! ## Reading a frame back -/

/-- The unpacker's reading of a frame drops the header and no more (R76, R184). -/
theorem unframe_frame (p : List Bit) : unframe (frame p) = p := by
  have hone : ((frame p).take 8).findIdx? id = some (padding p.length - 1) := by
    rw [take_frame, List.findIdx?_append, List.findIdx?_replicate]
    simp [List.findIdx?_cons]
  simp only [unframe, hone]
  exact List.drop_left' (by simp)

theorem charOf_bitOf {c : Byte} (hc : c = charZero ∨ c = charOne) : charOf (bitOf c) = c := by
  rcases hc with rfl | rfl <;> decide

/-- The payload of a valid bitstring tells its characters (R80). -/
theorem map_charOf_payload {cs : List Byte} (hchars : BitChars cs) : (payload cs).map charOf = cs := by
  rw [payload, List.map_map]
  exact (List.map_congr_left fun c hc => charOf_bitOf (hchars c hc)).trans (List.map_id cs)

theorem bitChars_of_bpPack_ok (h : exec .bpPack s = .next t) (hok : t.status = .ok) : BitChars s.ports.charIn := by
  rw [exec_bpPack] at h
  rcases execBpPack_cases s with ⟨-, he⟩ | ⟨-, -, he⟩ | ⟨-, -, k, -, he⟩ | ⟨-, -, hchars, -⟩ | ⟨-, -, hchars, -⟩
  · rw [he] at h; cases h
  · rw [he] at h; cases h
  · rw [he] at h; cases h; cases hok
  · exact hchars
  · exact hchars

/-- The string is a function of the bytes of a `BP_PACK` that ends with `OK` (R172, R188). -/
theorem charIn_of_bpPack_ok (h : exec .bpPack s = .next t) (hok : t.status = .ok) :
    s.ports.charIn = (unframe (unbits t.byteOut)).map charOf := by
  rw [byteOut_of_bpPack_ok h hok, unbits_tobytes (frame_payload_length _), unframe_frame,
    map_charOf_payload (bitChars_of_bpPack_ok h hok)]

/-- Settles O44: both strings are read off the same bytes. -/
theorem bpPackIsInjective : Obligations.BpPackIsInjective := by
  intro s s' t t' _ _ h h' hok hok' hbytes
  rw [charIn_of_bpPack_ok h hok, charIn_of_bpPack_ok h' hok', hbytes]

end Sys2Proof.Machine
end

section
/-! The bit unpacker (R180 to R191): the outcomes of `BU_UNPACK`, the header scan as reading a frame, and the two round
trips with `BP_PACK`. -/

namespace Sys2Proof.Machine

variable {s t : State}

/-! ## Outcomes -/

theorem exec_buUnpack_of_source_failure (hf : s.fault = false) (hsrc : s.ports.srcOk = false) :
    exec .buUnpack s = .next { s with charOut := [], status := .ioFailure, errInfo := 0 } := by
  rw [exec_buUnpack]
  rcases execBuUnpack_cases s with ⟨hfault, -⟩ | ⟨-, -, he⟩ | ⟨-, hgood, -⟩ | ⟨-, hgood, -⟩
  · rw [hf] at hfault; cases hfault
  · exact he
  · rw [hsrc] at hgood; cases hgood
  · rw [hsrc] at hgood; cases hgood

theorem exec_buUnpack_of_withinCap (hf : s.fault = false) (hsrc : s.ports.srcOk = true)
    (hcap : WithinCap s (8 * s.ports.byteIn.length)) :
    exec .buUnpack s =
      .next { s with charOut := (unframe (unbits s.ports.byteIn)).map charOf, status := .ok, errInfo := 0 } := by
  rw [exec_buUnpack]
  rcases execBuUnpack_cases s with ⟨hfault, -⟩ | ⟨-, hbad, -⟩ | ⟨-, -, hover, -⟩ | ⟨-, -, -, he⟩
  · rw [hf] at hfault; cases hfault
  · rw [hsrc] at hbad; cases hbad
  · exact absurd hcap hover
  · exact he

/-- Every next state of `BU_UNPACK` holds the characters of bits: the payload's, or none when the source failed (R187). -/
theorem charOut_of_buUnpack (h : exec .buUnpack s = .next t) :
    t.charOut = (if s.ports.srcOk then unframe (unbits s.ports.byteIn) else []).map charOf := by
  rw [exec_buUnpack] at h
  rcases execBuUnpack_cases s with ⟨-, he⟩ | ⟨-, hsrc, he⟩ | ⟨-, -, -, he⟩ | ⟨-, hsrc, -, he⟩ <;> rw [he] at h <;> cases h
  · rw [hsrc]; rfl
  · rw [hsrc]; rfl

theorem bitChars_map_charOf (x : List Bit) : BitChars (x.map charOf) := by
  intro c hc
  obtain ⟨b, -, rfl⟩ := List.mem_map.1 hc
  exact (isBitChar_iff _).1 (isBitChar_charOf b)

/-- Characters made of bits give those bits back (R80). -/
theorem payload_map_charOf (x : List Bit) : payload (x.map charOf) = x := by
  simp [payload, Function.comp_def]

/-- Bytes cut from the bits of bytes are those bytes (R59). -/
theorem tobytes_unbits (bs : List Byte) : tobytes (unbits bs) = bs := by
  induction bs with
  | nil => rfl
  | cons b bs ih => rw [unbits_cons, tobytes_append (bits8_length b), byte8_bits8, ih]

/-! ## The header scan -/

/-- A bit sequence falls apart at its first 1. -/
theorem eq_replicate_append_of_first_one {x : List Bit} {p : Nat} (hone : x.getD p false = true)
    (hzero : ∀ q < p, x.getD q false = false) : x = List.replicate p false ++ true :: x.drop (p + 1) := by
  have hp : p < x.length := by
    by_contra hge
    rw [List.getD_eq_default _ _ (Nat.le_of_not_lt hge)] at hone
    cases hone
  have htake : x.take p = List.replicate p false := by
    refine List.ext_getElem (by simp [hp.le]) fun q hq _ => ?_
    rw [List.length_take_of_le hp.le] at hq
    rw [List.getElem_take, List.getElem_replicate, ← List.getD_eq_getElem x false (hq.trans hp), hzero q hq]
  rw [List.getD_eq_getElem _ _ hp] at hone
  conv_lhs => rw [← List.take_append_drop p x, htake, List.drop_eq_getElem_cons hp, hone]

/-- Up to seven zeros, a one and a payload are the payload's frame when they fill whole bytes (R75, R76). -/
theorem frame_eq_of_whole_bytes {n p : Nat} {x : List Bit} (hp : p < 8) (hlen : p + 1 + x.length = 8 * n) :
    frame x = List.replicate p false ++ true :: x := by
  have hpad : padding x.length - 1 = p := by unfold padding; omega
  rw [frame, hpad, List.append_assoc, List.singleton_append]

/-- Bytes whose first 1 is in byte 0 are the frame of the bits after it (R183). -/
theorem frame_drop_header {b : Byte} {bs : List Byte} {p : Nat} (hp : p < 8) (hone : b.getLsbD (7 - p) = true)
    (hzero : ∀ q < p, b.getLsbD (7 - q) = false) :
    frame ((unbits (b :: bs)).drop (p + 1)) = unbits (b :: bs) := by
  have hbit : ∀ q < 8, (unbits (b :: bs)).getD q false = b.getLsbD (7 - q) := fun q hq => by
    rw [getD_unbits, Nat.div_eq_of_lt hq, Nat.mod_eq_of_lt hq, List.getD_cons_zero]
  have hlen : p + 1 + ((unbits (b :: bs)).drop (p + 1)).length = 8 * (b :: bs).length := by
    rw [List.length_drop, unbits_length, List.length_cons]
    omega
  rw [frame_eq_of_whole_bytes hp hlen]
  exact (eq_replicate_append_of_first_one ((hbit p hp).trans hone)
    fun q hq => (hbit q (hq.trans hp)).trans (hzero q hq)).symm

theorem unframe_of_header {b : Byte} {bs : List Byte} {p : Nat} (hp : p < 8) (hone : b.getLsbD (7 - p) = true)
    (hzero : ∀ q < p, b.getLsbD (7 - q) = false) :
    unframe (unbits (b :: bs)) = (unbits (b :: bs)).drop (p + 1) := by
  conv_lhs => rw [← frame_drop_header hp hone hzero, unframe_frame]

/-- A byte that is not 0x00 has a first 1 (R183). -/
theorem exists_header_of_ne_zero {b : Byte} (hb : b ≠ 0x00#8) :
    ∃ p < 8, b.getLsbD (7 - p) = true ∧ ∀ q < p, b.getLsbD (7 - q) = false := by
  have hex : ∃ p, p < 8 ∧ b.getLsbD (7 - p) = true := by
    by_contra hnone
    refine hb (BitVec.eq_of_getLsbD_eq fun i hi => ?_)
    have hbit : ¬ b.getLsbD (7 - (7 - i)) = true := fun hone => hnone ⟨7 - i, by omega, hone⟩
    rw [Nat.sub_sub_self (Nat.le_of_lt_succ hi), Bool.not_eq_true] at hbit
    rw [hbit, BitVec.getLsbD_zero]
  obtain ⟨hp, hone⟩ := Nat.find_spec hex
  exact ⟨Nat.find hex, hp, hone, fun q hq =>
    Bool.eq_false_iff.2 fun hq1 => Nat.find_min hex hq ⟨hq.trans hp, hq1⟩⟩

/-- The bits of bytes with a header are the frame of what the unpacker reads in them (R189). -/
theorem frame_unframe_of_ne_zero {b : Byte} (hb : b ≠ 0x00#8) (bs : List Byte) :
    frame (unframe (unbits (b :: bs))) = unbits (b :: bs) := by
  obtain ⟨p, hp, hone, hzero⟩ := exists_header_of_ne_zero hb
  rw [unframe_of_header hp hone hzero, frame_drop_header hp hone hzero]

/-! ## The statements -/

/-- Settles O45: the bytes are the frame of the bits after the first 1, and the unpacker reads a frame's payload. -/
theorem buUnpackReturnsWhatFollowsTheHeader : Obligations.BuUnpackReturnsWhatFollowsTheHeader := by
  intro s b bs p hf hsrc hcap hbytes hp hone hzero
  constructor
  · rw [exec_buUnpack_of_withinCap hf hsrc hcap, hbytes, unframe_of_header hp hone hzero]
  · rw [List.length_map, List.length_drop, unbits_length, hbytes, Nat.sub_sub]

/-- Settles O46: the scan of eight zeros, and of no bits, finds no 1 and drops the first eight bits. -/
theorem buUnpackDropsAMalformedHeader : Obligations.BuUnpackDropsAMalformedHeader := by
  intro s hf hsrc hcap
  refine ⟨fun bs hbytes => ?_, fun hbytes => ?_⟩
  · have hdrop : unframe (unbits (0x00#8 :: bs)) = unbits bs := rfl
    rw [exec_buUnpack_of_withinCap hf hsrc hcap, hbytes, hdrop]
  · have hempty : unframe (unbits []) = [] := rfl
    rw [exec_buUnpack_of_withinCap hf hsrc hcap, hbytes, hempty, List.map_nil]

/-- Settles O47: the source is looked at before the capacity and the bytes. -/
theorem buUnpackReportsSourceFailure : Obligations.BuUnpackReportsSourceFailure :=
  fun _ hf hsrc => exec_buUnpack_of_source_failure hf hsrc

/-- Settles O48: the string is what the unpacker reads in the packed bytes. -/
theorem unpackOfPackGivesTheString : Obligations.UnpackOfPackGivesTheString := by
  intro s t u _ hpack hok hf hsrc hbytes hcap
  rw [exec_buUnpack_of_withinCap hf hsrc (hbytes ▸ hcap), hbytes, charIn_of_bpPack_ok hpack hok]

/-- Settles O49: packing always writes a header, and bytes with a header are the frame of what was read in them. -/
theorem packOfUnpackGivesTheBytesExactlyWithHeader : Obligations.PackOfUnpackGivesTheBytesExactlyWithHeader := by
  intro s t u v _ hsrc hunpack hf hsink hchars hpack
  have hread : u.ports.charIn = (unframe (unbits s.ports.byteIn)).map charOf := by
    rw [hchars, charOut_of_buUnpack hunpack, if_pos hsrc]
  have hok : v.status = .ok := status_of_bpPack (hread ▸ bitChars_map_charOf _) hsink hpack
  constructor
  · intro heq
    obtain ⟨b, bs, hout, hge, -⟩ := firstPackedByteLiesInItsRange u v hf hpack hok
    refine ⟨b, bs, heq.symm.trans hout, ?_⟩
    rintro rfl
    exact absurd hge (Nat.not_le_of_gt (Nat.two_pow_pos _))
  · rintro ⟨b, bs, hbytes, hb⟩
    rw [byteOut_of_bpPack_ok hpack hok, hread, payload_map_charOf, hbytes, frame_unframe_of_ne_zero hb, tobytes_unbits]

/-- Settles O50: every result is the characters of some bits. -/
theorem buUnpackGivesBitCharactersOnly : Obligations.BuUnpackGivesBitCharactersOnly := by
  intro s t _ h
  rw [charOut_of_buUnpack h]
  exact bitChars_map_charOf _

end Sys2Proof.Machine
end

section
/-! The host's frequency table (R200 to R206): the symbols that occur, the sort of R203 and the entry list of a text. -/

namespace Sys2Proof.Machine

variable {A : WeightArith} {text : List Sym} {q : Nat → Weight} {es : List Entry}

/-! ## The symbols that occur -/

theorem mem_occurring_iff {k : Nat} : k ∈ occurring text ↔ k < 256 ∧ BitVec.ofNat 8 k ∈ text := by
  simp [occurring, countOf, Config.maxLeaves, List.count_eq_zero]

theorem toNat_mem_occurring_iff {x : Sym} : x.toNat ∈ occurring text ↔ x ∈ text := by
  rw [mem_occurring_iff, BitVec.ofNat_toNat, BitVec.setWidth_eq]
  exact and_iff_right x.isLt

theorem occurring_nodup (text : List Sym) : (occurring text).Nodup := List.nodup_range.filter _

theorem occurring_ne_nil (htext : text ≠ []) : occurring text ≠ [] := by
  obtain ⟨x, hx⟩ := List.exists_mem_of_ne_nil text htext
  exact List.ne_nil_of_mem (toNat_mem_occurring_iff.2 hx)

theorem occurring_nil : occurring [] = [] :=
  List.eq_nil_iff_forall_not_mem.2 fun _ hk => absurd (mem_occurring_iff.1 hk).2 List.not_mem_nil

/-- A text has one distinct symbol exactly when one symbol value occurs. -/
theorem occurring_eq_singleton_iff {x : Sym} : occurring text = [x.toNat] ↔ text ≠ [] ∧ ∀ y ∈ text, y = x := by
  constructor
  · intro h
    have hx : x ∈ text := by simp [← toNat_mem_occurring_iff, h]
    refine ⟨List.ne_nil_of_mem hx, fun y hy => BitVec.eq_of_toNat_eq ?_⟩
    simpa [h] using toNat_mem_occurring_iff.2 hy
  · rintro ⟨hne, hall⟩
    obtain ⟨y, hy⟩ := List.exists_mem_of_ne_nil text hne
    refine List.perm_singleton.1 ((List.perm_ext_iff_of_nodup (occurring_nodup text) (List.nodup_singleton _)).2
      fun k => ?_)
    rw [List.mem_singleton]
    constructor
    · intro hk
      obtain ⟨hlt, hmem⟩ := mem_occurring_iff.1 hk
      rw [← hall _ hmem, BitVec.toNat_ofNat, Nat.mod_eq_of_lt hlt]
    · rintro rfl
      exact toNat_mem_occurring_iff.2 (hall y hy ▸ hy)

theorem exists_occurring_eq_singleton {k : Nat} (h : occurring text = [k]) : ∃ x : Sym, k = x.toNat := by
  have hk : k ∈ occurring text := by simp [h]
  exact ⟨BitVec.ofNat 8 k, (Nat.mod_eq_of_lt (mem_occurring_iff.1 hk).1).symm⟩

/-! ## The sort of R203 -/

theorem insertEntry_perm (e : Entry) (es : List Entry) : (insertEntry A e es).Perm (e :: es) := by
  induction es with
  | nil => exact .refl _
  | cons a es ih =>
    rw [insertEntry]
    split
    · exact .refl _
    · exact (ih.cons a).trans (.swap _ _ _)

theorem sortEntries_perm (es : List Entry) : (sortEntries A es).Perm es := by
  induction es with
  | nil => exact .refl _
  | cons e es ih => exact (insertEntry_perm e _).trans (ih.cons e)

/-- The order of R203 is transitive on entries with weights in `W`. -/
theorem entryBefore_trans {a b c : Entry} (ha : hasWeight A a.w = true) (hb : hasWeight A b.w = true)
    (hc : hasWeight A c.w = true) (hab : entryBefore A a b = true) (hbc : entryBefore A b c = true) :
    entryBefore A a c = true := by
  have trans := (lawfulArith A).transitive
  rw [entryBefore_iff] at *
  obtain ⟨hle, hsym⟩ := hab
  obtain ⟨hle', hsym'⟩ := hbc
  refine ⟨trans _ _ _ ha hb hc hle hle', fun hca => ?_⟩
  exact (hsym (trans _ _ _ hb hc ha hle' hca)).trans (hsym' (trans _ _ _ hc ha hb hca hle))

/-- Of two entries with different symbols one stands before the other. -/
theorem entryBefore_total {a b : Entry} (ha : hasWeight A a.w = true) (hb : hasWeight A b.w = true)
    (hne : a.sym ≠ b.sym) (hnot : ¬ entryBefore A a b = true) : entryBefore A b a = true := by
  rw [entryBefore_iff] at *
  have hne : a.sym.toNat ≠ b.sym.toNat := fun h => hne (BitVec.eq_of_toNat_eq h)
  by_cases hle : wLe A a.w b.w = true
  · by_cases hba : wLe A b.w a.w = true
    · have hge : ¬ a.sym.toNat < b.sym.toNat := fun hlt => hnot ⟨hle, fun _ => hlt⟩
      exact ⟨hba, fun _ => by omega⟩
    · exact absurd ⟨hle, fun h => absurd h hba⟩ hnot
  · exact ⟨((lawfulArith A).total _ _ ha hb).resolve_left hle, fun h => absurd h hle⟩

theorem insertEntry_sorted {e : Entry} (hw : ∀ a ∈ e :: es, hasWeight A a.w = true)
    (hsyms : ((e :: es).map (·.sym)).Nodup) (hsorted : es.Pairwise fun a b => entryBefore A a b = true) :
    (insertEntry A e es).Pairwise fun a b => entryBefore A a b = true := by
  induction es with
  | nil => exact List.pairwise_singleton _ _
  | cons a es ih =>
    obtain ⟨hfirst, hrest⟩ := List.pairwise_cons.1 hsorted
    have he := hw e (by simp)
    have ha := hw a (by simp)
    rw [insertEntry]
    split
    next hbefore =>
      refine List.pairwise_cons.2 ⟨fun b hb => ?_, hsorted⟩
      rcases List.mem_cons.1 hb with rfl | hb
      · exact hbefore
      · exact entryBefore_trans he ha (hw b (by simp [hb])) hbefore (hfirst b hb)
    next hnot =>
      simp only [List.map_cons, List.nodup_cons, List.mem_cons, not_or] at hsyms
      obtain ⟨⟨hne, hnotin⟩, -, hnodup⟩ := hsyms
      refine List.pairwise_cons.2 ⟨fun b hb => ?_, ih (fun b hb => hw b ?_) ?_ hrest⟩
      · rcases List.mem_cons.1 ((insertEntry_perm e es).mem_iff.1 hb) with rfl | hb
        · exact entryBefore_total he ha hne hnot
        · exact hfirst b hb
      · rcases List.mem_cons.1 hb with rfl | hb <;> simp [*]
      · exact List.nodup_cons.2 ⟨hnotin, hnodup⟩

theorem sortEntries_sorted (hw : ∀ e ∈ es, hasWeight A e.w = true) (hsyms : (es.map (·.sym)).Nodup) :
    (sortEntries A es).Pairwise fun a b => entryBefore A a b = true := by
  induction es with
  | nil => exact .nil
  | cons e es ih =>
    have hperm := (sortEntries_perm (A := A) es).cons e
    exact insertEntry_sorted (fun a ha => hw a (hperm.mem_iff.1 ha)) ((hperm.map _).nodup_iff.2 hsyms)
      (ih (fun a ha => hw a (List.mem_cons_of_mem _ ha)) (List.nodup_cons.1 hsyms).2)

/-! ## The entry list of a text -/

/-- The entry of a symbol that occurs, under the symbol itself (R202). -/
theorem realEntry_toNat (x : Sym) : realEntry q text x.toNat = { sym := x, w := q (text.count x) } := by
  simp [realEntry, countOf]

theorem mem_map_realEntry_iff {e : Entry} :
    e ∈ (occurring text).map (realEntry q text) ↔ e.sym ∈ text ∧ e.w = q (text.count e.sym) := by
  rw [List.mem_map]
  constructor
  · rintro ⟨k, hk, rfl⟩
    exact ⟨(mem_occurring_iff.1 hk).2, rfl⟩
  · rintro ⟨hsym, hw⟩
    exact ⟨e.sym.toNat, toNat_mem_occurring_iff.2 hsym, by rw [realEntry_toNat, ← hw]⟩

theorem map_realEntry_syms_nodup : (((occurring text).map (realEntry q text)).map (·.sym)).Nodup := by
  rw [List.map_map]
  refine (List.nodup_map_iff_inj_on (occurring_nodup text)).2 fun j hj k hk heq => ?_
  have hlt := (mem_occurring_iff.1 hj).1
  have hlt' := (mem_occurring_iff.1 hk).1
  simpa [realEntry, Nat.mod_eq_of_lt hlt, Nat.mod_eq_of_lt hlt'] using congrArg BitVec.toNat heq

/-- The synthetic entry's symbol is the next one, 255 followed by 0 (R204). -/
theorem syntheticEntry_toNat (x : Sym) : syntheticEntry q x.toNat = { sym := x + 1#8, w := q 0 } := by
  have hsym : BitVec.ofNat 8 ((x.toNat + 1) % 256) = x + 1#8 := by
    apply BitVec.eq_of_toNat_eq
    simp
  rw [syntheticEntry, hsym]

theorem count_of_single {x : Sym} (hall : ∀ y ∈ text, y = x) : text.count x = text.length :=
  List.count_eq_length.2 fun y hy => (hall y hy).symm

theorem freq_of_single {x : Sym} (hq : wRatio A text.length = some q) (hne : text ≠ []) (hall : ∀ y ∈ text, y = x) :
    freq A text = some [{ sym := x + 1#8, w := q 0 }, { sym := x, w := q text.length }] := by
  simp only [freq, hq, occurring_eq_singleton_iff.2 ⟨hne, hall⟩]
  rw [syntheticEntry_toNat, realEntry_toNat, count_of_single hall]

/-- The two forms of the entry list of a text that is not empty (R203, R204). -/
theorem freq_cases (hq : wRatio A text.length = some q) (hne : text ≠ []) :
    (∃ x, (∀ y ∈ text, y = x) ∧
      freq A text = some [{ sym := x + 1#8, w := q 0 }, { sym := x, w := q text.length }]) ∨
    (2 ≤ (occurring text).length ∧
      freq A text = some (sortEntries A ((occurring text).map (realEntry q text)))) := by
  match hocc : occurring text with
  | [] => exact absurd hocc (occurring_ne_nil hne)
  | [k] =>
    obtain ⟨x, rfl⟩ := exists_occurring_eq_singleton hocc
    obtain ⟨-, hall⟩ := occurring_eq_singleton_iff.1 hocc
    exact .inl ⟨x, hall, freq_of_single hq hne hall⟩
  | j :: k :: ks => exact .inr ⟨by simp, by simp only [freq, hq, hocc]⟩

/-- `FREQ` has a result only for a text that is not empty and where the host has a quotient (R205, log entry 21). -/
theorem ne_nil_and_wRatio_of_freq (h : freq A text = some es) : text ≠ [] ∧ ∃ q, wRatio A text.length = some q := by
  cases hq : wRatio A text.length with
  | none => simp [freq, hq] at h
  | some q =>
    refine ⟨?_, q, rfl⟩
    rintro rfl
    simp only [freq, hq, occurring_nil] at h
    cases h

/-- What `FREQ` gives under the quotient `q`: at least two entries of different symbols in the order of R203, one for
every symbol that occurs, and any other the synthetic one (R204). -/
structure FreqList (A : WeightArith) (text : List Sym) (q : Nat → Weight) (es : List Entry) : Prop where
  long : 2 ≤ es.length
  syms : (es.map (·.sym)).Nodup
  sorted : es.Pairwise fun a b => entryBefore A a b = true
  real : ∀ x ∈ text, ({ sym := x, w := q (text.count x) } : Entry) ∈ es
  entry : ∀ e ∈ es, (e.sym ∈ text ∧ e.w = q (text.count e.sym)) ∨
    (e.w = q 0 ∧ e.sym ∉ text ∧ ∃ x, (∀ y ∈ text, y = x) ∧ e.sym = x + 1#8)

/-- The quotients of no occurrence and of all of the text are told apart: they are 0 and 1 (R202, R204). -/
theorem wLe_whole_nothing {total : Nat} (ht : total ≠ 0) (hq : wRatio A total = some q) :
    wLe A (q total) (q 0) = false := by
  obtain ⟨val, order, laws, -⟩ := wRatio_meetsR202 ht hq
  obtain ⟨-, hle⟩ := order _ _ (laws.inW total le_rfl) (laws.inW 0 (Nat.zero_le _))
  rw [Bool.eq_false_iff, Ne, hle, laws.nothing, laws.whole, not_le]
  exact zero_lt_one

theorem hasWeight_quot {total c : Nat} (ht : total ≠ 0) (hq : wRatio A total = some q) (hc : c ≤ total) :
    hasWeight A (q c) = true := by
  obtain ⟨val, -, laws, -⟩ := wRatio_meetsR202 ht hq
  exact laws.inW c hc

theorem wLe_quot {total c c' : Nat} (ht : total ≠ 0) (hq : wRatio A total = some q) (hcc : c ≤ c') (hc : c' ≤ total) :
    wLe A (q c) (q c') = true := by
  obtain ⟨val, -, laws, -⟩ := wRatio_meetsR202 ht hq
  exact laws.monotone c c' hcc hc

/-- Weighing nothing, the synthetic entry stands before the one symbol's (R204). -/
theorem freqList_of_single {x : Sym} (hq : wRatio A text.length = some q) (hne : text ≠ []) (hall : ∀ y ∈ text, y = x) :
    FreqList A text q [{ sym := x + 1#8, w := q 0 }, { sym := x, w := q text.length }] := by
  have ht : text.length ≠ 0 := List.length_eq_zero_iff.not.2 hne
  have hsym : x + 1#8 ≠ x := by bv_omega
  obtain ⟨y, hy⟩ := List.exists_mem_of_ne_nil text hne
  have hx : x ∈ text := hall y hy ▸ hy
  refine ⟨le_rfl, by simp [hsym], List.pairwise_pair.2 ?_, fun z hz => ?_, fun e he => ?_⟩
  · refine (entryBefore_iff A _ _).2 ⟨wLe_quot ht hq (Nat.zero_le _) le_rfl, fun hle => ?_⟩
    exact absurd hle (Bool.eq_false_iff.1 (wLe_whole_nothing ht hq))
  · rw [hall z hz, count_of_single hall]
    simp
  · rcases List.mem_pair.1 he with rfl | rfl
    · exact .inr ⟨rfl, fun hmem => hsym (hall _ hmem), x, hall, rfl⟩
    · exact .inl ⟨hx, by rw [count_of_single hall]⟩

theorem freqList_of_many (hq : wRatio A text.length = some q) (hne : text ≠ []) (hmany : 2 ≤ (occurring text).length) :
    FreqList A text q (sortEntries A ((occurring text).map (realEntry q text))) := by
  have ht : text.length ≠ 0 := List.length_eq_zero_iff.not.2 hne
  have hperm := sortEntries_perm (A := A) ((occurring text).map (realEntry q text))
  have hw : ∀ e ∈ (occurring text).map (realEntry q text), hasWeight A e.w = true := fun e he => by
    rw [(mem_map_realEntry_iff.1 he).2]
    exact hasWeight_quot ht hq List.count_le_length
  refine ⟨?_, (hperm.map _).nodup_iff.2 map_realEntry_syms_nodup, sortEntries_sorted hw map_realEntry_syms_nodup,
    fun x hx => hperm.mem_iff.2 (mem_map_realEntry_iff.2 ⟨hx, rfl⟩),
    fun e he => .inl (mem_map_realEntry_iff.1 (hperm.mem_iff.1 he))⟩
  rw [hperm.length_eq, List.length_map]
  exact hmany

/-- Where the host has a quotient, `FREQ` of a text that is not empty gives such a list (R206). -/
theorem exists_freq (hq : wRatio A text.length = some q) (hne : text ≠ []) :
    ∃ es, freq A text = some es ∧ FreqList A text q es := by
  rcases freq_cases hq hne with ⟨x, hall, hfreq⟩ | ⟨hmany, hfreq⟩
  · exact ⟨_, hfreq, freqList_of_single hq hne hall⟩
  · exact ⟨_, hfreq, freqList_of_many hq hne hmany⟩

/-- Everything `FREQ` can give (R200 to R205). -/
theorem freqList_of_freq (h : freq A text = some es) :
    text ≠ [] ∧ ∃ q, wRatio A text.length = some q ∧ FreqList A text q es := by
  obtain ⟨hne, q, hq⟩ := ne_nil_and_wRatio_of_freq h
  obtain ⟨es', h', hlist⟩ := exists_freq hq hne
  cases h.symm.trans h'
  exact ⟨hne, q, hq, hlist⟩

namespace FreqList

/-- Every entry weighs the quotient of its symbol's count, the synthetic one that of no occurrence. -/
theorem w_eq (h : FreqList A text q es) {e : Entry} (he : e ∈ es) : e.w = q (text.count e.sym) := by
  rcases h.entry e he with ⟨-, hw⟩ | ⟨hw, hnot, -⟩
  · exact hw
  · rw [hw, List.count_eq_zero_of_not_mem hnot]

theorem contract (h : FreqList A text q es) (hq : wRatio A text.length = some q) (hne : text ≠ []) :
    EntryContract A es := by
  have ht : text.length ≠ 0 := List.length_eq_zero_iff.not.2 hne
  refine ⟨fun e he => ?_, h.syms, (h.sorted.imp fun hab => (entryBefore_iff A _ _).1 hab).isChain⟩
  rw [h.w_eq he]
  exact hasWeight_quot ht hq List.count_le_length

end FreqList

/-! ## The statements -/

/-- Settles O54: the list is in the order of the contract, and different symbols are at most 256. -/
theorem freqMeetsTheBuilderContract : Obligations.FreqMeetsTheBuilderContract := by
  refine ⟨fun A text hne hsome => ?_, fun _ => ⟨rfl, rfl⟩⟩
  obtain ⟨q, hq⟩ := Option.isSome_iff_exists.1 hsome
  obtain ⟨es, hfreq, hlist⟩ := exists_freq hq hne
  have hcontract := hlist.contract hq hne
  exact ⟨es, hfreq, hlist.long, hcontract.length_le, hcontract, fun x hx => ⟨_, hlist.real x hx, rfl⟩⟩

/-- The exact quotient is the ratio (R202). -/
theorem wRatio_exact {total : Nat} (hq : wRatio .exact total = some q) (c : Nat) : q c = ratio c total := by
  cases hq
  rfl

/-- Under the two named arithmetics the weight of no occurrence is 0, and that of all of the text 1 (R204, R219). -/
theorem quot_bounds_of_named {total : Nat} (hA : A = .exact ∨ A = .binary64) (ht : total ≠ 0)
    (hq : wRatio A total = some q) : q 0 = zeroWeight ∧ q total = oneWeight := by
  rcases hA with rfl | rfl <;> cases hq
  · exact ⟨ratio_zero ht, ratio_whole ht⟩
  · exact ⟨roundF64_zero ht, roundF64_whole ht⟩

/-- Settles O55: the entries are those of `FreqList`, and the quotient is the host's. -/
theorem freqEntriesAreCountsOverTotal : Obligations.FreqEntriesAreCountsOverTotal := by
  intro A text es h
  obtain ⟨hne, q, hq, hlist⟩ := freqList_of_freq h
  refine ⟨q, hq, hlist.real, hlist.entry, ?_, fun hA => ?_⟩
  · rintro rfl
    exact wRatio_exact hq
  · exact (quot_bounds_of_named hA (List.length_eq_zero_iff.not.2 hne) hq).1

/-- Where the counts are told apart, less or equal weight is less or equal count (R202). -/
theorem le_of_wLe_quot {total c c' : Nat} (ht : total ≠ 0) (hq : wRatio A total = some q)
    (hapart : countsApart A total = true) (hc : c ≤ total) (hle : wLe A (q c) (q c') = true) : c ≤ c' := by
  obtain ⟨val, -, -, -, hdifferent⟩ := wRatio_meetsR202 ht hq
  by_contra hlt
  rw [hdifferent hapart c' c (Nat.lt_of_not_le hlt) hc] at hle
  cases hle

/-- Settles O59: the order of R203 read on the counts. -/
theorem freqOrdersByCountThenSymbol : Obligations.FreqOrdersByCountThenSymbol := by
  intro A text es hapart h
  obtain ⟨hne, q, hq, hlist⟩ := freqList_of_freq h
  have ht : text.length ≠ 0 := List.length_eq_zero_iff.not.2 hne
  refine hlist.sorted.imp_of_mem fun {a b} ha hb hab => ?_
  obtain ⟨hle, hsym⟩ := (entryBefore_iff A a b).1 hab
  rw [hlist.w_eq ha, hlist.w_eq hb] at hle hsym
  rcases Nat.lt_or_eq_of_le (le_of_wLe_quot ht hq hapart List.count_le_length hle) with hlt | heq
  · exact .inl hlt
  · refine .inr ⟨heq, hsym ?_⟩
    rw [heq]
    exact wLe_quot ht hq le_rfl List.count_le_length

end Sys2Proof.Machine
end

section
/-! The host's codec (R210 to R217): what the host sees of the commands it issues, the loop of `ENCODE` and the walk of
`DECODE`. -/

namespace Sys2Proof.Machine

variable {s t u : State}

/-! ## Issuing a command -/

theorem issue_of_exec {i : Instr} {o : Operands} (hi : i.wellFormed = true) (he : exec i (present s o) = .next t)
    (hf : t.fault = false) : issue i o s = some t := by
  have hrun : runCommand { cw := encode i, operands := o } s = .next t :=
    (runCommand_of_decode_ok (c := { cw := encode i, operands := o }) (decode_encode hi) s).trans he
  simp [issue, hrun, hf]

/-- The host's commands between two builds leave the stores, the root and the parameters, and set no fault (R47). -/
structure SameBlock (s t : State) : Prop where
  record : ∀ i, nodeAt t i = nodeAt s i
  nnodes : t.nnodes = s.nnodes
  root : t.root = s.root
  ct : t.ct = s.ct
  params : t.params = s.params
  fault : t.fault = s.fault

namespace SameBlock

theorem refl (s : State) : SameBlock s s := ⟨fun _ => rfl, rfl, rfl, rfl, rfl, rfl⟩

theorem trans (h : SameBlock s t) (h' : SameBlock t u) : SameBlock s u :=
  ⟨fun i => (h'.record i).trans (h.record i), h'.nnodes.trans h.nnodes, h'.root.trans h.root, h'.ct.trans h.ct,
    h'.params.trans h.params, h'.fault.trans h.fault⟩

end SameBlock

/-- The tree below a record depends on the records and their number only (R25). -/
theorem absAt_congr (hrecord : ∀ i, nodeAt t i = nodeAt s i) (hnn : t.nnodes = s.nnodes) (fuel i : Nat) :
    absAt t fuel i = absAt s fuel i := by
  induction fuel generalizing i with
  | zero => rfl
  | succ fuel ih => simp only [absAt, hrecord, hnn, ih]

theorem absTree_congr (hrecord : ∀ i, nodeAt t i = nodeAt s i) (hnn : t.nnodes = s.nnodes) (hroot : t.root = s.root) :
    absTree t = absTree s := by
  rw [absTree, absTree, hroot, absAt_congr hrecord hnn]

/-! ## `ENCODE` -/

/-- `CD_LOOKUP` of a symbol with an entry shows its code and leaves the block (R150). -/
theorem issue_cdLookup_hit {x : Sym} {code : List Bit} (hf : s.fault = false)
    (hcode : codeOf s.ct x.toNat = some code) :
    ∃ t, issue (.cdLookup x.toNat) s.ports s = some t ∧ t.lookupOut.hit = true ∧ t.lookupOut.code = code ∧
      SameBlock s t := by
  obtain ⟨r, hr, rfl⟩ := Option.map_eq_some_iff.1 hcode
  exact ⟨_, issue_of_exec (decide_eq_true x.isLt) (exec_cdLookup_hit (s := present s s.ports) hf hr) hf, rfl, rfl,
    fun _ => rfl, rfl, rfl, rfl, rfl, rfl⟩

/-- `CD_LOOKUP` of a symbol without entry signals absence (R150). -/
theorem issue_cdLookup_miss {x : Sym} (hf : s.fault = false) (hnone : storeRead s.ct x.toNat = none) :
    ∃ t, issue (.cdLookup x.toNat) s.ports s = some t ∧ t.lookupOut.hit = false :=
  ⟨_, issue_of_exec (decide_eq_true x.isLt) (exec_cdLookup_miss (s := present s s.ports) hf hnone) hf, rfl⟩

/-- The codes of the symbols, one after the other, when every symbol has an entry (R210). -/
theorem encodeChars_of_codes {code : Sym → List Bit} {text : List Sym} {cs : List Byte} (hf : s.fault = false)
    (hcodes : ∀ x ∈ text, codeOf s.ct x.toNat = some (code x)) :
    ∃ t, encodeChars text cs s = .done (cs ++ (text.flatMap code).map charOf) t ∧ SameBlock s t := by
  induction text generalizing cs s with
  | nil => exact ⟨s, by simp [encodeChars], .refl s⟩
  | cons x text ih =>
    obtain ⟨t, ht, hhit, hcode, hsame⟩ := issue_cdLookup_hit hf (hcodes x (by simp))
    obtain ⟨u, hu, hsame'⟩ := ih (s := t) (cs := cs ++ (code x).map charOf) (hsame.fault.trans hf) fun y hy => by
      rw [hsame.ct]
      exact hcodes y (by simp [hy])
    refine ⟨u, ?_, hsame.trans hsame'⟩
    simp only [encodeChars, ht, hhit, if_true, hcode, hu]
    simp

/-- The loop stops at the first symbol without entry (R211). -/
theorem encodeChars_of_missing {text : List Sym} {cs : List Byte} (hf : s.fault = false)
    (hmissing : ∃ x ∈ text, storeRead s.ct x.toNat = none) : encodeChars text cs s = .noMeaning := by
  induction text generalizing cs s with
  | nil =>
    obtain ⟨x, hx, -⟩ := hmissing
    cases hx
  | cons x text ih =>
    cases hr : storeRead s.ct x.toNat with
    | none =>
      obtain ⟨t, ht, hmiss⟩ := issue_cdLookup_miss hf hr
      simp [encodeChars, ht, hmiss]
    | some r =>
      have hcode : codeOf s.ct x.toNat = some r.code := by rw [codeOf, hr]; rfl
      obtain ⟨t, ht, hhit, -, hsame⟩ := issue_cdLookup_hit hf hcode
      obtain ⟨y, hy, hnone⟩ := hmissing
      have hlater : ∃ y ∈ text, storeRead t.ct y.toNat = none := by
        rcases List.mem_cons.1 hy with rfl | hy
        · rw [hr] at hnone
          cases hnone
        · exact ⟨y, hy, hsame.ct ▸ hnone⟩
      simp only [encodeChars, ht, hhit, if_true, ih (hsame.fault.trans hf) hlater]

/-- `BP_PACK` of bit characters within the capacity shows their frame and leaves the block (R167). -/
theorem issue_bpPack {o : Operands} {bits : List Bit} (hf : s.fault = false) (hcap : WithinCap s bits.length)
    (hchars : o.charIn = bits.map charOf) (hsink : o.sinkOk = true) :
    ∃ t, issue .bpPack o s = some t ∧ t.status = .ok ∧ t.byteOut = tobytes (frame bits) ∧ SameBlock s t := by
  have hcap' : WithinCap (present s o) (present s o).ports.charIn.length := by
    rw [present_ports, hchars, List.length_map]
    exact hcap
  have hbits : BitChars (present s o).ports.charIn := by
    rw [present_ports, hchars]
    exact bitChars_map_charOf bits
  have he := exec_bpPack_of_bitChars (s := present s o) hf hcap' hbits
  rw [present_ports, hsink, if_pos rfl, hchars, payload_map_charOf] at he
  exact ⟨_, issue_of_exec rfl he hf, rfl, rfl, fun _ => rfl, rfl, rfl, rfl, rfl, rfl⟩

/-- `ENCODE` of a text whose symbols all have an entry packs their codes (R210). -/
theorem encodeText_of_codes {code : Sym → List Bit} {text : List Sym} (hf : s.fault = false)
    (hcodes : ∀ x ∈ text, codeOf s.ct x.toNat = some (code x)) (hcap : WithinCap s (text.flatMap code).length) :
    ∃ t, encodeText text true s = .done (tobytes (frame (text.flatMap code))) t ∧ SameBlock s t := by
  obtain ⟨t, ht, hsame⟩ := encodeChars_of_codes (cs := []) hf hcodes
  have hcap' : WithinCap t (text.flatMap code).length := by
    rw [WithinCap, hsame.params]
    exact hcap
  obtain ⟨u, hu, hok, hbytes, hsame'⟩ := issue_bpPack
    (o := { t.ports with charIn := (text.flatMap code).map charOf, sinkOk := true }) (hsame.fault.trans hf) hcap' rfl
    rfl
  refine ⟨u, ?_, hsame.trans hsame'⟩
  rw [List.nil_append] at ht
  simp only [encodeText, ht, hu, hok, if_true, hbytes]

/-! ## Reading the tree -/

/-- The child a bit leads to: 0 left, 1 right (R214). -/
def childRef (b : Bit) (r : NodeRec) : NodeRef := if b then r.right else r.left

/-- `TB_NODE` of a record in use shows it and leaves the block (R130). -/
theorem readNode_in_use {r : NodeRef} (hf : s.fault = false) (hr : r.toNat < s.nnodes) :
    ∃ t, readNode r s = some (.ofRec true (nodeAt s r.toNat), t) ∧ SameBlock s t ∧ EndsOk t ∧
      t.charOut = s.charOut := by
  have he := exec_tbNode_in_use (s := present s s.ports) hf hr
  have hread : readNode r s = some (.ofRec true (nodeAt s r.toNat),
      finish { s with nodeOut := .ofRec true (nodeAt s r.toNat) }) := by
    rw [readNode, issue_of_exec (i := .tbNode r.toNat) (decide_eq_true r.isLt) he hf]
    rfl
  exact ⟨_, hread, ⟨fun _ => rfl, rfl, rfl, rfl, rfl, rfl⟩, ⟨rfl, rfl, hf⟩, rfl⟩

/-- One bit of the walk: from the record it stands at the host goes to the child, and from a Leaf back to the root
(R214, R215). -/
theorem decodeWalk_bit {b : Bit} {cs : List Byte} {pos : NodeRef} {out : List Sym} (hf : s.fault = false)
    (hpos : pos.toNat < s.nnodes) (hchild : (childRef b (nodeAt s pos.toNat)).toNat < s.nnodes) :
    ∃ t, SameBlock s t ∧ EndsOk t ∧
      ((nodeAt s (childRef b (nodeAt s pos.toNat)).toNat).kind = .leaf → decodeWalk (charOf b :: cs) pos out s =
        decodeWalk cs t.root (out ++ [(nodeAt s (childRef b (nodeAt s pos.toNat)).toNat).sym]) t) ∧
      ((nodeAt s (childRef b (nodeAt s pos.toNat)).toNat).kind = .internal → decodeWalk (charOf b :: cs) pos out s =
        decodeWalk cs (childRef b (nodeAt s pos.toNat)) out t) := by
  obtain ⟨s1, h1, hsame1, -, -⟩ := readNode_in_use hf hpos
  obtain ⟨s2, h2, hsame2, hok, -⟩ := readNode_in_use (s := s1) (hsame1.fault.trans hf) (hsame1.nnodes.symm ▸ hchild)
  have hgoes : (if charOf b = charZero then (nodeAt s pos.toNat).left else (nodeAt s pos.toNat).right) =
      childRef b (nodeAt s pos.toNat) := by
    cases b <;> rfl
  rw [hsame1.record] at h2
  refine ⟨s2, hsame1.trans hsame2, hok, fun hkind => ?_, fun hkind => ?_⟩ <;>
    simp only [decodeWalk, h1, NodeOut.ofRec, hgoes, h2, hkind]

/-! ## The walk of `DECODE` -/

/-- Codes below a record are the codes of its tree behind the path to it. -/
theorem treeCodes_eq_map (t : Tree) (p : List Bit) : treeCodes t p = (treeCodes t []).map fun c => (c.1, p ++ c.2) := by
  induction t generalizing p with
  | leaf sym w => simp [treeCodes]
  | node l r w ihl ihr =>
    rw [treeCodes, treeCodes, ihl, ihr, ihl ([] ++ [false]), ihr ([] ++ [true])]
    simp [Function.comp_def]

/-- The code of a symbol begins with the side of the tree it is on (R142). -/
theorem mem_treeCodes_node {l r : Tree} {w : Weight} {x : Sym} {c : List Bit}
    (h : (x, c) ∈ treeCodes (.node l r w) []) :
    ∃ b c', c = b :: c' ∧ (x, c') ∈ treeCodes (if b then r else l) [] := by
  rw [treeCodes, treeCodes_eq_map l, treeCodes_eq_map r] at h
  rcases List.mem_append.1 h with h | h <;> obtain ⟨q, hq, heq⟩ := List.mem_map.1 h <;> cases heq
  · exact ⟨false, q.2, rfl, hq⟩
  · exact ⟨true, q.2, rfl, hq⟩

theorem lt_nnodes_of_absAt {fuel i : Nat} {tree : Tree} (h : absAt s fuel i = some tree) : i < s.nnodes := by
  cases fuel with
  | zero => cases h
  | succ fuel =>
    rw [absAt] at h
    by_contra hge
    rw [if_neg hge] at h
    cases h

/-- A record that is the root of a Leaf tree is that Leaf. -/
theorem absAt_eq_leaf {fuel i : Nat} {x : Sym} {w : Weight} (h : absAt s fuel i = some (.leaf x w)) :
    (nodeAt s i).kind = .leaf ∧ (nodeAt s i).sym = x := by
  cases fuel with
  | zero => cases h
  | succ fuel =>
    rcases absAt_cases h with ⟨hkind, heq⟩ | ⟨-, l, r, -, -, heq⟩ <;> cases heq
    exact ⟨hkind, rfl⟩

/-- A record that is the root of a tree with children is Internal, and each bit leads to the child of its side. -/
theorem absAt_eq_node {fuel i : Nat} {l r : Tree} {w : Weight} (h : absAt s fuel i = some (.node l r w)) :
    (nodeAt s i).kind = .internal ∧
    ∃ fuel', ∀ b, absAt s fuel' (childRef b (nodeAt s i)).toNat = some (if b then r else l) := by
  cases fuel with
  | zero => cases h
  | succ fuel =>
    rcases absAt_cases h with ⟨-, heq⟩ | ⟨hkind, l', r', hl, hr, heq⟩ <;> cases heq
    refine ⟨hkind, fuel, fun b => ?_⟩
    cases b
    · exact hl
    · exact hr

/-- The code of a symbol leads the walk from an Internal record to the symbol's leaf, which is emitted, and back to the
root (R214). -/
theorem decodeWalk_code {fuel : Nat} {pos : NodeRef} {l r : Tree} {w : Weight} {x : Sym} {c : List Bit} {cs : List Byte}
    {out : List Sym} (hf : s.fault = false) (htree : absAt s fuel pos.toNat = some (.node l r w))
    (hcode : (x, c) ∈ treeCodes (.node l r w) []) :
    ∃ t, SameBlock s t ∧ EndsOk t ∧
      decodeWalk (c.map charOf ++ cs) pos out s = decodeWalk cs t.root (out ++ [x]) t := by
  induction c generalizing s fuel pos l r w with
  | nil =>
    obtain ⟨b, c', hc, -⟩ := mem_treeCodes_node hcode
    cases hc
  | cons b c ih =>
    obtain ⟨b', c', hc, hbelow⟩ := mem_treeCodes_node hcode
    obtain ⟨rfl, rfl⟩ := List.cons.inj hc
    obtain ⟨-, fuel', hchildren⟩ := absAt_eq_node htree
    have hchild := hchildren b
    obtain ⟨t, hsame, hok, hleaf, hinternal⟩ := decodeWalk_bit (b := b) (cs := c.map charOf ++ cs) (out := out) hf
      (lt_nnodes_of_absAt htree) (lt_nnodes_of_absAt hchild)
    rw [List.map_cons, List.cons_append]
    cases hside : (if b then r else l) with
    | leaf y v =>
      rw [hside] at hchild hbelow
      obtain ⟨hkind, hsym⟩ := absAt_eq_leaf hchild
      cases List.mem_singleton.1 hbelow
      exact ⟨t, hsame, hok, hsym ▸ hleaf hkind⟩
    | node l' r' w' =>
      rw [hside] at hchild hbelow
      obtain ⟨hkind, -⟩ := absAt_eq_node hchild
      obtain ⟨u, hsame', hok', hrest⟩ := ih (hsame.fault.trans hf)
        ((absAt_congr hsame.record hsame.nnodes _ _).trans hchild) hbelow
      exact ⟨u, hsame.trans hsame', hok', (hinternal hkind).trans hrest⟩

/-- The codes of a text lead the walk from the root through the whole text and end at the root (R214, R217). -/
theorem decodeWalk_text {code : Sym → List Bit} {text out : List Sym} {fuel : Nat} {l r : Tree} {w : Weight}
    (hok : EndsOk s) (htree : absAt s fuel s.root.toNat = some (.node l r w))
    (hcodes : ∀ x ∈ text, (x, code x) ∈ treeCodes (.node l r w) []) :
    ∃ t, decodeWalk ((text.flatMap code).map charOf) s.root out s = .done (out ++ text) t ∧ EndsOk t := by
  induction text generalizing s out with
  | nil => exact ⟨s, by simp [decodeWalk], hok⟩
  | cons x text ih =>
    obtain ⟨-, -, hf⟩ := hok
    obtain ⟨t, hsame, hok', hwalk⟩ := decodeWalk_code (cs := (text.flatMap code).map charOf) (out := out) hf htree
      (hcodes x (by simp))
    obtain ⟨u, hu, hoku⟩ := ih (out := out ++ [x]) hok'
      (by rw [absAt_congr hsame.record hsame.nnodes, hsame.root]; exact htree) fun y hy => hcodes y (by simp [hy])
    refine ⟨u, ?_, hoku⟩
    rw [List.flatMap_cons, List.map_append, hwalk, hu, List.append_assoc, List.singleton_append]

/-! ## `DECODE` -/

/-- `BU_UNPACK` of bytes within the capacity shows their payload and leaves the block (R187). -/
theorem issue_buUnpack {o : Operands} (hf : s.fault = false) (hsrc : o.srcOk = true)
    (hcap : WithinCap s (8 * o.byteIn.length)) :
    ∃ t, issue .buUnpack o s = some t ∧ t.status = .ok ∧ t.charOut = (unframe (unbits o.byteIn)).map charOf ∧
      SameBlock s t :=
  ⟨_, issue_of_exec rfl (exec_buUnpack_of_withinCap (s := present s o) hf hsrc hcap) hf, rfl, rfl,
    fun _ => rfl, rfl, rfl, rfl, rfl, rfl⟩

theorem absAt_of_absTree {tree : Tree} (h : absTree s = .tree tree) :
    s.root ≠ Config.noneRef ∧ absAt s Config.maxNodes s.root.toNat = some tree := by
  rw [absTree] at h
  split at h
  next => cases h
  next hroot =>
    split at h
    next t' ht => cases h; exact ⟨hroot, ht⟩
    next => cases h

/-- `DECODE` of the packed codes of a text, against the tree they are the codes of, emits the text (R214). -/
theorem decodeText_of_codes {code : Sym → List Bit} {text : List Sym} {l r : Tree} {w : Weight} (hf : s.fault = false)
    (htree : absTree s = .tree (.node l r w)) (hcodes : ∀ x ∈ text, (x, code x) ∈ treeCodes (.node l r w) [])
    (hcap : WithinCap s (8 * (tobytes (frame (text.flatMap code))).length)) :
    ∃ t, decodeText (tobytes (frame (text.flatMap code))) true s = .done text t ∧ EndsOk t := by
  obtain ⟨t, ht, hok, hchars, hsame⟩ := issue_buUnpack
    (o := { s.ports with byteIn := tobytes (frame (text.flatMap code)), srcOk := true }) hf rfl hcap
  rw [unbits_tobytes (frame_length _), unframe_frame] at hchars
  obtain ⟨hroot, habs⟩ := absAt_of_absTree ((absTree_congr hsame.record hsame.nnodes hsame.root).trans htree)
  obtain ⟨u, hu, hsame', hoku, hchars'⟩ := readNode_in_use (hsame.fault.trans hf) (lt_nnodes_of_absAt habs)
  obtain ⟨hkind, -⟩ := absAt_eq_node habs
  obtain ⟨v, hv, hokv⟩ := decodeWalk_text (out := []) hoku
    (by rw [absAt_congr hsame'.record hsame'.nnodes, hsame'.root]; exact habs) hcodes
  refine ⟨v, ?_, hokv⟩
  rw [← hchars, ← hchars'] at hv
  simp only [decodeText, ht, hok, ne_eq, not_true_eq_false, if_false, hroot, hu, NodeOut.ofRec, hkind, hv,
    List.nil_append]

/-- Settles O58: the loop of `ENCODE` meets the symbol without entry, and `DECODE` sees the empty tree in a block that
has unpacked. -/
theorem hostContractViolationsHaveNoResult : Obligations.HostContractViolationsHaveNoResult := by
  refine ⟨fun s text ok hf hmissing => ?_, fun s bytes hf hroot hcap => ?_⟩
  · simp only [encodeText, encodeChars_of_missing hf hmissing]
  · obtain ⟨t, ht, hok, -, hsame⟩ := issue_buUnpack (o := { s.ports with byteIn := bytes, srcOk := true }) hf rfl hcap
    have hempty : t.root = Config.noneRef := hsame.root.trans hroot
    exact ⟨t, by simp [decodeText, ht, hok, hempty], hsame.fault.trans hf⟩

end Sys2Proof.Machine
end

section
/-! The full pipeline (R100, R218): the tree and the table of a text, the round trip, and the text of one symbol
(R219). -/

namespace Sys2Proof.Machine

variable {s t : State} {text : List Sym} {es : List Entry}

/-! ## The tree and the table of a text -/

/-- `CD_DERIVE` on a store that holds a tree completes, whatever the table before it, and leaves the codes of that tree
(R142, R143). -/
theorem exec_cdDerive_of_storeOk {n : Nat} {tree : Tree} (hf : s.fault = false) (h : StoreOk s n)
    (htree : absTree s = .tree tree) :
    ∃ table, exec .cdDerive s = .next (finish { s with ct := table }) ∧
      ∀ (x : Sym) (c : List Bit), codeOf table x.toNat = some c ↔ (x, c) ∈ treeCodes tree [] := by
  obtain rfl : treeAt s (2 * n - 2) = tree := AbsTree.tree.inj (h.absTree_eq.symm.trans htree)
  obtain ⟨table, htable, hperm⟩ := h.deriveTable_perm
  obtain ⟨hwf, -⟩ := deriveTable_ok (.inr (h.leafCount_eq.symm ▸ h)) htable
  refine ⟨table, exec_cdDerive_of_deriveTable hf htable, fun x c => (codeOf_eq_some_iff_of_perm hwf hperm).trans ?_⟩
  constructor
  · rintro ⟨q, hq, hsym, rfl⟩
    rwa [← BitVec.eq_of_toNat_eq hsym]
  · exact fun hq => ⟨_, hq, rfl, rfl⟩

/-- What `TB_BUILD` and `CD_DERIVE` leave of an entry list: its tree, and a table with the codes of that tree. -/
structure Prepared (s t : State) (tree : Tree) : Prop where
  fault : t.fault = false
  params : t.params = s.params
  abs : absTree t = .tree tree
  codes : ∀ (x : Sym) (c : List Bit), codeOf t.ct x.toNat = some c ↔ (x, c) ∈ treeCodes tree []

/-- The tree and the table of a text are those of its entry list (R100). -/
theorem prepare_of_freq (hf : s.fault = false) (hfreq : freq s.params.arith text = some es)
    (hlong : 2 ≤ es.length) (hcontract : EntryContract s.params.arith es) :
    ∃ b t tree, exec .tbBuild (present s { s.ports with entryIn := es }) = .next b ∧ absTree b = .tree tree ∧
      prepare text s = some t ∧ Prepared s t tree := by
  have hf' : (present s { s.ports with entryIn := es }).fault = false := hf
  have hc : ContractOk (present s { s.ports with entryIn := es }) := ⟨hlong, hcontract⟩
  obtain ⟨b, hb, ⟨-, -, hfb⟩, -, -, -, -, -, -, -, -, -, -, -, hparams⟩ := tbBuildCompletes _ hf' hc
  have hstore := tbBuildLeavesAStrictTree _ b hf' hc hb
  obtain ⟨table, hderive, hcodes⟩ := exec_cdDerive_of_storeOk hfb hstore hstore.absTree_eq
  have hbuild : issue .tbBuild { s.ports with entryIn := es } s = some b := issue_of_exec rfl hb hfb
  have hissue : issue .cdDerive b.ports b = some (finish { b with ct := table }) := issue_of_exec rfl hderive hfb
  have habs : absTree (finish { b with ct := table }) = absTree b := absTree_congr (fun _ => rfl) rfl rfl
  refine ⟨b, finish { b with ct := table }, _, hb, hstore.absTree_eq, ?_, hfb, hparams, habs.trans hstore.absTree_eq,
    hcodes⟩
  simp only [prepare, hfreq, hbuild, hissue]

/-! ## The round trip -/

/-- The codes of a text are at most 255 bits a symbol (R12). -/
theorem flatMap_code_length_le {code : Sym → List Bit} {n : Nat} (h : ∀ x ∈ text, (code x).length ≤ n) :
    (text.flatMap code).length ≤ n * text.length := by
  have hsum := List.sum_le_card_nsmul (text.map fun x => (code x).length) n (by simpa using h)
  simpa [List.length_flatMap, Nat.mul_comm] using hsum

/-- The packed stream of a bit sequence has one byte for each whole eight bits, and one more (R78). -/
theorem packed_length (bits : List Bit) : (tobytes (frame bits)).length = bits.length / 8 + 1 :=
  tobytes_length _ _ (frame_length bits)

theorem WithinCap.mono {m n : Nat} (h : WithinCap s n) (hparams : t.params = s.params) (hle : m ≤ n) : WithinCap t m :=
  fun c hc => hle.trans (h c (hparams ▸ hc))

/-- With a tree that has a leaf for every symbol of the text, decoding the encoding gives the text (R218). -/
theorem pipeline_of_prepared {l r : Tree} {w : Weight} (hprepare : prepare text s = some t)
    (h : Prepared s t (.node l r w)) (hfew : (treeLeaves (.node l r w)).length ≤ 256)
    (hleaves : ∀ x ∈ text, ∃ e ∈ treeLeaves (.node l r w), e.sym = x) (hcap : WithinCap s (255 * text.length + 8)) :
    ∃ u, pipeline text s = .done text u ∧ EndsOk u := by
  have hcovered : ∀ x ∈ text, ∃ c, (x, c) ∈ treeCodes (.node l r w) [] := fun x hx => by
    obtain ⟨e, he, rfl⟩ := hleaves x hx
    obtain ⟨q, hq, hsym⟩ := List.mem_map.1 ((treeCodes_syms _ []).symm ▸ List.mem_map_of_mem he)
    exact ⟨q.2, hsym ▸ hq⟩
  choose! code hcode using hcovered
  have hlen : (text.flatMap code).length ≤ 255 * text.length := flatMap_code_length_le fun x hx => by
    have hshort : (code x).length + 1 ≤ [].length + _ := length_of_mem_treeCodes (hcode x hx)
    rw [List.length_nil] at hshort
    omega
  obtain ⟨u, hu, hsame⟩ := encodeText_of_codes h.fault (fun x hx => (h.codes x _).2 (hcode x hx))
    (hcap.mono h.params (by omega))
  obtain ⟨v, hv, hok⟩ := decodeText_of_codes (code := code) (hsame.fault.trans h.fault)
    ((absTree_congr hsame.record hsame.nnodes hsame.root).trans h.abs) hcode
    (hcap.mono (hsame.params.trans h.params) (by rw [packed_length]; omega))
  exact ⟨v, by simp only [pipeline, hprepare, hu, hv], hok⟩

/-- Settles O56: the tree of the text's entry list has a leaf for every symbol of the text. -/
theorem textRoundTrip : Obligations.TextRoundTrip := by
  intro s text hf hcap hne hsome
  obtain ⟨q, hq⟩ := Option.isSome_iff_exists.1 hsome
  obtain ⟨es, hfreq, hlist⟩ := exists_freq hq hne
  have hcontract := hlist.contract hq hne
  obtain ⟨b, t, tree, hb, htree, hprepare, hprepared⟩ := prepare_of_freq hf hfreq hlist.long hcontract
  obtain ⟨l, r, w, htree', hperm⟩ :=
    tbBuildTreeHasTheEntriesAsLeaves (present s { s.ports with entryIn := es }) b hf ⟨hlist.long, hcontract⟩ hb
  obtain rfl : tree = .node l r w := AbsTree.tree.inj (htree.symm.trans htree')
  exact pipeline_of_prepared hprepare hprepared (hperm.length_eq ▸ hcontract.length_le)
    (fun x hx => ⟨_, hperm.mem_iff.2 (hlist.real x hx), rfl⟩) hcap

/-! ## The text of one symbol -/

/-- The one merge step of two leaves makes record 2 of records 0 and 1, in this order (R116, R117). -/
theorem nodeAt_two_afterMerges {u : State} (hlen : s.ports.entryIn.length = 2) (h : afterMerges 1 (loaded s) = some u) :
    ∃ sym w, nodeAt u 2 = internalRec sym w 0#9 1#9 := by
  have hsrc : (loaded s).source = [0#9, 1#9] := by
    rw [loaded_source, hlen]
    rfl
  have hfirst := select_target_empty hsrc (loaded_target s)
  have hsecond := select_target_empty (s := { loaded s with source := [1#9] }) rfl (loaded_target s)
  rw [afterMerges_succ (mergeStep_of_select hfirst hsecond)] at h
  obtain rfl := Option.some.inj h
  have hnew := nodeAt_mergeNodes_new { loaded s with source := [] } 0#9 1#9
  rw [loaded_nnodes, hlen] at hnew
  exact ⟨_, _, hnew⟩

/-- The three records of a list of two entries (R114, R118). -/
theorem nodeAt_of_tbBuild_two {a b : Entry} (hf : s.fault = false) (hc : ContractOk s)
    (hlist : s.ports.entryIn = [a, b]) (h : exec .tbBuild s = .next t) :
    nodeAt t 0 = leafRec a ∧ nodeAt t 1 = leafRec b ∧ (∃ sym w, nodeAt t 2 = internalRec sym w 0#9 1#9) ∧
      t.params = s.params := by
  have hlen : s.ports.entryIn.length = 2 := congrArg List.length hlist
  obtain ⟨u, r, hu, hbuild, -, -, rfl⟩ := building_of_tbBuild hf hc h
  have hparams := (afterMerges_params hu).trans (loaded_params s)
  rw [hlen] at hu
  rw [hlist] at hbuild
  exact ⟨hbuild.nodeAt_leaf (i := 0) Nat.two_pos, hbuild.nodeAt_leaf (i := 1) Nat.one_lt_two,
    nodeAt_two_afterMerges (u := u) hlen hu, hparams⟩

/-- The tree of a list of two entries: the first is left, the second right, and the root weighs their sum (R117). -/
theorem absTree_of_tbBuild_two {a b : Entry} (hf : s.fault = false) (hc : ContractOk s)
    (hlist : s.ports.entryIn = [a, b]) (h : exec .tbBuild s = .next t) :
    absTree t = .tree (.node (.leaf a.sym a.w) (.leaf b.sym b.w) (wAdd s.params.arith a.w b.w)) := by
  have hstore : StoreOk t [a, b].length := hlist ▸ tbBuildLeavesAStrictTree s t hf hc h
  obtain ⟨h0, h1, ⟨sym, w, h2⟩, hparams⟩ := nodeAt_of_tbBuild_two hf hc hlist h
  have hleft : treeAt t 0 = .leaf a.sym a.w := by rw [hstore.treeAt_leaf Nat.two_pos, h0]; rfl
  have hright : treeAt t 1 = .leaf b.sym b.w := by rw [hstore.treeAt_leaf Nat.one_lt_two, h1]; rfl
  have hnode : treeAt t 2 = .node (treeAt t 0) (treeAt t 1) w := by
    rw [hstore.treeAt_internal (i := 2) le_rfl (by simp), h2]
    rfl
  obtain ⟨-, -, -, hsum⟩ := hstore.nodeAt_internal (i := 2) le_rfl (by simp)
  have hweight : w = wAdd s.params.arith a.w b.w := by
    rw [h2, hparams] at hsum
    calc w = wAdd s.params.arith (nodeAt t 0).w (nodeAt t 1).w := hsum
      _ = wAdd s.params.arith a.w b.w := by rw [h0, h1]; rfl
  rw [hstore.absTree_eq, ← hweight, ← hleft, ← hright, ← hnode]
  rfl

/-- Settles O57: the two entries of the text give the tree, its two codes are one bit long, and `k` symbols pack as `k`
bits. -/
theorem singleSymbolText : Obligations.SingleSymbolText := by
  intro s x k q hf hcap hk hq
  have hk0 : k ≠ 0 := by omega
  have hlen : (List.replicate k x).length = k := List.length_replicate
  have hne : List.replicate k x ≠ [] := by simpa using hk0
  have hall : ∀ y ∈ List.replicate k x, y = x := fun y hy => List.eq_of_mem_replicate hy
  have hq' : wRatio s.params.arith (List.replicate k x).length = some q := hlen.symm ▸ hq
  have hfreq := freq_of_single hq' hne hall
  have hlist := freqList_of_single hq' hne hall
  rw [hlen] at hfreq hlist
  obtain ⟨b, t, tree, hb, htree, hprepare, hprepared⟩ := prepare_of_freq hf hfreq hlist.long (hlist.contract hq' hne)
  obtain rfl := AbsTree.tree.inj (htree.symm.trans (absTree_of_tbBuild_two
    (s := present s { s.ports with entryIn := [{ sym := x + 1#8, w := q 0 }, { sym := x, w := q k }] }) hf
    ⟨hlist.long, hlist.contract hq' hne⟩ rfl hb))
  have hcode : codeOf t.ct x.toNat = some [true] := (hprepared.codes _ _).2 (by simp [treeCodes])
  obtain ⟨u, hu, -⟩ := encodeText_of_codes (text := List.replicate k x) (code := fun _ => [true]) hprepared.fault
    (fun y hy => hall y hy ▸ hcode) (hcap.mono hprepared.params (by simp))
  refine ⟨t, _, u, hprepare, hprepared.abs, fun hA => ?_, (hprepared.codes _ _).2 (by simp [treeCodes]), hcode, hu, ?_⟩
  · obtain ⟨h0, h1⟩ := quot_bounds_of_named hA hk0 hq
    refine ⟨h0, h1, ?_⟩
    rw [h0, wAdd_zero hA (hasWeight_quot hk0 hq le_rfl), h1]
    rfl
  · rw [packed_length]
    simp

end Sys2Proof.Machine
end

section
/-! The fault flag: what sets it and what leaves it (R233, R240, R241, U14). -/

namespace Sys2Proof.Machine

variable {s t : State}

/-- An operation that sets the fault is `TB_BUILD` on a short list (R233): on its contract it ends with `OK`, and no other
operation touches the flag. -/
theorem short_tbBuild_of_exec_sets_fault {i : Instr} (hf : s.fault = false) (he : exec i s = .next t)
    (hft : t.fault = true) : i = .tbBuild ∧ s.ports.entryIn.length < 2 := by
  have hchanged : t.fault ≠ s.fault := by simp [hf, hft]
  by_cases hbuild : i = .tbBuild
  · subst hbuild
    refine ⟨rfl, ?_⟩
    rcases execTbBuild_cases s with ⟨-, hx⟩ | ⟨-, hshort, -⟩ | ⟨-, -, -, why, hx⟩ | ⟨-, hc, -⟩
    · cases hx.symm.trans he
    · exact hshort
    · cases hx.symm.trans he
    · obtain ⟨t', hx, ⟨-, -, hft'⟩, -⟩ := tbBuildCompletes s hf hc
      obtain rfl : t' = t := Host.Outcome.next.inj (hx.symm.trans he)
      rw [hft] at hft'; cases hft'
  · by_cases hderive : i = .cdDerive
    · subst hderive
      obtain ⟨hframe, -⟩ := buildAndDeriveFrame s t
      obtain ⟨-, -, hsame, -⟩ := hframe he
      exact absurd hsame hchanged
    · obtain ⟨-, -, -, hsame, -⟩ := readingAndPackingFrame i s t hbuild hderive he
      exact absurd hsame hchanged

/-- A word that does not decode is reported on the presented operands, outside the fault (R91, R234). -/
theorem runCommand_next_of_decode_error {c : Command} {e : DecodeError} (hf : s.fault = false)
    (hd : decode c.cw = .error e) (h : runCommand c s = .next t) :
    t = { s with ports := c.operands, status := .illegalCommand, errInfo := c.cw.toNat } :=
  Host.Outcome.next.inj (h.symm.trans (runCommand_of_illegalWord (illegalWord_iff.2 ⟨e, hd⟩) hf))

/-- A command that sets the fault is the word of `TB_BUILD` with a short list (R90, R233). -/
theorem short_tbBuild_of_runCommand_sets_fault {c : Command} (hf : s.fault = false) (h : runCommand c s = .next t)
    (hft : t.fault = true) : c.cw = 0x1000#16 ∧ c.operands.entryIn.length < 2 := by
  rcases runCommand_cases c s with ⟨i, hd, hx⟩ | ⟨e, hd, -⟩
  · obtain ⟨rfl, hshort⟩ := short_tbBuild_of_exec_sets_fault (s := present s c.operands) hf (hx.symm.trans h) hft
    obtain ⟨hword, -⟩ := operationMapWords c.cw
    exact ⟨hword.1 hd, hshort⟩
  · obtain rfl := runCommand_next_of_decode_error hf hd h
    rw [hf] at hft; cases hft

/-- Settles O11: an idle step and a reset leave the flag clear, and a command sets it only as `TB_BUILD` of a short list. -/
theorem onlyShortTbBuildSetsTheFault : Obligations.OnlyShortTbBuildSetsTheFault := by
  intro s t h hf hft
  rcases step_cases s with ⟨-, -, hx⟩ | ⟨-, ⟨cw, o⟩, rest, hq, hx⟩ | ⟨cs, r, rest, -, -, -, hx⟩ | ⟨-, -, hx⟩ <;>
    rw [hx] at h
  · cases h; rw [hf] at hft; cases hft
  · obtain ⟨rfl, hshort⟩ := short_tbBuild_of_runCommand_sets_fault (s := popRequest s rest) hf h hft
    exact ⟨o, rest, hq, hshort⟩
  · cases h; cases hft
  · cases h

/-! ## Inside the fault -/

theorem step_in_fault (hfault : s.fault = true) : step s = serveInFault s := by
  rw [step, if_pos hfault]

/-- With no reset among the requests the block is stuck (U14). -/
theorem step_in_fault_of_no_reset (hfault : s.fault = true) (hq : ∀ r ∈ s.requests, ∃ c, r = .command c) :
    step s = .fault .blockFaulted := by
  rw [step_in_fault hfault, serveInFault, afterReset_eq_none hq]

/-- The first reset among the requests is served over the commands before it (R241, R260). -/
theorem step_in_fault_of_reset {cs : List Command} {r : Request} {rest : List Request} (hfault : s.fault = true)
    (hq : s.requests = cs.map .command ++ r :: rest) (hr : r = .reset ∨ ∃ c, r = .resetDuring c) :
    step s = .next (.resetWith s.params rest s.draws) := by
  rw [step_in_fault hfault, serveInFault, hq, afterReset_commands cs r rest hr]
  rfl

/-- A next state of a step in the fault is that of a reset among the requests (R241, R260). -/
theorem reset_of_step_in_fault (h : step s = .next t) (hfault : s.fault = true) : t.fault = false ∧
    ∃ (cs : List Command) (r : Request) (rest : List Request),
      s.requests = cs.map .command ++ r :: rest ∧ (r = .reset ∨ ∃ c, r = .resetDuring c) := by
  rcases step_cases s with ⟨hf, -⟩ | ⟨hf, -⟩ | ⟨cs, r, rest, hq, -, hr, hx⟩ | ⟨-, -, hx⟩
  · rw [hfault] at hf; cases hf
  · rw [hfault] at hf; cases hf
  · cases hx.symm.trans h
    exact ⟨rfl, cs, r, rest, hq, hr⟩
  · cases hx.symm.trans h

/-- Settles O10: operation and illegal word stop in the fault; a step there serves the first reset or is stuck. -/
theorem faultStopsEveryCommand : Obligations.FaultStopsEveryCommand :=
  ⟨fun _ i hfault => exec_in_fault hfault i, fun _ cw hfault => execIllegal_in_fault hfault cw,
    fun _ hfault hq => step_in_fault_of_no_reset hfault hq, fun _ _ _ _ hfault hq hr => step_in_fault_of_reset hfault hq hr,
    fun _ _ h hfault => reset_of_step_in_fault h hfault⟩

end Sys2Proof.Machine
end

section
/-! The status an operation ends with (R235), and that a reported error writes nothing but the status and an emptied result
stream (R237 to R239). -/

namespace Sys2Proof.Machine

variable {s t : State}

/-- `TB_BUILD` in a next state: the built tree with `OK`, or the fault on a short list (R112, R119). -/
theorem execTbBuild_status (h : execTbBuild s = .next t) :
    (t.status = .ok ∧ 2 ≤ s.ports.entryIn.length) ∨
    (t.status = .structuralPrecondition ∧ s.ports.entryIn.length < 2) := by
  rcases execTbBuild_cases s with ⟨-, hx⟩ | ⟨-, hshort, hx⟩ | ⟨-, -, -, why, hx⟩ | ⟨-, ⟨hlen, -⟩, u, r, -, -, -, hx⟩ <;>
    rw [hx] at h <;> cases h
  · exact .inr ⟨raise_status _ _, hshort⟩
  · exact .inl ⟨rfl, hlen⟩

/-- `BP_PACK` in a next state: the frame with `OK`, or the first error that applies with `byte_out` emptied (R169). -/
theorem execBpPack_outcomes (h : execBpPack s = .next t) :
    (t.status = .ok ∧ BitChars s.ports.charIn ∧ s.ports.sinkOk = true) ∨
    (t = { s with status := t.status, errInfo := t.errInfo, byteOut := [] } ∧
      ((t.status = .invalidBitstring ∧ ¬ BitChars s.ports.charIn) ∨
        (t.status = .ioFailure ∧ BitChars s.ports.charIn ∧ s.ports.sinkOk = false))) := by
  rcases execBpPack_cases s with ⟨-, hx⟩ | ⟨-, -, hx⟩ | ⟨-, -, k, hk, hx⟩ | ⟨-, -, hchars, hsink, hx⟩ |
    ⟨-, -, hchars, hsink, hx⟩ <;> rw [hx] at h <;> cases h
  · have hnot : ¬ BitChars s.ports.charIn := by rw [← firstBadChar_eq_none, hk]; simp
    exact .inr ⟨rfl, .inl ⟨rfl, hnot⟩⟩
  · exact .inr ⟨rfl, .inr ⟨rfl, hchars, hsink⟩⟩
  · exact .inl ⟨rfl, hchars, hsink⟩

/-- `BU_UNPACK` in a next state: the characters with `OK`, or a failed source with `char_out` emptied (R187). -/
theorem execBuUnpack_outcomes (h : execBuUnpack s = .next t) :
    (t.status = .ok ∧ s.ports.srcOk = true) ∨
    (t = { s with status := t.status, errInfo := t.errInfo, charOut := [] } ∧
      t.status = .ioFailure ∧ s.ports.srcOk = false) := by
  rcases execBuUnpack_cases s with ⟨-, hx⟩ | ⟨-, hsrc, hx⟩ | ⟨-, -, -, hx⟩ | ⟨-, hsrc, -, hx⟩ <;>
    rw [hx] at h <;> cases h
  · exact .inr ⟨rfl, rfl, hsrc⟩
  · exact .inl ⟨rfl, hsrc⟩

/-- Settles O14: the node read, the derivation and the lookup always finish, the other three by their outcomes. -/
theorem eachOperationEndsWithItsStatuses : Obligations.EachOperationEndsWithItsStatuses := by
  intro i s t _ h
  cases i with
  | tbBuild => exact execTbBuild_status h
  | tbNode idx => obtain ⟨out, d, rfl⟩ := execTbNode_next h; rfl
  | cdDerive => obtain ⟨table, rfl⟩ := execCdDerive_next h; rfl
  | cdLookup sym => obtain ⟨out, d, rfl⟩ := execCdLookup_next h; rfl
  | bpPack =>
    rcases execBpPack_outcomes h with hok | ⟨-, hbad | hsink⟩
    · exact .inl hok
    · exact .inr (.inl hbad)
    · exact .inr (.inr hsink)
  | buUnpack => exact (execBuUnpack_outcomes h).imp_right And.right

/-- An operation that reports an error other than the fault writes `status`, `err_info` and the emptied result stream
(R239): only the packer and the unpacker do. -/
theorem exec_reported_error {i : Instr} (hf : s.fault = false) (h : exec i s = .next t) (hok : t.status ≠ .ok)
    (hshort : t.status ≠ .structuralPrecondition) :
    t = { s with status := t.status, errInfo := t.errInfo, byteOut := [] } ∨
    t = { s with status := t.status, errInfo := t.errInfo, charOut := [] } := by
  have hstatus := eachOperationEndsWithItsStatuses i s t hf h
  cases i with
  | tbBuild =>
    rcases hstatus with ⟨hbuilt, -⟩ | ⟨hfaulted, -⟩
    · exact absurd hbuilt hok
    · exact absurd hfaulted hshort
  | tbNode idx => exact absurd hstatus hok
  | cdDerive => exact absurd hstatus hok
  | cdLookup sym => exact absurd hstatus hok
  | bpPack =>
    rcases execBpPack_outcomes h with ⟨hpacked, -⟩ | ⟨ht, -⟩
    · exact absurd hpacked hok
    · exact .inl ht
  | buUnpack =>
    rcases execBuUnpack_outcomes h with ⟨hread, -⟩ | ⟨ht, -⟩
    · exact absurd hread hok
    · exact .inr ht

/-- Settles O15: the error is that of an illegal word, or one the packer or the unpacker reports. -/
theorem reportedErrorsArePrecise : Obligations.ReportedErrorsArePrecise := by
  intro s t c rest hq hf h hok hshort
  have hrun : runCommand c (popRequest s rest) = .next t := (step_of_command hf hq).symm.trans h
  rcases runCommand_cases c (popRequest s rest) with ⟨i, -, hx⟩ | ⟨e, hd, -⟩
  · exact .inr (exec_reported_error (s := present (popRequest s rest) c.operands) hf (hx.symm.trans hrun) hok hshort)
  · obtain rfl := runCommand_next_of_decode_error (s := popRequest s rest) hf hd hrun
    exact .inl ⟨rfl, rfl⟩

end Sys2Proof.Machine
end

section
/-! The idle step (R263) and the step that serves a reset, in the fault or not (R260, R262). -/

namespace Sys2Proof.Machine

variable {s : State}

/-- Outside the fault, with nothing requested, the block waits (R263). -/
theorem step_of_no_request (hf : s.fault = false) (hq : s.requests = []) : step s = .next s := by
  simp [step, hf, hq]

/-- Settles O7: the idle step is the branch of `step` for an empty queue outside the fault. -/
theorem stepWithoutRequestChangesNothing : Obligations.StepWithoutRequestChangesNothing :=
  fun _ hf hq => step_of_no_request hf hq

/-- A reset at the front of the queue is served whatever the fault flag says: outside the fault as the next request, in
the fault as the first reset to come (R260). -/
theorem step_of_reset {r : Request} {rest : List Request} (hq : s.requests = r :: rest)
    (hr : r = .reset ∨ ∃ c, r = .resetDuring c) : step s = .next (resetBlock (popRequest s rest)) := by
  cases hf : s.fault with
  | true => exact step_in_fault_of_reset (cs := []) hf hq hr
  | false => rcases hr with rfl | ⟨c, rfl⟩ <;> simp [step, hf, hq, serve]

/-- Settles O8: the step is `resetBlock` with the request taken, and each register of it has its value of R38. -/
theorem resetGivesTheResetState : Obligations.ResetGivesTheResetState := by
  intro s r rest hq hr
  refine ⟨resetBlock (popRequest s rest), step_of_reset hq hr, resetBlock_nnodes _, resetBlock_root _, resetBlock_source _,
    resetBlock_target _, ?table, ?status, resetBlock_errInfo _, resetBlock_fault _, resetBlock_byteOut _,
    resetBlock_charOut _, ?nodeOut, ?lookupOut, resetBlock_requests _, resetBlock_params _⟩
  case table => intro k; rw [resetBlock_ct, storeRead_nil]
  case status => rw [resetBlock_status]; rfl
  case nodeOut => rw [resetBlock_nodeOut]; rfl
  case lookupOut => rw [resetBlock_lookupOut]; rfl

end Sys2Proof.Machine
end
